-- ==== Sys2Proof/Word.lean ====
section
/-! DEFINITION. The word types of the block (00_scope.md R16): a bit, a byte, a command word. -/

namespace Sys2Proof

/-- One bit: a pin level (`0` low, `1` high; R20, R54) or a one-bit operand field (R70, R76). -/
abbrev Bit := BitVec 1

/-- `u8`: a device-register byte, a device-register address (R51), a channel field (R67). -/
abbrev Byte := BitVec 8

/-- One 64-bit command word, as presented on the command port (R67). -/
abbrev CmdWord := BitVec 64

end Sys2Proof
end

