-- ==== Sys2Proof/Config.lean ====
section
/-! DEFINITION. What is fixed for one block and what the spec leaves open: the constants of 00_scope.md R3 and R8 to R15,
the implementation parameters (`Params`, R11, R12) and the free values the environment supplies (R57, R58). -/

namespace Sys2Proof
namespace Config

/-- The identity string the spec assigns (R3). -/
def identity : String := "raspberryio-pwm-core/v7"

/-- R8. -/
def numSlots : Nat := 16

/-- The greatest legal step value (R9). -/
def stepMax : Int := 4095

/-- R9. -/
def stepsPerPeriod : Int := 4096

/-- The numerator of the prescale formula (R10). -/
def oscHz : Int := 25000000

/-- R11. -/
def prescaleMin : Int := 0

/-- R11. -/
def prescaleMax : Int := 255

/-- R15. -/
def usPerS : Int := 1000000

/-- `MODE1_RESTART` (R15). -/
def mode1Restart : Byte := 0x80#8

/-- `MODE1_SLEEP` (R15). -/
def mode1Sleep : Byte := 0x10#8

/-- `MODE1_KEEP_MASK` (R15). -/
def mode1KeepMask : Byte := 0x7F#8

/-- `FULL_BIT`: bit 4 of a high byte (R15). -/
def fullBit : Byte := 0x10#8

/-- The implementation parameters the spec leaves OPEN (R11, R12; 92_eei_decisions.md D6, D31): the chip's register
addresses and the settling delay; and `delayMayFail`, the model's own, for a point on which the spec's rules differ. They are
held by the state (`State.params`) and no command writes them. -/
structure Params where
  /-- `ADDR_MODE1` (R12). -/
  addrMode1 : Byte
  /-- `ADDR_PRESCALE` (R12). -/
  addrPrescale : Byte
  /-- `ADDR_LED0_ON_L` (R12). -/
  addrLed0OnL : Byte
  /-- `SETTLE_MS` (R11). -/
  settleMs : Nat
  /-- Whether the settling delay can fail: `true` is the reading of R20 and R57 (every external primitive may), `false` that of
  R107 ("The delay cannot fail"). DESIGN CHOICE: no ruling of the spec decides, so the model holds both (log entry 18). -/
  delayMayFail : Bool
  deriving DecidableEq, Repr

/-- What the spec requires of the parameters: `SETTLE_MS >= 500` (R11) and `ADDR_LED0_ON_L + 4*15 + 3 <= 0xFF` (R12). -/
def Params.wf (p : Params) : Bool :=
  decide (500 ≤ p.settleMs) && decide (p.addrLed0OnL.toNat + 4 * 15 + 3 ≤ 0xFF)

/-- The default parameter values: the addresses of R12, the least `SETTLE_MS` R11 admits, and R107's reading of the delay.
PRESUMED (general knowledge, 93_implementation_defined.md G2; log entry 4); `delayMayFail` DESIGN CHOICE (log entry 18). -/
def Params.default : Params :=
  { addrMode1 := 0x00#8, addrPrescale := 0xFE#8, addrLed0OnL := 0x06#8, settleMs := 500,
    delayMayFail := false }

/-- The default bus address: "default convention 0x40" (R13). -/
def defaultBusAddr : BitVec 7 := 0x40#7

/-- The output-enable pin number of the reset state. The spec gives none; 17 is the convention of 95_test_vectors.md.
DESIGN CHOICE (log entry 5). -/
def defaultOePin : Nat := 17

/-- Free value: whether the `n`-th collaborator interaction with no listed draw succeeds (R57). No law (log entry 3). -/
opaque freeOk : Nat → Bool

/-- Free value: the byte a bus read with no listed draw answers (R58). No law (log entry 3). -/
opaque freeByte : Nat → Byte

/-- Free value: the level a pin read with no listed draw answers (R58). No law (log entry 3). -/
opaque freeLevel : Nat → Bit

end Config
end Sys2Proof
end

