-- ==== Sys2Proof/Machine/State.lean ====
section
/-! DEFINITION. The state (10_state.md R25), the host's command port and the environment the block talks to (R38, R58), the
stop reasons, and the state after reset (70_reset_and_hazards.md R181). Plain data throughout. -/

namespace Sys2Proof
namespace Machine

/-- `S.phase` (R29). -/
inductive Phase where
  | ready
  | initFault
  deriving DecidableEq, Repr

/-- One interaction with a collaborator (R54). The answer of a read is an `Option`: `some` of the answer where the read
succeeded, `none` inside `fail`, since a failed read yields no value (R57; the `_` of 95_test_vectors.md; log entry 9). -/
inductive Event where
  /-- Opens the bus device at the given address. -/
  | initBus (dev : BitVec 7)
  /-- Configures the output-enable pin as a digital output. -/
  | initPin (pin : Nat)
  /-- BusRead and the oracle's answer. -/
  | rd (dev : BitVec 7) (reg : Byte) (val : Option Byte)
  /-- BusWrite. -/
  | wr (dev : BitVec 7) (reg val : Byte)
  /-- PinWrite. -/
  | pinW (pin : Nat) (level : Bit)
  /-- PinRead and the oracle's answer. -/
  | pinR (pin : Nat) (level : Option Bit)
  /-- Delay. -/
  | dly (ms : Nat)
  /-- `e` was attempted and failed in transport. -/
  | fail (e : Event)
  deriving DecidableEq, Repr

/-- A channel's last-programmed steps (R34); `none` until a SET_PWM has succeeded. -/
structure ChanRec where
  onStep : Option (BitVec 12)
  offStep : Option (BitVec 12)
  deriving DecidableEq, Repr

/-- What a servo has beyond a channel (R35). `angle` and `pw` are mathematical integers. -/
structure ServoRec where
  minPw : BitVec 16
  maxPw : BitVec 16
  maxAngle : BitVec 15
  ignore : Bool
  angle : Option Int
  pw : Option Int
  deriving DecidableEq, Repr

/-- One registry entry (R25, R33). -/
inductive Slot where
  | absent
  | chan (c : ChanRec)
  | servo (c : ChanRec) (sv : ServoRec)
  deriving DecidableEq, Repr

/-- Known contents of the chip's register space (R38, R50, R51), as register address and byte. Canonical form: addresses
strictly rising, all below 256. An unlisted register's byte is unknown, so no entry repeats what an unlisted one reads as. -/
abbrev Memory := List Host.Cell

/-- The canonical form of `Memory`. -/
def Memory.wf : Memory → Bool
  | [] => true
  | [c] => decide (c.1 < 256)
  | c :: d :: m => decide (c.1 < d.1) && Memory.wf (d :: m)

/-- The environment record `E` of R38: not block state, and no rule reads it but the reference oracle (R58). -/
structure Env where
  /-- `E.dev`: the bytes the chip is known to hold, from the acknowledged writes. -/
  dev : Memory
  /-- `E.pin`: the level last driven, where it is known. -/
  pin : Option Bit
  deriving DecidableEq, Repr

/-- One answer of the environment to one interaction (R57, R58): did the transport succeed, and the value a read answers. -/
structure Draw where
  ok : Bool
  byte : Byte
  level : Bit
  deriving DecidableEq, Repr

/-- Which oracle answers (R58): every answer a draw, or the reference oracle, which never fails and reads back what was
written. -/
inductive OracleMode where
  | draws
  | reference
  deriving DecidableEq, Repr

/-- The environment's answers (R57, R58): the draws to come, in order; after the last listed one, the free values of Config
at the counter `drawn`. The model's own, not the spec's (log entry 3). -/
structure Oracle where
  mode : OracleMode
  draws : List Draw
  drawn : Nat
  deriving DecidableEq, Repr

/-- The whole machine. The first seven fields are the block's state `S` of R25, in its order. -/
structure State where
  /-- `S.phase` (R29). -/
  phase : Phase
  /-- `S.bus_addr` (R30). -/
  busAddr : BitVec 7
  /-- `S.oe_pin` (R30). -/
  oePin : Nat
  /-- `S.freq`, in Hz (R31). -/
  freq : Option (BitVec 32)
  /-- `S.slot` (R33). -/
  slot : Vector Slot 16
  /-- `S.resp`, as (status, data) (R42). -/
  resp : Option (Byte × Byte)
  /-- `S.trace`, oldest event first (R43). -/
  trace : List Event
  /-- The implementation parameters (R11, R12), constant. -/
  params : Config.Params
  /-- The command port: the words the host has presented and the block has not accepted, oldest first (R4, R82). -/
  port : List CmdWord
  /-- The environment record `E` (R38). -/
  env : Env
  /-- The environment's answers (R58). -/
  oracle : Oracle
  deriving DecidableEq, Repr

/-- The error statuses a command can raise (R158). -/
inductive Err where
  | range | conflict | lookup | transport | unconfigured | illegal
  deriving DecidableEq, Repr

/-- A command, or a part of one, under way: it goes on with a value, or it has raised an error (R20). In both cases the
state writes and events made so far stand (R168). -/
inductive Res (α : Type) where
  | ok (a : α) (s : State)
  | raised (e : Err) (s : State)
  deriving DecidableEq, Repr

/-- Why the machine stops. -/
inductive Fault where
  /-- Construction failed: in `InitFault` the block has no step and the state is final (R166). Raised by `step` alone,
  for every command. The spec's own stop, so neither safe nor unsafe. -/
  | initFault
  deriving DecidableEq, Repr

/-- Why an instruction has no meaning. -/
inductive Refusal where
  /-- An instruction the model gives no meaning yet. No arm of `exec` answers it. Safe: the machine would stop. -/
  | notModelled (mnemonic : String)
  deriving DecidableEq, Repr

/-- The state after a successful construction with the default arguments (R180, R181). The environment knows nothing of the
chip or the pin (R183), no command has been presented, and no answer is listed. `Machine/Construct.lean` holds construction
for any arguments and any outcome. -/
def State.reset : State :=
  { phase := .ready
    busAddr := Config.defaultBusAddr
    oePin := Config.defaultOePin
    freq := none
    slot := Vector.replicate 16 .absent
    resp := none
    trace := [.initBus Config.defaultBusAddr, .initPin Config.defaultOePin]
    params := Config.Params.default
    port := []
    env := { dev := [], pin := none }
    oracle := { mode := .draws, draws := [], drawn := 0 } }

end Machine
end Sys2Proof
end

