-- ==== Sys2Proof/Machine/Flags.lean ====
section
/-! DEFINITION. The block has no flags and no condition codes (10_state.md R28): a command's only outcome is its response.
This file holds the status codes (60_exceptions.md R158) and the response word (30_encoding.md R81). -/

namespace Sys2Proof
namespace Machine

/-- The status OK (R158). -/
def statusOk : Byte := 0x00#8

/-- The status code of an error (R158). -/
def errCode : Err → Byte
  | .range => 0x01#8
  | .conflict => 0x02#8
  | .lookup => 0x03#8
  | .transport => 0x04#8
  | .unconfigured => 0x05#8
  | .illegal => 0x06#8

/-- `RESP = {STATUS[15:8], DATA[7:0]}` (R81). -/
def respWord (r : Byte × Byte) : BitVec 16 := r.1 ++ r.2

end Machine
end Sys2Proof
end

