-- ==== Sys2Proof/Machine/Ops.lean ====
section
/-! DEFINITION. The named operations every command is built from: the environment's record and answers, the primitives of
00_scope.md R20 with the events they append (20_memory.md R54 to R58), the registry, `raise` and `respond`. -/

namespace Sys2Proof
namespace Machine

/-! ### The chip's register space, as far as it is known (R38, R58) -/

/-- The byte a register is known to hold. -/
def Memory.read (m : Memory) (a : Nat) : Option Byte :=
  match m with
  | [] => none
  | (b, v) :: t => if a = b then some v else Memory.read t a

/-- Register `a` now holds `v`. Keeps the canonical form. -/
def Memory.write (m : Memory) (a : Nat) (v : Byte) : Memory :=
  match m with
  | [] => [(a, v)]
  | (b, w) :: t =>
    if a < b then (a, v) :: (b, w) :: t
    else if a = b then (a, v) :: t
    else (b, w) :: Memory.write t a v

/-- Register `a`'s byte is no longer known. Keeps the canonical form. -/
def Memory.forget (m : Memory) (a : Nat) : Memory :=
  match m with
  | [] => []
  | (b, w) :: t => if a = b then t else (b, w) :: Memory.forget t a

/-! ### The environment's answers (R57, R58) -/

/-- A draw as the oracle in force gives it: under the reference oracle no transport failure ever occurs (R58). -/
def drawUnder (m : OracleMode) (d : Draw) : Draw :=
  match m with
  | .draws => d
  | .reference => { d with ok := true }

/-- The next draw, and the answers left after it: the first listed one, else the free values at the counter (R57, R58; log
entry 3). -/
def nextDraw (o : Oracle) : Draw × Oracle :=
  match o.draws with
  | d :: ds => (drawUnder o.mode d, { o with draws := ds })
  | [] =>
    (drawUnder o.mode
      { ok := Config.freeOk o.drawn, byte := Config.freeByte o.drawn, level := Config.freeLevel o.drawn },
     { o with drawn := o.drawn + 1 })

/-- What a BusRead that succeeds answers (R58): the draw, or under the reference oracle the byte known, the draw where it is
unknown. -/
def busAnswer (o : Oracle) (e : Env) (reg : Byte) (d : Draw) : Byte :=
  match o.mode with
  | .draws => d.byte
  | .reference => (Memory.read e.dev reg.toNat).getD d.byte

/-- What a PinRead that succeeds answers (R58): the draw, or under the reference oracle the level last driven, the draw
where there is none. -/
def pinAnswer (o : Oracle) (e : Env) (d : Draw) : Bit :=
  match o.mode with
  | .draws => d.level
  | .reference => e.pin.getD d.level

/-! ### Single-field updates of the state -/

/-- Append one event to the trace (R43). -/
def State.log (s : State) (e : Event) : State := { s with trace := s.trace ++ [e] }

/-- The answers left. -/
def State.withOracle (s : State) (o : Oracle) : State := { s with oracle := o }

/-- What is known of the chip's registers. -/
def State.withDev (s : State) (m : Memory) : State := { s with env := { s.env with dev := m } }

/-- What is known of the pin's level. -/
def State.withPin (s : State) (l : Option Bit) : State := { s with env := { s.env with pin := l } }

/-- `S.freq <- Some f`. -/
def State.withFreq (s : State) (f : BitVec 32) : State := { s with freq := some f }

/-- `S.resp <- (status, data)` (R42). -/
def State.withResp (s : State) (status data : Byte) : State := { s with resp := some (status, data) }

/-- The words the host has presented. -/
def State.withPort (s : State) (ws : List CmdWord) : State := { s with port := ws }

/-- `S.slot[i]`. -/
def State.getSlot (s : State) (i : Fin 16) : Slot := s.slot[i]

/-- `S.slot[i] <- v`. -/
def State.setSlot (s : State) (i : Fin 16) (v : Slot) : State := { s with slot := s.slot.set i v }

/-! ### Sequencing, respond and raise (R20, R168) -/

/-- Go on with `k` unless an error has been raised. -/
def Res.andThen {α β : Type} (r : Res α) (k : α → State → Res β) : Res β :=
  match r with
  | .ok a s => k a s
  | .raised e s => .raised e s

/-- The command's end, its one write of `S.resp` (R42, R97): `respond(OK, data)`, or `raise E`, which writes
`(code(E), 0x00)` (R158) and leaves every state write and event made before it (R20, R168). This is the whole of an error:
nothing is saved, no mode changes and control goes nowhere (R168), so there is no return from one (R170). -/
def finish (r : Res Byte) : State :=
  match r with
  | .ok data s => s.withResp statusOk data
  | .raised e s => s.withResp (errCode e) 0x00#8

/-! ### The external primitives (R20): one draw, one event each; for the delay see `delay` -/

/-- `BusRead(reg)` (R20, R57, R58). -/
def busRead (reg : Byte) (s : State) : Res Byte :=
  let d := nextDraw s.oracle
  let v := busAnswer s.oracle s.env reg d.1
  if d.1.ok then .ok v ((s.withOracle d.2).log (.rd s.busAddr reg (some v)))
  else .raised .transport ((s.withOracle d.2).log (.fail (.rd s.busAddr reg none)))

/-- `BusWrite(reg, b)` (R20, R57). After a failed write the register's byte is unknown (R57). -/
def busWrite (reg b : Byte) (s : State) : Res Unit :=
  let d := nextDraw s.oracle
  if d.1.ok then
    .ok () (((s.withOracle d.2).withDev (Memory.write s.env.dev reg.toNat b)).log (.wr s.busAddr reg b))
  else
    .raised .transport
      (((s.withOracle d.2).withDev (Memory.forget s.env.dev reg.toNat)).log (.fail (.wr s.busAddr reg b)))

/-- `PinWrite(level)` (R20, R57). After a failed write the level is unknown (log entry 7). -/
def pinWrite (level : Bit) (s : State) : Res Unit :=
  let d := nextDraw s.oracle
  if d.1.ok then .ok () (((s.withOracle d.2).withPin (some level)).log (.pinW s.oePin level))
  else .raised .transport (((s.withOracle d.2).withPin none).log (.fail (.pinW s.oePin level)))

/-- `PinRead()` (R20, R57, R58). -/
def pinRead (s : State) : Res Bit :=
  let d := nextDraw s.oracle
  let l := pinAnswer s.oracle s.env d.1
  if d.1.ok then .ok l ((s.withOracle d.2).log (.pinR s.oePin (some l)))
  else .raised .transport ((s.withOracle d.2).log (.fail (.pinR s.oePin none)))

/-- `Delay(SETTLE_MS)` (R20, R56). Where `delayMayFail` holds it takes a draw and may fail, as every external primitive does
(R20, R57); where it does not, it takes none and cannot fail (R107; log entry 18). -/
def delay (s : State) : Res Unit :=
  let e := Event.dly s.params.settleMs
  if s.params.delayMayFail then
    let d := nextDraw s.oracle
    if d.1.ok then .ok () ((s.withOracle d.2).log e)
    else .raised .transport ((s.withOracle d.2).log (.fail e))
  else .ok () (s.log e)

/-- Several BusWrites in order; the first that fails ends the command (R57, R62). -/
def busWrites (ws : List (Byte × Byte)) (s : State) : Res Unit :=
  match ws with
  | [] => .ok () s
  | (reg, b) :: rest => (busWrite reg b s).andThen fun _ s => busWrites rest s

/-! ### The registry (R33 to R35, R98, R99, R137, R141) -/

/-- A new channel record: nothing programmed yet (R34). -/
def freshChan : ChanRec := { onStep := none, offStep := none }

/-- `check_index(ch)`: the slot index, or RANGE (R98). -/
def checkIndex (ch : Byte) (s : State) : Res (Fin 16) :=
  if h : ch.toNat ≤ 15 then .ok ⟨ch.toNat, Nat.lt_succ_of_le h⟩ s else .raised .range s

/-- `lookup(ch)`: the slot index and the registered slot, or RANGE, or LOOKUP (R99). -/
def lookup (ch : Byte) (s : State) : Res (Fin 16 × Slot) :=
  (checkIndex ch s).andThen fun i s =>
    match s.getSlot i with
    | .absent => .raised .lookup s
    | .chan c => .ok (i, .chan c) s
    | .servo c sv => .ok (i, .servo c sv) s

/-- `servo_lookup(ch)`: the slot index and the servo record, or as `lookup`, or LOOKUP on a plain channel (R137). -/
def servoLookup (ch : Byte) (s : State) : Res (Fin 16 × ServoRec) :=
  (lookup ch s).andThen fun p s =>
    match p.2 with
    | .absent => .raised .lookup s
    | .chan _ => .raised .lookup s
    | .servo _ sv => .ok (p.1, sv) s

/-- A free slot for a registration: the index check, then CONFLICT unless the slot is Absent (R111, R139). -/
def requireFree (ch : Byte) (s : State) : Res (Fin 16) :=
  (checkIndex ch s).andThen fun i s =>
    match s.getSlot i with
    | .absent => .ok i s
    | .chan _ => .raised .conflict s
    | .servo _ _ => .raised .conflict s

/-- `require_freq()`: the active frequency, or UNCONFIGURED (R141). -/
def requireFreq (s : State) : Res (BitVec 32) :=
  match s.freq with
  | none => .raised .unconfigured s
  | some f => .ok f s

/-- A registered slot with these steps stored; both slot kinds have them (R34, R126). -/
def slotWithSteps (v : Slot) (on off : BitVec 12) : Slot :=
  match v with
  | .absent => .absent
  | .chan _ => .chan { onStep := some on, offStep := some off }
  | .servo _ sv => .servo { onStep := some on, offStep := some off } sv

/-- A servo slot with this angle stored (R35). -/
def slotWithAngle (v : Slot) (a : Int) : Slot :=
  match v with
  | .absent => .absent
  | .chan c => .chan c
  | .servo c sv => .servo c { sv with angle := some a }

/-- A servo slot with this pulse width stored (R35). -/
def slotWithPw (v : Slot) (pw : Int) : Slot :=
  match v with
  | .absent => .absent
  | .chan c => .chan c
  | .servo c sv => .servo c { sv with pw := some pw }

/-- `S.slot[i].c.on_step <- Some on; S.slot[i].c.off_step <- Some off` (R127). -/
def State.storeSteps (s : State) (i : Fin 16) (on off : BitVec 12) : State :=
  s.setSlot i (slotWithSteps (s.getSlot i) on off)

/-- `S.slot[i].s.angle <- Some a` (R144). -/
def State.storeAngle (s : State) (i : Fin 16) (a : Int) : State :=
  s.setSlot i (slotWithAngle (s.getSlot i) a)

/-- `S.slot[i].s.pw <- Some pw` (R147). -/
def State.storePw (s : State) (i : Fin 16) (pw : Int) : State :=
  s.setSlot i (slotWithPw (s.getSlot i) pw)

end Machine
end Sys2Proof
end

