-- ==== Sys2Proof/Machine/Operands.lean ====
section
/-! DEFINITION. The block's arithmetic and byte formats: rounding and clamping (00_scope.md R18), the prescale function
(40_controller.md R105), the servo formulas (42_servo.md R143 to R148), register addresses (20_memory.md R60), MODE1 bytes
(30_encoding.md R84) and the LED mode encoder (R86 to R90). All arithmetic is exact (R17). -/

namespace Sys2Proof
namespace Machine

/-! ### Rounding and clamping (R17, R18) -/

/-- `round(q)` on the rationals, a tie away from zero (R18). -/
def roundRat (q : Rat) : Int :=
  if 0 ≤ q then (q + 1 / 2).floor else -((-q + 1 / 2).floor)

/-- `round(n / d)` for `d > 0` in integers: `round(q) = floor(q + 1/2)` for `q >= 0`, `-floor(-q + 1/2)` below (R18, and
the integer form of R105). `/` on `Int` with a positive divisor is the floor. -/
def roundDiv (n d : Int) : Int :=
  if 0 ≤ n then (2 * n + d) / (2 * d) else -((2 * (-n) + d) / (2 * d))

/-- `clamp(v, lo, hi)` (R18). -/
def clamp (v lo hi : Int) : Int :=
  if v < lo then lo else if hi < v then hi else v

/-! ### The prescaler calculator (R105) and the MODE1 bytes (R84, R107) -/

/-- `presc(f) = round(25_000_000 / (4096 * f)) - 1`, for `f >= 1` (R105). SET_FREQ refuses `f = 0` before it asks (R104). -/
def presc (f : Int) : Int := roundDiv Config.oscHz (Config.stepsPerPeriod * f) - 1

/-- The byte of step 2: `(old & 0x7F) | 0x10` (R107). -/
def sleepByte (old : Byte) : Byte := (old &&& Config.mode1KeepMask) ||| Config.mode1Sleep

/-- The byte of step 5: `old | 0x80` (R107). -/
def restartByte (old : Byte) : Byte := old ||| Config.mode1Restart

/-! ### The step encoder (R143, R145, R147, R148) -/

/-- The effective angle (R143). -/
def effAngle (sv : ServoRec) (v : Int) : Int :=
  if sv.ignore then v else clamp v 0 sv.maxAngle.toNat

/-- `pw_req = min_pw + floor(a * (max_pw - min_pw) / max_angle)` (R145); `max_angle >= 1` on every registered servo. -/
def pwReq (sv : ServoRec) (a : Int) : Int :=
  sv.minPw.toNat + a * ((sv.maxPw.toNat : Int) - sv.minPw.toNat) / sv.maxAngle.toNat

/-- The effective pulse width (R148). -/
def effPw (sv : ServoRec) (v : Int) : Int :=
  if sv.ignore then v else clamp v sv.minPw.toNat sv.maxPw.toNat

/-- `steps = round(pw / step_len_us) = round(pw * f * 4096 / 1_000_000)` (R147). -/
def stepsOf (pw f : Int) : Int := roundDiv (pw * f * Config.stepsPerPeriod) Config.usPerS

/-! ### Register addresses and the LED mode encoder (R52, R60, R86 to R90) -/

/-- `chan_reg(i, k) = ADDR_LED0_ON_L + 4*i + k` (R60). It never wraps where the parameters meet R12. -/
def chanReg (p : Config.Params) (i : Fin 16) (k : Nat) : Byte :=
  BitVec.ofNat 8 (p.addrLed0OnL.toNat + 4 * i.val + k)

/-- `v & 0xFF` (R86). -/
def lowByte (v : Nat) : Byte := BitVec.ofNat 8 (v &&& 0xFF)

/-- `v >> 8` (R87, R88). -/
def highByte (v : Nat) : Byte := BitVec.ofNat 8 (v >>> 8)

/-- `enc_pwm(on, off)`, as register offset and byte in write order (R90). -/
def encPwm (on off : Nat) : List (Nat × Byte) :=
  [(0, lowByte on), (1, highByte on), (2, lowByte off), (3, highByte off)]

/-- `enc_full_on` (R90). -/
def encFullOn : List (Nat × Byte) := [(1, Config.fullBit), (3, 0x00#8)]

/-- `enc_full_off` (R90). -/
def encFullOff : List (Nat × Byte) := [(1, 0x00#8), (3, Config.fullBit)]

/-- The bus writes an encoding stands for on channel `i` (R90). -/
def chanWrites (p : Config.Params) (i : Fin 16) (enc : List (Nat × Byte)) : List (Byte × Byte) :=
  enc.map fun kb => (chanReg p i kb.1, kb.2)

/-- The 13-bit field `(H[4:0], L[7:0])` of an on/off register pair (R89). -/
def field13 (h l : Byte) : BitVec 13 := h.extractLsb' 0 5 ++ l

/-- The force-override flag of a pair: bit 12 of its 13-bit field (R89). -/
def overrideFlag (h l : Byte) : Bool := (field13 h l).getLsbD 12

/-- The 12-bit counter of a pair: bits 11..0 of its 13-bit field (R89). -/
def counter12 (h l : Byte) : BitVec 12 := (field13 h l).extractLsb' 0 12

/-! ### The two shared subroutines (R127, R147) -/

/-- `set_pwm_core(ch, on, off)` (R127): the range check, the four writes, then the stored steps. -/
def setPwmCore (i : Fin 16) (on off : Int) (s : State) : Res Unit :=
  if on < 0 ∨ Config.stepMax < on ∨ off < 0 ∨ Config.stepMax < off then .raised .range s
  else
    (busWrites (chanWrites s.params i (encPwm on.toNat off.toNat)) s).andThen fun _ s =>
      .ok () (s.storeSteps i (BitVec.ofInt 12 on) (BitVec.ofInt 12 off))

/-- `set_pw_core(ch, srv, pw_req)` at the active frequency `f` (R147): store the effective pulse width, then program the
steps with the on edge parked at 0. -/
def setPwCore (i : Fin 16) (sv : ServoRec) (f : BitVec 32) (req : Int) (s : State) : Res Unit :=
  setPwmCore i 0 (stepsOf (effPw sv req) f.toNat) (s.storePw i (effPw sv req))

end Machine
end Sys2Proof
end

