-- ==== Sys2Proof/Machine/Channel.lean ====
section
/-! DEFINITION. The channel commands (41_channel.md): the on/off register programmer. -/

namespace Sys2Proof
namespace Machine

/-- SET_PWM ch, on, off (R126 to R131). -/
def execSetPwm (ch : Byte) (on off : BitVec 16) (s : State) : Host.Outcome State Fault Refusal :=
  .next <| finish <|
    (lookup ch s).andThen fun p s =>
    (setPwmCore p.1 on.toNat off.toNat s).andThen fun _ s =>
    .ok 0x00#8 s

/-- SET_FULL_ON ch: ON_H = 0x10, then OFF_H = 0x00; the stored steps stay (R126, R132, R134). -/
def execSetFullOn (ch : Byte) (s : State) : Host.Outcome State Fault Refusal :=
  .next <| finish <|
    (lookup ch s).andThen fun p s =>
    (busWrites (chanWrites s.params p.1 encFullOn) s).andThen fun _ s =>
    .ok 0x00#8 s

/-- SET_FULL_OFF ch: ON_H = 0x00, then OFF_H = 0x10; the stored steps stay (R126, R133, R134). -/
def execSetFullOff (ch : Byte) (s : State) : Host.Outcome State Fault Refusal :=
  .next <| finish <|
    (lookup ch s).andThen fun p s =>
    (busWrites (chanWrites s.params p.1 encFullOff) s).andThen fun _ s =>
    .ok 0x00#8 s

end Machine
end Sys2Proof
end

