-- ==== Sys2Proof/Machine/Controller.lean ====
section
/-! DEFINITION. The controller commands (40_controller.md): output enable, SET_FREQ, the channel registry, raw registers. -/

namespace Sys2Proof
namespace Machine

/-- OE_GET: data 0x01 iff the pin reads low (R100, R101). -/
def execOeGet (s : State) : Host.Outcome State Fault Refusal :=
  .next <| finish <| (pinRead s).andThen fun level s =>
    .ok (if level = 0#1 then 0x01#8 else 0x00#8) s

/-- OE_SET v: 1 drives the pin low, 0 drives it high (R100, R102). -/
def execOeSet (v : Bit) (s : State) : Host.Outcome State Fault Refusal :=
  .next <| finish <| (pinWrite (if v = 1#1 then 0#1 else 1#1) s).andThen fun _ s => .ok 0x00#8 s

/-- Steps 1 to 5 of SET_FREQ with the prescale byte `p` (R107): read MODE1, write it with sleep set, write PRESCALE, wait, and
write MODE1 as read with restart set. -/
def setFreqSequence (p : Byte) (s : State) : Res Unit :=
  (busRead s.params.addrMode1 s).andThen fun old s =>
  (busWrite s.params.addrMode1 (sleepByte old) s).andThen fun _ s =>
  (busWrite s.params.addrPrescale p s).andThen fun _ s =>
  (delay s).andThen fun _ s =>
  busWrite s.params.addrMode1 (restartByte old) s

/-- SET_FREQ f: the range checks (R104, R106), the sequence (R107), then the active frequency, only if every step went well
(R108). -/
def execSetFreq (f : BitVec 32) (s : State) : Host.Outcome State Fault Refusal :=
  .next <| finish <|
    if f = 0#32 then .raised .range s
    else if presc f.toNat < Config.prescaleMin ∨ Config.prescaleMax < presc f.toNat then .raised .range s
    else
      (setFreqSequence (BitVec.ofInt 8 (presc f.toNat)) s).andThen fun _ s =>
      .ok 0x00#8 (s.withFreq f)

/-- REG_CH ch: a fresh channel record in a free slot (R111, R112). -/
def execRegCh (ch : Byte) (s : State) : Host.Outcome State Fault Refusal :=
  .next <| finish <| (requireFree ch s).andThen fun i s => .ok 0x00#8 (s.setSlot i (.chan freshChan))

/-- LOOKUP_CH ch: data 0x00 for a plain channel, 0x01 for a servo (R114). -/
def execLookupCh (ch : Byte) (s : State) : Host.Outcome State Fault Refusal :=
  .next <| finish <| (lookup ch s).andThen fun p s =>
    match p.2 with
    | .absent => .ok 0x00#8 s
    | .chan _ => .ok 0x00#8 s
    | .servo _ _ => .ok 0x01#8 s

/-- DROP_CH ch: the slot becomes Absent, no bus event (R116, R117). -/
def execDropCh (ch : Byte) (s : State) : Host.Outcome State Fault Refusal :=
  .next <| finish <| (checkIndex ch s).andThen fun i s => .ok 0x00#8 (s.setSlot i .absent)

/-- READ_REG addr: one bus read, its byte the response's data (R119 to R122). -/
def execReadReg (addr : Byte) (s : State) : Host.Outcome State Fault Refusal :=
  .next <| finish <| (busRead addr s).andThen fun b s => .ok b s

/-- WRITE_REG addr, data: one bus write (R119, R120, R123, R124). -/
def execWriteReg (addr data : Byte) (s : State) : Host.Outcome State Fault Refusal :=
  .next <| finish <| (busWrite addr data s).andThen fun _ s => .ok 0x00#8 s

end Machine
end Sys2Proof
end

