-- ==== Sys2Proof/Machine/Servo.lean ====
section
/-! DEFINITION. The servo commands (42_servo.md): servo creation and the angle-to-µs-to-step encoder. -/

namespace Sys2Proof
namespace Machine

/-- REG_SERVO ch, min_pw, max_pw, max_angle, ign: index, then occupancy, then bounds (R138 to R140). -/
def execRegServo (ch : Byte) (minPw maxPw : BitVec 16) (maxAngle : BitVec 15) (ign : Bit) (s : State) :
    Host.Outcome State Fault Refusal :=
  .next <| finish <|
    (requireFree ch s).andThen fun i s =>
    if maxAngle = 0#15 ∨ maxPw.toNat < minPw.toNat then .raised .range s
    else
      .ok 0x00#8 (s.setSlot i (.servo freshChan
        { minPw := minPw, maxPw := maxPw, maxAngle := maxAngle, ignore := decide (ign = 1#1),
          angle := none, pw := none }))

/-- SET_ANGLE ch, angle: store the effective angle, then its pulse width through the setter (R142 to R146, R150). -/
def execSetAngle (ch : Byte) (v : Int) (s : State) : Host.Outcome State Fault Refusal :=
  .next <| finish <|
    (servoLookup ch s).andThen fun p s =>
    (requireFreq s).andThen fun f s =>
    (setPwCore p.1 p.2 f (pwReq p.2 (effAngle p.2 v)) (s.storeAngle p.1 (effAngle p.2 v))).andThen fun _ s =>
    .ok 0x00#8 s

/-- SET_PW ch, pw: the pulse width setter (R147 to R150). -/
def execSetPw (ch : Byte) (v : Int) (s : State) : Host.Outcome State Fault Refusal :=
  .next <| finish <|
    (servoLookup ch s).andThen fun p s =>
    (requireFreq s).andThen fun f s =>
    (setPwCore p.1 p.2 f v s).andThen fun _ s =>
    .ok 0x00#8 s

end Machine
end Sys2Proof
end

