-- ==== Sys2Proof/Syntax.lean ====
section
/-! DEFINITION. The commands of the block: one constructor per row of spec/opcode_table.json (30_encoding.md R78), the
operation codes, the formats, and the assembler's lines (R83, R92 to R96). -/

namespace Sys2Proof

/-- A decoded command with the operands of R77. A field read as an unsigned number keeps its exact width as a bit vector;
`VAL` is decoded once to the signed integer it stands for. -/
inductive Instr where
  /-- OE_GET (R101). -/
  | oeGet
  /-- OE_SET v (R102). -/
  | oeSet (v : Bit)
  /-- SET_FREQ f, in Hz (R103, R107). -/
  | setFreq (f : BitVec 32)
  /-- REG_CH ch (R111). -/
  | regCh (ch : Byte)
  /-- LOOKUP_CH ch (R114). -/
  | lookupCh (ch : Byte)
  /-- DROP_CH ch (R116). -/
  | dropCh (ch : Byte)
  /-- READ_REG addr (R121). -/
  | readReg (addr : Byte)
  /-- WRITE_REG addr, data (R123). -/
  | writeReg (addr data : Byte)
  /-- SET_PWM ch, on, off (R128). -/
  | setPwm (ch : Byte) (on off : BitVec 16)
  /-- SET_FULL_ON ch (R132). -/
  | setFullOn (ch : Byte)
  /-- SET_FULL_OFF ch (R133). -/
  | setFullOff (ch : Byte)
  /-- REG_SERVO ch, min_pw, max_pw, max_angle, ign (R139). -/
  | regServo (ch : Byte) (minPw maxPw : BitVec 16) (maxAngle : BitVec 15) (ign : Bit)
  /-- SET_ANGLE ch, angle, in whole degrees (R142, R146). -/
  | setAngle (ch : Byte) (angle : Int)
  /-- SET_PW ch, pw, in whole µs (R149). -/
  | setPw (ch : Byte) (pw : Int)
  deriving DecidableEq, Repr

/-- The fourteen operations of R78. -/
inductive Op where
  | oeGet | oeSet | setFreq | regCh | lookupCh | dropCh | readReg | writeReg
  | setPwm | setFullOn | setFullOff | regServo | setAngle | setPw
  deriving DecidableEq, Repr

/-- The nine formats of R69 to R76. -/
inductive Format where
  | N | O | F | C | RA | RW | P | V | S
  deriving DecidableEq, Repr

/-- One row of the opcode table: an operation with the `mask` and `match` of spec/opcode_table.json (R68). -/
structure TableRow where
  op : Op
  mask : CmdWord
  value : CmdWord
  deriving DecidableEq, Repr

/-- Why a word does not decode (R79): (a) an OP value not in the table; (b) a listed OP with a non-zero reserved bit. -/
inductive DecodeError where
  /-- R79 (a). -/
  | unknownOp (code : Byte)
  /-- R79 (b). -/
  | reservedBits (op : Op)
  deriving DecidableEq, Repr

/-- The mnemonics the assembler knows: the fourteen commands of R78 and the pseudo-instructions of R93 to R95. -/
inductive Mnemonic where
  | cmd (op : Op)
  | quiesceDrop | regServoDefault | setFull | oeEnable | oeDisable
  deriving DecidableEq, Repr

/-- One assembler line (R83): the mnemonic and its operands, before the assembler has checked their ranges. -/
structure AsmLine where
  mnemonic : Mnemonic
  operands : List Int
  deriving DecidableEq, Repr

end Sys2Proof
end

