-- ==== Sys2Proof/Machine/Dispatch.lean ====
section
/-! DEFINITION. One arm per command (40_controller.md R97): the rule of the decoded operation, run with its fields. -/

namespace Sys2Proof
namespace Machine

def exec (i : Instr) (s : State) : Host.Outcome State Fault Refusal :=
  match i with
  | .oeGet => Sys2Proof.Machine.execOeGet s
  | .oeSet v => Sys2Proof.Machine.execOeSet v s
  | .setFreq f => Sys2Proof.Machine.execSetFreq f s
  | .regCh ch => Sys2Proof.Machine.execRegCh ch s
  | .lookupCh ch => Sys2Proof.Machine.execLookupCh ch s
  | .dropCh ch => Sys2Proof.Machine.execDropCh ch s
  | .readReg addr => Sys2Proof.Machine.execReadReg addr s
  | .writeReg addr data => Sys2Proof.Machine.execWriteReg addr data s
  | .setPwm ch on off => Sys2Proof.Machine.execSetPwm ch on off s
  | .setFullOn ch => Sys2Proof.Machine.execSetFullOn ch s
  | .setFullOff ch => Sys2Proof.Machine.execSetFullOff ch s
  | .regServo ch minPw maxPw maxAngle ign => Sys2Proof.Machine.execRegServo ch minPw maxPw maxAngle ign s
  | .setAngle ch v => Sys2Proof.Machine.execSetAngle ch v s
  | .setPw ch v => Sys2Proof.Machine.execSetPw ch v s

end Machine
end Sys2Proof
end

