-- ==== Sys2Proof/WellFormed.lean ====
section
/-! DEFINITION. When a command is well formed: every operand lies in the field that carries it (30_encoding.md R77, R83).
Every operand but `VAL` is a bit vector of its field's exact width, so `VAL` is the one operand to check. -/

namespace Sys2Proof

/-- `v` is an `s32` value, `-2^31 <= v <= 2^31 - 1` (R16, R75, R77). -/
def inS32 (v : Int) : Bool :=
  decide (-2147483648 ≤ v) && decide (v ≤ 2147483647)

/-- Every operand fits its field (R77, R83). -/
def Instr.wellFormed : Instr → Bool
  | .oeGet => true
  | .oeSet _ => true
  | .setFreq _ => true
  | .regCh _ => true
  | .lookupCh _ => true
  | .dropCh _ => true
  | .readReg _ => true
  | .writeReg _ _ => true
  | .setPwm _ _ _ => true
  | .setFullOn _ => true
  | .setFullOff _ => true
  | .regServo _ _ _ _ _ => true
  | .setAngle _ v => inS32 v
  | .setPw _ v => inS32 v

end Sys2Proof
end

