-- ==== Sys2Proof/Decode.lean ====
section
/-! DEFINITION. Decoding a command word, total on all 2^64 words and rejecting by name (30_encoding.md R67 to R80), then the
encoder written from the same tables, and the opcode table itself as mask and match rows (R68). -/

namespace Sys2Proof

/-- The OP value of each operation (R78). -/
def Op.code : Op → Byte
  | .oeGet => 0x01#8
  | .oeSet => 0x02#8
  | .setFreq => 0x03#8
  | .regCh => 0x04#8
  | .lookupCh => 0x05#8
  | .dropCh => 0x06#8
  | .readReg => 0x07#8
  | .writeReg => 0x08#8
  | .setPwm => 0x10#8
  | .setFullOn => 0x11#8
  | .setFullOff => 0x12#8
  | .regServo => 0x20#8
  | .setAngle => 0x21#8
  | .setPw => 0x22#8

/-- The format of each operation (R78). -/
def Op.format : Op → Format
  | .oeGet => .N
  | .oeSet => .O
  | .setFreq => .F
  | .regCh => .C
  | .lookupCh => .C
  | .dropCh => .C
  | .readReg => .RA
  | .writeReg => .RW
  | .setPwm => .P
  | .setFullOn => .C
  | .setFullOff => .C
  | .regServo => .S
  | .setAngle => .V
  | .setPw => .V

/-- The operation an OP value names; none of the values outside R78 (R79 (a)). -/
def opOfCode (c : Byte) : Option Op :=
  if c = 0x01#8 then some .oeGet
  else if c = 0x02#8 then some .oeSet
  else if c = 0x03#8 then some .setFreq
  else if c = 0x04#8 then some .regCh
  else if c = 0x05#8 then some .lookupCh
  else if c = 0x06#8 then some .dropCh
  else if c = 0x07#8 then some .readReg
  else if c = 0x08#8 then some .writeReg
  else if c = 0x10#8 then some .setPwm
  else if c = 0x11#8 then some .setFullOn
  else if c = 0x12#8 then some .setFullOff
  else if c = 0x20#8 then some .regServo
  else if c = 0x21#8 then some .setAngle
  else if c = 0x22#8 then some .setPw
  else none

/-- The reserved bits of a format: every bit that the format does not name as a field (R67, R69 to R76). -/
def Format.reserved : Format → CmdWord
  | .N => 0x00FFFFFFFFFFFFFF#64
  | .O => 0x00FFFFFFFFFFFFFE#64
  | .F => 0x00FFFFFF00000000#64
  | .C => 0x0000FFFFFFFFFFFF#64
  | .RA => 0x00FFFFFFFFFF00FF#64
  | .RW => 0x00FFFFFFFFFF0000#64
  | .P => 0x0000FFFF00000000#64
  | .V => 0x0000FFFF00000000#64
  | .S => 0x0000000000000000#64

/-- `OP = W[63:56]` (R67). -/
def fieldOp (w : CmdWord) : Byte := w.extractLsb' 56 8
/-- `CH = W[55:48]` (R67). -/
def fieldCh (w : CmdWord) : Byte := w.extractLsb' 48 8
/-- `V = W[0]` (R70). -/
def fieldV (w : CmdWord) : Bit := w.extractLsb' 0 1
/-- `FREQ = W[31:0]` (R71). -/
def fieldFreq (w : CmdWord) : BitVec 32 := w.extractLsb' 0 32
/-- `ADDR = W[15:8]` (R73). -/
def fieldAddr (w : CmdWord) : Byte := w.extractLsb' 8 8
/-- `DATA = W[7:0]` (R73). -/
def fieldData (w : CmdWord) : Byte := w.extractLsb' 0 8
/-- `ON = W[31:16]` (R74) and `MINPW = W[31:16]` (R76). -/
def fieldHi16 (w : CmdWord) : BitVec 16 := w.extractLsb' 16 16
/-- `OFF = W[15:0]` (R74) and `MAXPW = W[15:0]` (R76). -/
def fieldLo16 (w : CmdWord) : BitVec 16 := w.extractLsb' 0 16
/-- `VAL = W[31:0]` read as a two's-complement `s32`: `to_int_s32` of R16 (R75, R77). -/
def fieldVal (w : CmdWord) : Int := (w.extractLsb' 0 32).toInt
/-- `IGN = W[47]` (R76). -/
def fieldIgn (w : CmdWord) : Bit := w.extractLsb' 47 1
/-- `MAXANG = W[46:32]` (R76). -/
def fieldMaxAng (w : CmdWord) : BitVec 15 := w.extractLsb' 32 15

/-- The operands of a command (R69 to R77). -/
def fields (op : Op) (w : CmdWord) : Instr :=
  match op with
  | .oeGet => .oeGet
  | .oeSet => .oeSet (fieldV w)
  | .setFreq => .setFreq (fieldFreq w)
  | .regCh => .regCh (fieldCh w)
  | .lookupCh => .lookupCh (fieldCh w)
  | .dropCh => .dropCh (fieldCh w)
  | .readReg => .readReg (fieldAddr w)
  | .writeReg => .writeReg (fieldAddr w) (fieldData w)
  | .setPwm => .setPwm (fieldCh w) (fieldHi16 w) (fieldLo16 w)
  | .setFullOn => .setFullOn (fieldCh w)
  | .setFullOff => .setFullOff (fieldCh w)
  | .regServo => .regServo (fieldCh w) (fieldHi16 w) (fieldLo16 w) (fieldMaxAng w) (fieldIgn w)
  | .setAngle => .setAngle (fieldCh w) (fieldVal w)
  | .setPw => .setPw (fieldCh w) (fieldVal w)

/-- `decode(W)` of R68. A rejected word is ILLEGAL (R79), and the answer says why. -/
def decode (w : CmdWord) : Except DecodeError Instr :=
  match opOfCode (fieldOp w) with
  | none => .error (.unknownOp (fieldOp w))
  | some op => if w &&& op.format.reserved = 0#64 then .ok (fields op w) else .error (.reservedBits op)

/-- The operation of a command (R78). -/
def Instr.op : Instr → Op
  | .oeGet => .oeGet
  | .oeSet _ => .oeSet
  | .setFreq _ => .setFreq
  | .regCh _ => .regCh
  | .lookupCh _ => .lookupCh
  | .dropCh _ => .dropCh
  | .readReg _ => .readReg
  | .writeReg _ _ => .writeReg
  | .setPwm _ _ _ => .setPwm
  | .setFullOn _ => .setFullOn
  | .setFullOff _ => .setFullOff
  | .regServo _ _ _ _ _ => .regServo
  | .setAngle _ _ => .setAngle
  | .setPw _ _ => .setPw

/-- The word of a well-formed command: OP, then the fields of its format from the most significant bit down, zeros in the
reserved places (R69 to R77). -/
def encode : Instr → CmdWord
  | .oeGet => Op.code .oeGet ++ 0#56
  | .oeSet v => Op.code .oeSet ++ 0#55 ++ v
  | .setFreq f => Op.code .setFreq ++ 0#24 ++ f
  | .regCh ch => Op.code .regCh ++ ch ++ 0#48
  | .lookupCh ch => Op.code .lookupCh ++ ch ++ 0#48
  | .dropCh ch => Op.code .dropCh ++ ch ++ 0#48
  | .readReg addr => Op.code .readReg ++ 0#40 ++ addr ++ 0#8
  | .writeReg addr data => Op.code .writeReg ++ 0#40 ++ addr ++ data
  | .setPwm ch on off => Op.code .setPwm ++ ch ++ 0#16 ++ on ++ off
  | .setFullOn ch => Op.code .setFullOn ++ ch ++ 0#48
  | .setFullOff ch => Op.code .setFullOff ++ ch ++ 0#48
  | .regServo ch minPw maxPw maxAngle ign => Op.code .regServo ++ ch ++ ign ++ maxAngle ++ minPw ++ maxPw
  | .setAngle ch v => Op.code .setAngle ++ ch ++ 0#16 ++ BitVec.ofInt 32 v
  | .setPw ch v => Op.code .setPw ++ ch ++ 0#16 ++ BitVec.ofInt 32 v

/-- The opcode table, each row with the mask and match of spec/opcode_table.json as printed there (R68, R78). -/
def opcodeTable : List TableRow :=
  [ ⟨.oeGet, 0xFFFFFFFFFFFFFFFF#64, 0x0100000000000000#64⟩,
    ⟨.oeSet, 0xFFFFFFFFFFFFFFFE#64, 0x0200000000000000#64⟩,
    ⟨.setFreq, 0xFFFFFFFF00000000#64, 0x0300000000000000#64⟩,
    ⟨.regCh, 0xFF00FFFFFFFFFFFF#64, 0x0400000000000000#64⟩,
    ⟨.lookupCh, 0xFF00FFFFFFFFFFFF#64, 0x0500000000000000#64⟩,
    ⟨.dropCh, 0xFF00FFFFFFFFFFFF#64, 0x0600000000000000#64⟩,
    ⟨.readReg, 0xFFFFFFFFFFFF00FF#64, 0x0700000000000000#64⟩,
    ⟨.writeReg, 0xFFFFFFFFFFFF0000#64, 0x0800000000000000#64⟩,
    ⟨.setPwm, 0xFF00FFFF00000000#64, 0x1000000000000000#64⟩,
    ⟨.setFullOn, 0xFF00FFFFFFFFFFFF#64, 0x1100000000000000#64⟩,
    ⟨.setFullOff, 0xFF00FFFFFFFFFFFF#64, 0x1200000000000000#64⟩,
    ⟨.regServo, 0xFF00000000000000#64, 0x2000000000000000#64⟩,
    ⟨.setAngle, 0xFF00FFFF00000000#64, 0x2100000000000000#64⟩,
    ⟨.setPw, 0xFF00FFFF00000000#64, 0x2200000000000000#64⟩ ]

/-- `W & mask == match` (R68). -/
def TableRow.matchesWord (r : TableRow) (w : CmdWord) : Bool := w &&& r.mask == r.value

/-- The instruction the decoder reads from the `nbits`-bit word `w`, every bit above `nbits` zero. A command is one whole
64-bit word (R67, R80); it is presented, not fetched from bytes, so no byte order applies (R53; log entry 17). -/
def decodeTableWord (nbits w : Nat) : Option Instr :=
  match decode (BitVec.ofNat 64 (w % 2 ^ nbits)) with
  | .ok i => some i
  | .error _ => none

end Sys2Proof
end

