-- ==== Sys2Proof/Machine/Port.lean ====
section
/-! DEFINITION. The command port (00_scope.md R4, 30_encoding.md R82) and the ILLEGAL response (60_exceptions.md R164). -/

namespace Sys2Proof
namespace Machine

/-- The host presents one word; it is held behind those presented before it (R4, R82). -/
def State.present (s : State) (w : CmdWord) : State := s.withPort (s.port ++ [w])

/-- The word the block accepts next, and the state with that word taken off the port (R82). -/
def accept (s : State) : Option (CmdWord × State) :=
  match s.port with
  | [] => none
  | w :: ws => some (w, s.withPort ws)

/-- With no word presented the block waits: nothing changes (R41; log entry 1). -/
def idle (s : State) : Host.Outcome State Fault Refusal := .next s

/-- A word that does not decode: `raise ILLEGAL`, before any state write or event (R79, R164). -/
def execIllegal (s : State) : Host.Outcome State Fault Refusal := .next (finish (.raised .illegal s))

/-- `s` with `w` in the place of the word the block accepts next, every bit above `nbits` zero (log entry 2). -/
def placeWord (s : State) (nbits w : Nat) : State := s.withPort (BitVec.ofNat 64 (w % 2 ^ nbits) :: s.port.tail)

end Machine
end Sys2Proof
end

