-- ==== Sys2Proof/Machine/Step.lean ====
section
/-! DEFINITION. One step: the block accepts one command word and runs it to its response (00_scope.md R4, 40_controller.md
R97). In InitFault the block has no step (60_exceptions.md R166). -/

namespace Sys2Proof
namespace Machine

def step (s : State) : Host.Outcome State Fault Refusal :=
  match s.phase with
  | .initFault => .fault .initFault
  | .ready =>
    match accept s with
    | none => idle s
    | some (w, s') =>
      match decode w with
      | .error _ => execIllegal s'
      | .ok i => exec i s'

/-- `s` with the instruction of `w` presented as the very next command. -/
def State.withFetchWord (s : State) (nbits w : Nat) : State := placeWord s nbits w

end Machine
end Sys2Proof
end

