-- ==== Sys2Proof/Machine/Assembler.lean ====
section
/-! DEFINITION. The assembler and the host's side of a pseudo-instruction (30_encoding.md R83, R92 to R96). The block never
sees either: a line becomes command words, and the host presents them one by one. -/

namespace Sys2Proof
namespace Machine

/-! ### Operand ranges (R83): an operand outside the range shown is refused -/

/-- `-128 <= ch <= 255`; a negative `ch` encodes as `ch + 256`. -/
def asmCh (v : Int) : Option Byte :=
  if -128 ≤ v ∧ v ≤ 255 then some (BitVec.ofInt 8 v) else none

/-- `0 <= v <= 2^n - 1`. -/
def asmUnsigned (n : Nat) (v : Int) : Option (BitVec n) :=
  if 0 ≤ v ∧ v < 2 ^ n then some (BitVec.ofInt n v) else none

/-- `-2147483648 <= v <= 2147483647`. -/
def asmS32 (v : Int) : Option Int := if inS32 v then some v else none

/-- The command of one line whose mnemonic is an operation of R78; refused on a wrong number of operands. -/
def assembleOp (op : Op) (xs : List Int) : Option Instr :=
  match op with
  | .oeGet => match xs with
    | [] => some .oeGet
    | _ => none
  | .oeSet => match xs with
    | [v] => (asmUnsigned 1 v).map .oeSet
    | _ => none
  | .setFreq => match xs with
    | [f] => (asmUnsigned 32 f).map .setFreq
    | _ => none
  | .regCh => match xs with
    | [ch] => (asmCh ch).map .regCh
    | _ => none
  | .lookupCh => match xs with
    | [ch] => (asmCh ch).map .lookupCh
    | _ => none
  | .dropCh => match xs with
    | [ch] => (asmCh ch).map .dropCh
    | _ => none
  | .readReg => match xs with
    | [addr] => (asmUnsigned 8 addr).map .readReg
    | _ => none
  | .writeReg => match xs with
    | [addr, data] => do return .writeReg (← asmUnsigned 8 addr) (← asmUnsigned 8 data)
    | _ => none
  | .setPwm => match xs with
    | [ch, on, off] => do return .setPwm (← asmCh ch) (← asmUnsigned 16 on) (← asmUnsigned 16 off)
    | _ => none
  | .setFullOn => match xs with
    | [ch] => (asmCh ch).map .setFullOn
    | _ => none
  | .setFullOff => match xs with
    | [ch] => (asmCh ch).map .setFullOff
    | _ => none
  | .regServo => match xs with
    | [ch, minPw, maxPw, maxAngle, ign] => do
      return .regServo (← asmCh ch) (← asmUnsigned 16 minPw) (← asmUnsigned 16 maxPw) (← asmUnsigned 15 maxAngle)
        (← asmUnsigned 1 ign)
    | _ => none
  | .setAngle => match xs with
    | [ch, v] => do return .setAngle (← asmCh ch) (← asmS32 v)
    | _ => none
  | .setPw => match xs with
    | [ch, v] => do return .setPw (← asmCh ch) (← asmS32 v)
    | _ => none

/-- One line's commands, or a refusal: a command of R78 stands for itself, a pseudo-instruction for its expansion (R93 to
R95). -/
def assemble (l : AsmLine) : Option (List Instr) :=
  match l.mnemonic with
  | .cmd op => (assembleOp op l.operands).map fun i => [i]
  | .quiesceDrop => match l.operands with
    | [ch] => (asmCh ch).map fun c => [.setFullOff c, .dropCh c]
    | _ => none
  | .regServoDefault => match l.operands with
    | [ch] => (asmCh ch).map fun c => [.regServo c 1000#16 2000#16 180#15 0#1]
    | _ => none
  | .setFull => match l.operands with
    | [ch, b] => do
      let c ← asmCh ch
      let b ← asmUnsigned 1 b
      return [if b = 1#1 then .setFullOn c else .setFullOff c]
    | _ => none
  | .oeEnable => match l.operands with
    | [] => some [.oeSet 1#1]
    | _ => none
  | .oeDisable => match l.operands with
    | [] => some [.oeSet 0#1]
    | _ => none

/-! ### The text of a line (R83; log entry 13) -/

/-- A mnemonic as R78 and R93 to R95 spell it. -/
def spelling (m : Mnemonic) : String :=
  match m with
  | .cmd .oeGet => "OE_GET"
  | .cmd .oeSet => "OE_SET"
  | .cmd .setFreq => "SET_FREQ"
  | .cmd .regCh => "REG_CH"
  | .cmd .lookupCh => "LOOKUP_CH"
  | .cmd .dropCh => "DROP_CH"
  | .cmd .readReg => "READ_REG"
  | .cmd .writeReg => "WRITE_REG"
  | .cmd .setPwm => "SET_PWM"
  | .cmd .setFullOn => "SET_FULL_ON"
  | .cmd .setFullOff => "SET_FULL_OFF"
  | .cmd .regServo => "REG_SERVO"
  | .cmd .setAngle => "SET_ANGLE"
  | .cmd .setPw => "SET_PW"
  | .quiesceDrop => "QUIESCE_DROP"
  | .regServoDefault => "REG_SERVO_DEFAULT"
  | .setFull => "SET_FULL"
  | .oeEnable => "OE_ENABLE"
  | .oeDisable => "OE_DISABLE"

/-- Every mnemonic there is (R96). -/
def allMnemonics : List Mnemonic :=
  [.cmd .oeGet, .cmd .oeSet, .cmd .setFreq, .cmd .regCh, .cmd .lookupCh, .cmd .dropCh, .cmd .readReg, .cmd .writeReg,
   .cmd .setPwm, .cmd .setFullOn, .cmd .setFullOff, .cmd .regServo, .cmd .setAngle, .cmd .setPw,
   .quiesceDrop, .regServoDefault, .setFull, .oeEnable, .oeDisable]

/-- The mnemonic a text names; any other text is refused (R96). -/
def readMnemonic (cs : List Char) : Option Mnemonic :=
  allMnemonics.find? fun m => decide ((spelling m).toList = cs)

/-- The value of a decimal or hexadecimal digit. -/
def digitValue (c : Char) : Option Nat :=
  if '0' ≤ c ∧ c ≤ '9' then some (c.toNat - 48)
  else if 'A' ≤ c ∧ c ≤ 'F' then some (c.toNat - 55)
  else if 'a' ≤ c ∧ c ≤ 'f' then some (c.toNat - 87)
  else none

/-- The number a run of digits of base `b` stands for, after the value `acc` read so far. -/
def readDigits (b acc : Nat) (cs : List Char) : Option Nat :=
  match cs with
  | [] => some acc
  | c :: rest =>
    match digitValue c with
    | none => none
    | some d => if d < b then readDigits b (b * acc + d) rest else none

/-- A number without a sign: decimal, or hexadecimal with a `0x` prefix (R83). -/
def readUnsigned (cs : List Char) : Option Nat :=
  match cs with
  | [] => none
  | '0' :: 'x' :: rest => if rest.isEmpty then none else readDigits 16 0 rest
  | c :: rest => readDigits 10 0 (c :: rest)

/-- A number, negative with a leading minus sign. -/
def readInt (cs : List Char) : Option Int :=
  match cs with
  | '-' :: rest => (readUnsigned rest).map fun n => -(n : Int)
  | cs => (readUnsigned cs).map fun n => (n : Int)

/-- Blanks off both ends. -/
def trimBlanks (cs : List Char) : List Char :=
  ((cs.dropWhile (· == ' ')).reverse.dropWhile (· == ' ')).reverse

/-- The pieces between commas. -/
def splitCommas (cs : List Char) : List (List Char) :=
  match cs with
  | [] => [[]]
  | c :: rest =>
    if c == ',' then [] :: splitCommas rest
    else
      match splitCommas rest with
      | [] => [[c]]
      | w :: ws => (c :: w) :: ws

/-- Every piece as a number, or a refusal. -/
def readOperands (ps : List (List Char)) : Option (List Int) :=
  match ps with
  | [] => some []
  | p :: rest =>
    match readInt (trimBlanks p), readOperands rest with
    | some v, some vs => some (v :: vs)
    | _, _ => none

/-- One line of text: the mnemonic, then comma-separated operands (R83). -/
def parseLine (text : String) : Option AsmLine :=
  let cs := trimBlanks text.toList
  let rest := trimBlanks (cs.dropWhile (· != ' '))
  match readMnemonic (cs.takeWhile (· != ' ')) with
  | none => none
  | some m =>
    if rest.isEmpty then some ⟨m, []⟩
    else (readOperands (splitCommas rest)).map fun xs => ⟨m, xs⟩

/-! ### The host's issuing of an expansion (R92) -/

/-- The most recent response is OK (R158). -/
def responseOk (s : State) : Bool :=
  match s.resp with
  | none => false
  | some r => r.1 == statusOk

/-- The host presents the commands of one expansion in order, each after the one before has responded, and a later one only
if the one before returned OK (R82, R92). -/
def issue (is : List Instr) (s : State) : Host.Outcome State Fault Refusal :=
  match is with
  | [] => .next s
  | i :: rest =>
    match step (s.withPort [encode i]) with
    | .next t => if responseOk t then issue rest t else .next t
    | .fault r => .fault r
    | .refused r => .refused r

end Machine
end Sys2Proof
end

