-- ==== Sys2Proof/Machine/Construct.lean ====
section
/-! DEFINITION. Construction, the block's reset (70_reset_and_hazards.md R180 to R184), for any arguments and any outcome of
its two collaborators. -/

namespace Sys2Proof
namespace Machine

/-- The block's fields before its collaborators have answered: an empty trace, no response, an empty registry. `env` and
`oracle` are the environment's, which a new block does not reset (R184); what InitPin does to `env` stands in `construct`. In `InitFault` the fields construction has
not reached hold these values; nothing can observe them (R166; log entry 6). -/
def blank (p : Config.Params) (busAddr : BitVec 7) (oePin : Nat) (env : Env) (oracle : Oracle) : State :=
  { phase := .initFault, busAddr := busAddr, oePin := oePin, freq := none, slot := Vector.replicate 16 .absent,
    resp := none, trace := [], params := p, port := [], env := env, oracle := oracle }

/-- `construct(bus_addr, oe_pin)` (R180): InitBus, then InitPin, each one draw and one event; `Ready` if both succeed,
otherwise the trace ends in the failed event and the phase is `InitFault`. No chip register is written, so the known ones stay
known. InitPin makes the pin's level unknown: R183 says the level it drives is not in the source, and R101 that a level not
driven since construction is a draw (DEDUCED). A failed InitPin does the same (DESIGN CHOICE; log entry 7). -/
def construct (p : Config.Params) (busAddr : BitVec 7) (oePin : Nat) (env : Env) (oracle : Oracle) : State :=
  let s := blank p busAddr oePin env oracle
  let d := nextDraw s.oracle
  if d.1.ok then
    let s := (s.withOracle d.2).log (.initBus busAddr)
    let d := nextDraw s.oracle
    let s := (s.withOracle d.2).withPin none
    if d.1.ok then { s.log (.initPin oePin) with phase := .ready }
    else s.log (.fail (.initPin oePin))
  else (s.withOracle d.2).log (.fail (.initBus busAddr))

end Machine
end Sys2Proof
end

