-- ==== Sys2Proof/Safety.lean ====
section
/-! DEFINITION. The terms claims use: what the environment answers to the next interactions, what a command may touch, the
invariants the spec states of the block, and the reachable states. -/

namespace Sys2Proof
namespace Machine

/-! ### The answers to the next interactions (R57, R58) -/

/-- The answers left after `n` more interactions. -/
def afterDraws (n : Nat) (o : Oracle) : Oracle :=
  match n with
  | 0 => o
  | n + 1 => afterDraws n (nextDraw o).2

/-- The answer to the interaction that comes after `n` more. -/
def drawAt (n : Nat) (o : Oracle) : Draw := (nextDraw (afterDraws n o)).1

/-- The next `n` interactions all succeed. -/
def acks (n : Nat) (o : Oracle) : Prop := ∀ k < n, (drawAt k o).ok = true

/-- The next `k` interactions succeed and the one after them fails. -/
def failsAt (k : Nat) (o : Oracle) : Prop := acks k o ∧ (drawAt k o).ok = false

/-- How many interactions of the settling delay have their outcome drawn: one where it may fail (R57), none where it cannot
(R107; log entry 18). -/
def delayDraws (p : Config.Params) : Nat := if p.delayMayFail then 1 else 0

/-- The chip's known registers after the acknowledged writes `ws`, in order. -/
def writeAll (m : Memory) (ws : List (Byte × Byte)) : Memory :=
  match ws with
  | [] => m
  | w :: rest => writeAll (Memory.write m w.1.toNat w.2) rest

/-- The events of the acknowledged writes `ws` (R54). -/
def wrEvents (dev : BitVec 7) (ws : List (Byte × Byte)) : List Event := ws.map fun w => .wr dev w.1 w.2

/-! ### What a command may touch (R41, R50) -/

/-- The four registers of a channel (R60). -/
def chanRegs (p : Config.Params) (i : Fin 16) : List Byte :=
  [chanReg p i 0, chanReg p i 1, chanReg p i 2, chanReg p i 3]

/-- The registers of the channel a CH field names; none where it names no slot (R98). -/
def namedRegs (p : Config.Params) (ch : Byte) : List Byte :=
  if h : ch.toNat < 16 then chanRegs p ⟨ch.toNat, h⟩ else []

/-- The device registers a command can write (R50, R107, R123, R127, R132, R133). -/
def writtenRegs (i : Instr) (p : Config.Params) : List Byte :=
  match i with
  | .oeGet => []
  | .oeSet _ => []
  | .setFreq _ => [p.addrMode1, p.addrPrescale]
  | .regCh _ => []
  | .lookupCh _ => []
  | .dropCh _ => []
  | .readReg _ => []
  | .writeReg addr _ => [addr]
  | .setPwm ch _ _ => namedRegs p ch
  | .setFullOn ch =>
    if h : ch.toNat < 16 then [chanReg p ⟨ch.toNat, h⟩ 1, chanReg p ⟨ch.toNat, h⟩ 3] else []
  | .setFullOff ch =>
    if h : ch.toNat < 16 then [chanReg p ⟨ch.toNat, h⟩ 1, chanReg p ⟨ch.toNat, h⟩ 3] else []
  | .regServo _ _ _ _ _ => []
  | .setAngle ch _ => namedRegs p ch
  | .setPw ch _ => namedRegs p ch

/-- The channel field of a command that writes its slot (the last column of R41). -/
def writtenSlot (i : Instr) : Option Byte :=
  match i with
  | .oeGet => none
  | .oeSet _ => none
  | .setFreq _ => none
  | .regCh ch => some ch
  | .lookupCh _ => none
  | .dropCh ch => some ch
  | .readReg _ => none
  | .writeReg _ _ => none
  | .setPwm ch _ _ => some ch
  | .setFullOn _ => none
  | .setFullOff _ => none
  | .regServo ch _ _ _ _ => some ch
  | .setAngle ch _ => some ch
  | .setPw ch _ => some ch

/-! ### The invariants the spec states -/

/-- `freq` is unset or in 24..12207 (R31). -/
def freqOk (f : Option (BitVec 32)) : Bool :=
  match f with
  | none => true
  | some f => decide (24 ≤ f.toNat) && decide (f.toNat ≤ 12207)

/-- The legal servo bounds (R35): `min_pw <= max_pw` and `1 <= max_angle`. -/
def boundsOk (sv : ServoRec) : Bool :=
  decide (sv.minPw.toNat ≤ sv.maxPw.toNat) && decide (1 ≤ sv.maxAngle.toNat)

/-- A stored value, where there is one, lies between `lo` and `hi`. -/
def storedIn (v : Option Int) (lo hi : Int) : Bool :=
  match v with
  | none => true
  | some v => decide (lo ≤ v) && decide (v ≤ hi)

/-- The servo invariant (R36): with limits in force, the stored angle and pulse width lie within the bounds. -/
def limitsOk (sv : ServoRec) : Bool :=
  sv.ignore || (storedIn sv.angle 0 sv.maxAngle.toNat && storedIn sv.pw sv.minPw.toNat sv.maxPw.toNat)

/-- A registry entry meets R35 and R36. -/
def slotOk (v : Slot) : Bool :=
  match v with
  | .absent => true
  | .chan _ => true
  | .servo _ sv => boundsOk sv && limitsOk sv

/-- An event a command of the block at `dev` and `pin` appends when the interaction succeeds (R54, R30, R56). -/
def doneEvent (dev : BitVec 7) (pin : Nat) (e : Event) : Bool :=
  match e with
  | .initBus _ => false
  | .initPin _ => false
  | .rd d _ v => decide (d = dev) && v.isSome
  | .wr d _ _ => decide (d = dev)
  | .pinW p _ => decide (p = pin)
  | .pinR p l => decide (p = pin) && l.isSome
  | .dly ms => decide (500 ≤ ms)
  | .fail _ => false

/-- An interaction a command attempts and that can fail (R57): a read has no answer then; a delay is one only where
`delayFails` (log entry 18). -/
def attempted (delayFails : Bool) (dev : BitVec 7) (pin : Nat) (e : Event) : Bool :=
  match e with
  | .initBus _ => false
  | .initPin _ => false
  | .rd d _ v => decide (d = dev) && v.isNone
  | .wr d _ _ => decide (d = dev)
  | .pinW p _ => decide (p = pin)
  | .pinR p l => decide (p = pin) && l.isNone
  | .dly ms => delayFails && decide (500 ≤ ms)
  | .fail _ => false

/-- An event that a command of the block at `dev` and `pin` can append. -/
def commandEvent (delayFails : Bool) (dev : BitVec 7) (pin : Nat) (e : Event) : Bool :=
  match e with
  | .fail a => attempted delayFails dev pin a
  | .initBus d => doneEvent dev pin (.initBus d)
  | .initPin p => doneEvent dev pin (.initPin p)
  | .rd d r v => doneEvent dev pin (.rd d r v)
  | .wr d r v => doneEvent dev pin (.wr d r v)
  | .pinW p l => doneEvent dev pin (.pinW p l)
  | .pinR p l => doneEvent dev pin (.pinR p l)
  | .dly ms => doneEvent dev pin (.dly ms)

/-- The trace of a constructed block: the two construction events, then command events (R43). -/
def traceOk (s : State) : Bool :=
  match s.trace with
  | a :: b :: es =>
    decide (a = .initBus s.busAddr) && decide (b = .initPin s.oePin) &&
      es.all (commandEvent s.params.delayMayFail s.busAddr s.oePin)
  | [_] => false
  | [] => false

/-- A response the block can return (R158): a status of the table, with data 0x00 on an error. -/
def respOk (r : Option (Byte × Byte)) : Bool :=
  match r with
  | none => true
  | some (st, data) => decide (st.toNat ≤ 6) && (decide (st = statusOk) || decide (data = 0x00#8))

/-- The invariant of a constructed block. Every conjunct is one the spec states, but `dev`, which is the model's own
canonical form. -/
structure State.Inv (s : State) : Prop where
  ready : s.phase = .ready
  params : s.params.wf = true
  freq : freqOk s.freq = true
  slots : ∀ i, slotOk (s.getSlot i) = true
  trace : traceOk s = true
  resp : respOk s.resp = true
  dev : Memory.wf s.env.dev = true

/-- The states the machine can come to: a successful construction with legal parameters, on any environment and any answers;
then the host presents words and the block steps (R179, R180). -/
inductive Reachable : State → Prop where
  | constructed (p : Config.Params) (dev : BitVec 7) (pin : Nat) (e : Env) (o : Oracle) :
      p.wf = true → Memory.wf e.dev = true → acks 2 o → Reachable (construct p dev pin e o)
  | presented (s : State) (w : CmdWord) : Reachable s → Reachable (s.present w)
  | stepped (s t : State) : Reachable s → step s = .next t → Reachable t

/-! ### The spec's formulas in the spec's own terms: rationals, `max` and `min` -/

/-- R105 over the rationals. -/
def specPresc (f : Nat) : Int := roundRat ((25000000 : Rat) / (4096 * f)) - 1

/-- R143, for bounds with `0 <= max_angle`. -/
def specAngle (sv : ServoRec) (v : Int) : Int :=
  if sv.ignore = true then v else max 0 (min v sv.maxAngle.toNat)

/-- R145 over the rationals. -/
def specPwReq (sv : ServoRec) (a : Int) : Int :=
  sv.minPw.toNat + ((a * ((sv.maxPw.toNat : Rat) - sv.minPw.toNat)) / sv.maxAngle.toNat : Rat).floor

/-- R148, for bounds with `min_pw <= max_pw`. -/
def specPw (sv : ServoRec) (v : Int) : Int :=
  if sv.ignore = true then v else max sv.minPw.toNat (min v sv.maxPw.toNat)

/-- R147 over the rationals, by the step length `(1_000_000 / f) / 4096`. -/
def specSteps (pw : Int) (f : Nat) : Int := roundRat ((pw : Rat) / (((1000000 : Rat) / f) / 4096))

/-- The four writes of `set_pwm_core` on channel `i` (R127, R131): low byte, high part of `on`, then of `off`. -/
def fourWrites (p : Config.Params) (i : Fin 16) (on off : Nat) : List (Byte × Byte) :=
  [(chanReg p i 0, BitVec.ofNat 8 (on % 256)), (chanReg p i 1, BitVec.ofNat 8 (on / 256)),
   (chanReg p i 2, BitVec.ofNat 8 (off % 256)), (chanReg p i 3, BitVec.ofNat 8 (off / 256))]

/-- The state after a command on the bus that ends OK: the writes `ws` acknowledged, data 0x00. -/
def State.afterWrites (s : State) (ws : List (Byte × Byte)) : State :=
  { s with
    oracle := afterDraws ws.length s.oracle
    env := { s.env with dev := writeAll s.env.dev ws }
    trace := s.trace ++ wrEvents s.busAddr ws
    resp := some (0x00#8, 0x00#8) }

/-- The state after a command whose write at place `k` of `ws` was the first to fail (R57): TRANSPORT. -/
def State.afterFailure (s : State) (ws : List (Byte × Byte)) (k : Nat) (h : k < ws.length) : State :=
  { s with
    oracle := afterDraws (k + 1) s.oracle
    env := { s.env with dev := Memory.forget (writeAll s.env.dev (ws.take k)) ws[k].1.toNat }
    trace := s.trace ++ wrEvents s.busAddr (ws.take k) ++ [.fail (.wr s.busAddr ws[k].1 ws[k].2)]
    resp := some (0x04#8, 0x00#8) }

/-- Only the response is written: status `c`, data 0x00 (R158). -/
def State.answer (s : State) (c : Byte) : State := { s with resp := some (c, 0x00#8) }

/-! ### Several words in order -/

/-- The host presents the words one by one on a free port, each after the response to the one before (R82). -/
def serve (ws : List CmdWord) (s : State) : Host.Outcome State Fault Refusal :=
  match ws with
  | [] => .next s
  | w :: rest =>
    match step (s.withPort [w]) with
    | .next t => serve rest t
    | .fault r => .fault r
    | .refused r => .refused r

/-! ### The assembler's lines (R83, R93 to R95) -/

/-- The range of a channel operand, both ends included (R83). -/
def chRange : Int × Int := (-128, 255)

/-- The range of an unsigned operand of `n` bits. -/
def unsignedRange (n : Nat) : Int × Int := (0, 2 ^ n - 1)

/-- The range of an angle or a pulse width (R83). -/
def s32Range : Int × Int := (-2147483648, 2147483647)

/-- The ranges of a mnemonic's operands, in order, as R83 shows them and R93 to R95 use them. -/
def operandRanges (m : Mnemonic) : List (Int × Int) :=
  match m with
  | .cmd .oeGet => []
  | .cmd .oeSet => [unsignedRange 1]
  | .cmd .setFreq => [unsignedRange 32]
  | .cmd .regCh => [chRange]
  | .cmd .lookupCh => [chRange]
  | .cmd .dropCh => [chRange]
  | .cmd .readReg => [unsignedRange 8]
  | .cmd .writeReg => [unsignedRange 8, unsignedRange 8]
  | .cmd .setPwm => [chRange, unsignedRange 16, unsignedRange 16]
  | .cmd .setFullOn => [chRange]
  | .cmd .setFullOff => [chRange]
  | .cmd .regServo => [chRange, unsignedRange 16, unsignedRange 16, unsignedRange 15, unsignedRange 1]
  | .cmd .setAngle => [chRange, s32Range]
  | .cmd .setPw => [chRange, s32Range]
  | .quiesceDrop => [chRange]
  | .regServoDefault => [chRange]
  | .setFull => [chRange, unsignedRange 1]
  | .oeEnable => []
  | .oeDisable => []

/-- As many operands as ranges, each in its own. -/
def operandsOk (rs : List (Int × Int)) (xs : List Int) : Bool :=
  match rs, xs with
  | [], [] => true
  | [], _ :: _ => false
  | _ :: _, [] => false
  | r :: rs, x :: xs => decide (r.1 ≤ x) && decide (x ≤ r.2) && operandsOk rs xs

/-- The line that names a command and its operands, each as the number it stands for. -/
def lineOf (i : Instr) : AsmLine :=
  match i with
  | .oeGet => ⟨.cmd .oeGet, []⟩
  | .oeSet v => ⟨.cmd .oeSet, [v.toNat]⟩
  | .setFreq f => ⟨.cmd .setFreq, [f.toNat]⟩
  | .regCh ch => ⟨.cmd .regCh, [ch.toNat]⟩
  | .lookupCh ch => ⟨.cmd .lookupCh, [ch.toNat]⟩
  | .dropCh ch => ⟨.cmd .dropCh, [ch.toNat]⟩
  | .readReg addr => ⟨.cmd .readReg, [addr.toNat]⟩
  | .writeReg addr data => ⟨.cmd .writeReg, [addr.toNat, data.toNat]⟩
  | .setPwm ch on off => ⟨.cmd .setPwm, [ch.toNat, on.toNat, off.toNat]⟩
  | .setFullOn ch => ⟨.cmd .setFullOn, [ch.toNat]⟩
  | .setFullOff ch => ⟨.cmd .setFullOff, [ch.toNat]⟩
  | .regServo ch minPw maxPw maxAngle ign =>
    ⟨.cmd .regServo, [ch.toNat, minPw.toNat, maxPw.toNat, maxAngle.toNat, ign.toNat]⟩
  | .setAngle ch v => ⟨.cmd .setAngle, [ch.toNat, v]⟩
  | .setPw ch v => ⟨.cmd .setPw, [ch.toNat, v]⟩

/-! ### Hidden state and consistency -/

/-- A slot without what no command reads (R37): the stored steps, the stored angle and pulse width. -/
def hideSlot (v : Slot) : Slot :=
  match v with
  | .absent => .absent
  | .chan _ => .chan freshChan
  | .servo _ sv => .servo freshChan { sv with angle := none, pw := none }

/-- The state without what no command reads (R37). -/
def State.hide (s : State) : State := { s with slot := s.slot.map hideSlot }

/-- The state without the environment record (R38). -/
def State.hideEnv (s : State) : State := { s with env := { dev := [], pin := none } }

/-- The chip is known to hold the prescale of the active frequency (R32). -/
def freqConsistent (s : State) : Prop :=
  ∀ f, s.freq = some f →
    Memory.read s.env.dev s.params.addrPrescale.toNat = some (BitVec.ofInt 8 (presc f.toNat))

/-- MODE1, PRESCALE and the channel registers are different registers, as on the chip R59 describes. -/
def regsApart (p : Config.Params) : Prop :=
  p.addrMode1 ≠ p.addrPrescale ∧ ∀ i : Fin 16, p.addrPrescale ∉ chanRegs p i

end Machine
end Sys2Proof
end

