-- ==== Sys2Proof/Certificates/Slice0/Obligations.lean ====
section
/-! DEFINITION. The statements for the provers. Where a clause rests on a choice of the model's own, the docstring names the
log entry. Hypotheses on `s.oracle` say how the environment answers the interactions to come (20_memory.md R57, R58), so a
statement holds for every draw. The environment record `env` of a next state is the model's form of R38, R57 and R58: the bytes
known to have been written, which the source does not say a chip reads back (log entry 7). -/

open Sys2Proof Sys2Proof.Machine

/-! ### Encoding (30_encoding.md) -/

/-- Decoding the word of a well-formed command gives the command back, for every command and every operand value. -/
def Obligations.DecodeInvertsEncode : Prop :=
  ∀ i : Instr, i.wellFormed = true → decode (encode i) = .ok i

/-- A word that decodes is the encoding of the command it decodes to, and that command is well formed: decoding loses no bit
of the word. -/
def Obligations.EncodeInvertsDecode : Prop :=
  ∀ (w : CmdWord) (i : Instr), decode w = .ok i → encode i = w ∧ i.wellFormed = true

/-- R68: each row's mask is OP's bits with the format's reserved bits, its match the OP value in `W[63:56]`; a word is the
row's command iff it matches the row, with the operands of the row's format; no two rows match one word. -/
def Obligations.WordIsRowsCommandIffItMatches : Prop :=
  (∀ r ∈ opcodeTable, r.mask = (0xFF00000000000000#64 ||| r.op.format.reserved) ∧ r.value = r.op.code ++ 0#56) ∧
  (∀ r ∈ opcodeTable, ∀ w : CmdWord, w &&& r.mask = r.value ↔ decode w = .ok (fields r.op w)) ∧
  (∀ r ∈ opcodeTable, ∀ r' ∈ opcodeTable, ∀ w : CmdWord,
    r.matchesWord w = true → r'.matchesWord w = true → r = r') ∧
  (∀ w : CmdWord, (∀ r ∈ opcodeTable, r.matchesWord w = false) → ∃ e, decode w = .error e)

/-- R79 and R164: in `Ready`, a word whose OP is none of the table's, or whose OP is listed and a reserved bit is set,
answers ILLEGAL and changes nothing else. -/
def Obligations.IllegalWordAnswersIllegal : Prop :=
  ∀ (s : State) (w : CmdWord) (ws : List CmdWord), s.phase = .ready → s.port = w :: ws →
    ((∀ r ∈ opcodeTable, fieldOp w ≠ r.op.code) ∨
      (∃ r ∈ opcodeTable, fieldOp w = r.op.code ∧ w &&& r.op.format.reserved ≠ 0#64)) →
    step s = .next { s with port := ws, resp := some (0x06#8, 0x00#8) }

/-- Words of R91 and 95_test_vectors.md L2.1 decode to the commands they stand for, or are rejected by name. -/
def Obligations.SpecimenWordsDecode : Prop :=
  decode 0x0100000000000000#64 = .ok .oeGet ∧
  decode 0x030000000000003C#64 = .ok (.setFreq 60#32) ∧
  decode 0x04FF000000000000#64 = .ok (.regCh 0xFF#8) ∧
  decode 0x0800000000001A23#64 = .ok (.writeReg 0x1A#8 0x23#8) ∧
  decode 0x1005000001230ABC#64 = .ok (.setPwm 5#8 0x123#16 0xABC#16) ∧
  decode 0x2001810E01F409C4#64 = .ok (.regServo 1#8 500#16 2500#16 270#15 1#1) ∧
  decode 0x21000000FFFFFFF6#64 = .ok (.setAngle 0#8 (-10)) ∧
  decode 0x0000000000000000#64 = .error (.unknownOp 0x00#8) ∧
  decode 0x0405000100000000#64 = .error (.reservedBits .regCh)

/-! ### The step, construction and reset (40_controller.md section 1, 70_reset_and_hazards.md) -/

/-- In `Ready`, when the word at the head of the port decodes to `i`, the step takes it off the port and is `exec` of `i`. -/
def Obligations.StepRunsDecodedInstruction : Prop :=
  ∀ (s : State) (w : CmdWord) (ws : List CmdWord) (i : Instr), s.phase = .ready → s.port = w :: ws →
    decode w = .ok i → step s = exec i { s with port := ws }

/-- R166: construction ends in InitFault if either collaborator fails, and in InitFault there is no step for any command. -/
def Obligations.FailedConstructionHasNoStep : Prop :=
  (∀ (p : Config.Params) (dev : BitVec 7) (pin : Nat) (e : Env) (o : Oracle) (k : Nat), k < 2 → failsAt k o →
    (construct p dev pin e o).phase = .initFault) ∧
  (∀ s : State, s.phase = .initFault → step s = .fault .initFault)

/-- The construction sequence: the trace holds the two construction events, or a prefix that ends in the failed one. No
construction touches a chip register. Where InitBus fails the environment record stays whole; InitPin, tried, leaves the pin's
level unknown, which is the model's choice (log entry 7). -/
def Obligations.ConstructionTrace : Prop :=
  ∀ (p : Config.Params) (dev : BitVec 7) (pin : Nat) (e : Env) (o : Oracle),
    (failsAt 0 o → (construct p dev pin e o).trace = [.fail (.initBus dev)] ∧ (construct p dev pin e o).env = e) ∧
    (failsAt 1 o → (construct p dev pin e o).trace = [.initBus dev, .fail (.initPin pin)]) ∧
    (acks 2 o → (construct p dev pin e o).trace = [.initBus dev, .initPin pin]) ∧
    (failsAt 1 o ∨ acks 2 o → (construct p dev pin e o).env = { e with pin := none }) ∧
    (construct p dev pin e o).env.dev = e.dev

/-- R181: every block state field after a successful construction. -/
def Obligations.ResetValuesAfterConstruction : Prop :=
  ∀ (p : Config.Params) (dev : BitVec 7) (pin : Nat) (e : Env) (o : Oracle), acks 2 o →
    ∃ s, construct p dev pin e o = s ∧ s.phase = .ready ∧ s.busAddr = dev ∧ s.oePin = pin ∧ s.freq = none ∧
      (∀ i, s.getSlot i = .absent) ∧ s.resp = none ∧ s.trace = [.initBus dev, .initPin pin]

/-- `State.reset` is a successful construction at the default arguments. The arguments (log entries 4 and 5), the success
(log entry 6) and the environment (log entries 3, 7 and 8) are the model's choice. -/
def Obligations.ResetIsConstruction : Prop :=
  ∃ o : Oracle, acks 2 o ∧ construct Config.Params.default 0x40#7 17 { dev := [], pin := none } o = State.reset

/-! ### Arithmetic and byte formats -/

/-- R105: the integer form of the prescale function is the rounded rational, for every frequency. -/
def Obligations.PrescaleIsRoundedRational : Prop :=
  ∀ f : Nat, 1 ≤ f →
    presc f = roundRat ((25000000 : Rat) / (4096 * f)) - 1 ∧
    presc f = (50000000 + 4096 * (f : Int)) / (8192 * f) - 1

/-- The frequencies SET_FREQ accepts are exactly 24..12207, the inference R106 marks: every other one answers RANGE and changes
nothing else, and one of these never does; and these are the ones whose prescale, as the machine computes it, fits one byte. -/
def Obligations.AcceptedFrequencies : Prop :=
  (∀ (s : State) (f : BitVec 32), (f.toNat < 24 ∨ 12207 < f.toNat) ↔
    exec (.setFreq f) s = .next (s.answer 0x01#8)) ∧
  (∀ (s : State) (f : BitVec 32), 24 ≤ f.toNat → f.toNat ≤ 12207 → ∃ t, exec (.setFreq f) s = .next t ∧
    (t.resp = some (0x00#8, 0x00#8) ∨ t.resp = some (0x04#8, 0x00#8))) ∧
  (∀ f : Nat, 1 ≤ f → ((0 ≤ presc f ∧ presc f ≤ 255) ↔ (24 ≤ f ∧ f ≤ 12207)))

/-- The step count is the rounded rational `pw / ((1_000_000 / f) / 4096)`, for every pulse width and frequency. -/
def Obligations.StepsAreRoundedRational : Prop :=
  ∀ (pw : Int) (f : Nat), 1 ≤ f →
    stepsOf pw f = roundRat ((pw : Rat) / (((1000000 : Rat) / f) / 4096)) ∧
    stepsOf pw f = roundRat ((pw : Rat) * f * 4096 / 1000000)

/-- The machine's two roundings meet no tie: the prescale plus one and the step count are each nearer than one half to the exact
rational, and every other integer is farther than one half. -/
def Obligations.RoundingMeetsNoTie : Prop :=
  (∀ f : Nat, 1 ≤ f →
    |(25000000 : Rat) / (4096 * f) - (presc f + 1)| < 1 / 2 ∧
    ∀ k : Int, k ≠ presc f + 1 → 1 / 2 < |(25000000 : Rat) / (4096 * f) - k|) ∧
  (∀ (pw : Int) (f : Nat),
    |(pw : Rat) * f * 4096 / 1000000 - stepsOf pw f| < 1 / 2 ∧
    ∀ k : Int, k ≠ stepsOf pw f → 1 / 2 < |(pw : Rat) * f * 4096 / 1000000 - k|)

/-- R145: the requested pulse width is the floor of the rational, toward minus infinity for a negative angle too. -/
def Obligations.PulseWidthIsFlooredRational : Prop :=
  ∀ (sv : ServoRec) (a : Int), boundsOk sv = true →
    pwReq sv a = sv.minPw.toNat + ((a * ((sv.maxPw.toNat : Rat) - sv.minPw.toNat)) / sv.maxAngle.toNat : Rat).floor

/-- With the limits in force: the requested pulse width lies within the bounds, meets them at the ends, does not fall as the
angle grows, and the second clamp never changes it; the step count does not fall as the pulse width grows. -/
def Obligations.AngleToPulseWidthIsMonotone : Prop :=
  ∀ sv : ServoRec, boundsOk sv = true →
    pwReq sv 0 = sv.minPw.toNat ∧ pwReq sv sv.maxAngle.toNat = sv.maxPw.toNat ∧
    (∀ a b : Int, a ≤ b → pwReq sv a ≤ pwReq sv b) ∧
    (∀ v : Int, sv.ignore = false → effPw sv (pwReq sv (effAngle sv v)) = pwReq sv (effAngle sv v)) ∧
    (∀ (f : Nat) (pw pw' : Int), pw ≤ pw' → stepsOf pw f ≤ stepsOf pw' f)

/-- The MODE1 bytes of SET_FREQ: step 2 clears bit 7 and sets bit 4, step 5 sets bit 7, every other bit is as read. -/
def Obligations.Mode1BytesKeepOtherBits : Prop :=
  ∀ (old : Byte) (k : Fin 8),
    (sleepByte old).getLsbD k = (if k = 7 then false else if k = 4 then true else old.getLsbD k) ∧
    (restartByte old).getLsbD k = (if k = 7 then true else old.getLsbD k)

/-- Read as 13-bit fields, the bytes SET_PWM writes carry the step in the 12-bit counter and a clear override flag; the bytes
of the shortcuts set the flag of one pair and clear the other's. -/
def Obligations.OverrideFlagOutsideCounter : Prop :=
  (∀ (v : Nat) (h : v ≤ 4095), counter12 (highByte v) (lowByte v) = ⟨⟨v, Nat.lt_succ_of_le h⟩⟩ ∧
    overrideFlag (highByte v) (lowByte v) = false ∧ (highByte v).toNat ≤ 0x0F) ∧
  (∀ l : Byte, overrideFlag 0x10#8 l = true ∧ overrideFlag 0x00#8 l = false)

/-- R60: a channel register's address is the exact sum, for every channel and offset; no two of the 64 are the same. -/
def Obligations.ChannelRegistersExactAndDistinct : Prop :=
  ∀ p : Config.Params, p.wf = true →
    (∀ (i : Fin 16) (k : Fin 4), (chanReg p i k).toNat = p.addrLed0OnL.toNat + 4 * i.val + k.val) ∧
    (∀ (i j : Fin 16) (k l : Fin 4), chanReg p i k = chanReg p j l → i = j ∧ k = l)

/-! ### Controller commands (40_controller.md) -/

/-- R101: OE_GET, with the pin read answering or failing. -/
def Obligations.OeGetReadsPin : Prop :=
  ∀ s : State,
    ((drawAt 0 s.oracle).ok = true → ∃ level : Bit,
      level = pinAnswer s.oracle s.env (drawAt 0 s.oracle) ∧
      exec .oeGet s = .next { s with
        oracle := afterDraws 1 s.oracle, trace := s.trace ++ [.pinR s.oePin (some level)],
        resp := some (0x00#8, if level = 0#1 then 0x01#8 else 0x00#8) }) ∧
    ((drawAt 0 s.oracle).ok = false →
      exec .oeGet s = .next { s with
        oracle := afterDraws 1 s.oracle, trace := s.trace ++ [.fail (.pinR s.oePin none)],
        resp := some (0x04#8, 0x00#8) })

/-- The corner case of R101: under the reference oracle OE_GET answers the value of the last OE_SET, whatever other words, legal
or not, the block serves in between. It rests on that oracle, which the model holds as a field of the state (log entry 8) and
which R58 says is an assumption about the environment; no other claim rests on it. -/
def Obligations.ReferenceOracleReadsBackPin : Prop :=
  ∀ (s : State) (v : Bit) (ws : List CmdWord), s.phase = .ready → s.oracle.mode = .reference →
    (∀ w ∈ ws, ∀ b, decode w ≠ .ok (.oeSet b)) →
    ∃ t, serve (encode (.oeSet v) :: ws ++ [encode .oeGet]) s = .next t ∧ t.resp = some (0x00#8, v.setWidth 8)

/-- R102: OE_SET 1 drives the pin low and OE_SET 0 high. What the model takes for the level after a failed write is left open
here. -/
def Obligations.OeSetDrivesPin : Prop :=
  ∀ (s : State) (v level : Bit), (v = 1#1 ∧ level = 0#1 ∨ v = 0#1 ∧ level = 1#1) →
    ((drawAt 0 s.oracle).ok = true →
      exec (.oeSet v) s = .next { s with
        oracle := afterDraws 1 s.oracle, trace := s.trace ++ [.pinW s.oePin level],
        env := { s.env with pin := some level }, resp := some (0x00#8, 0x00#8) }) ∧
    ((drawAt 0 s.oracle).ok = false → ∃ l : Option Bit,
      exec (.oeSet v) s = .next { s with
        oracle := afterDraws 1 s.oracle, trace := s.trace ++ [.fail (.pinW s.oePin level)],
        env := { s.env with pin := l }, resp := some (0x04#8, 0x00#8) })

/-- R104, R106 and R107: SET_FREQ of 0, or of a frequency whose prescale lies outside 0..255, answers RANGE and changes nothing
else; otherwise the whole sequence, every interaction succeeding, with `old` the byte MODE1 answers; an interaction that fails
answers TRANSPORT. The interactions drawn are those of steps 1, 2, 3 and 5, and the delay's where it may fail; that the model
holds R20's reading of the delay beside R107's is its own choice (log entry 18). -/
def Obligations.SetFreqRunsSequence : Prop :=
  ∀ (s : State) (f : BitVec 32),
    ((f = 0#32 ∨ specPresc f.toNat < 0 ∨ 255 < specPresc f.toNat) →
      exec (.setFreq f) s = .next (s.answer 0x01#8)) ∧
    (f ≠ 0#32 → 0 ≤ specPresc f.toNat → specPresc f.toNat ≤ 255 →
      (∀ (old : Byte) (ws : List (Byte × Byte)),
        acks (4 + delayDraws s.params) s.oracle → old = busAnswer s.oracle s.env s.params.addrMode1 (drawAt 0 s.oracle) →
        ws = [(s.params.addrMode1, (old &&& 0x7F#8) ||| 0x10#8),
              (s.params.addrPrescale, BitVec.ofInt 8 (specPresc f.toNat)),
              (s.params.addrMode1, old ||| 0x80#8)] →
        exec (.setFreq f) s = .next { s with
          oracle := afterDraws (4 + delayDraws s.params) s.oracle
          env := { s.env with dev := writeAll s.env.dev ws }
          trace := s.trace ++
            [.rd s.busAddr s.params.addrMode1 (some old),
             .wr s.busAddr s.params.addrMode1 ((old &&& 0x7F#8) ||| 0x10#8),
             .wr s.busAddr s.params.addrPrescale (BitVec.ofInt 8 (specPresc f.toNat)),
             .dly s.params.settleMs,
             .wr s.busAddr s.params.addrMode1 (old ||| 0x80#8)]
          freq := some f
          resp := some (0x00#8, 0x00#8) }) ∧
      (∀ k < 4 + delayDraws s.params, failsAt k s.oracle →
        ∃ t, exec (.setFreq f) s = .next t ∧ t.resp = some (0x04#8, 0x00#8)))

/-- R108: a transport failure at a step of SET_FREQ answers TRANSPORT and keeps the active frequency, and every other field of
the block; the events of the steps before it stay and the failed one is the last. `ws` are the three writes, steps 2, 3 and 5;
of the chip's registers, the writes before the failed one are known and the byte the failed one aimed at is not (R57). The last
clause is step 4, the delay, which fails only in R20's reading (log entry 18). -/
def Obligations.SetFreqFailureKeepsFrequency : Prop :=
  ∀ (s : State) (f : BitVec 32) (old : Byte) (ws : List (Byte × Byte)),
    f ≠ 0#32 → 0 ≤ specPresc f.toNat → specPresc f.toNat ≤ 255 →
    old = busAnswer s.oracle s.env s.params.addrMode1 (drawAt 0 s.oracle) →
    ws = [(s.params.addrMode1, (old &&& 0x7F#8) ||| 0x10#8),
          (s.params.addrPrescale, BitVec.ofInt 8 (specPresc f.toNat)),
          (s.params.addrMode1, old ||| 0x80#8)] →
    (failsAt 0 s.oracle → exec (.setFreq f) s = .next { s with
      oracle := afterDraws 1 s.oracle
      trace := s.trace ++ [.fail (.rd s.busAddr s.params.addrMode1 none)]
      resp := some (0x04#8, 0x00#8) }) ∧
    (∀ (j k : Nat) (h : j < ws.length), k = j + 1 + (if j = 2 then delayDraws s.params else 0) → failsAt k s.oracle →
      exec (.setFreq f) s = .next { s with
      oracle := afterDraws (k + 1) s.oracle
      env := { s.env with dev := Memory.forget (writeAll s.env.dev (ws.take j)) ws[j].1.toNat }
      trace := s.trace ++ [.rd s.busAddr s.params.addrMode1 (some old)] ++ wrEvents s.busAddr (ws.take j) ++
        (if j = 2 then [.dly s.params.settleMs] else []) ++ [.fail (.wr s.busAddr ws[j].1 ws[j].2)]
      resp := some (0x04#8, 0x00#8) }) ∧
    (s.params.delayMayFail = true → failsAt 3 s.oracle → exec (.setFreq f) s = .next { s with
      oracle := afterDraws 4 s.oracle
      env := { s.env with dev := writeAll s.env.dev (ws.take 2) }
      trace := s.trace ++ [.rd s.busAddr s.params.addrMode1 (some old)] ++ wrEvents s.busAddr (ws.take 2) ++
        [.fail (.dly s.params.settleMs)]
      resp := some (0x04#8, 0x00#8) })

/-- R111: REG_CH on every path. -/
def Obligations.RegChRegistersFreshChannel : Prop :=
  ∀ (s : State) (ch : Byte),
    (16 ≤ ch.toNat → exec (.regCh ch) s = .next (s.answer 0x01#8)) ∧
    (∀ h : ch.toNat < 16,
      (s.getSlot ⟨ch.toNat, h⟩ ≠ .absent → exec (.regCh ch) s = .next (s.answer 0x02#8)) ∧
      (s.getSlot ⟨ch.toNat, h⟩ = .absent → exec (.regCh ch) s = .next { s with
        slot := s.slot.set ch.toNat (.chan { onStep := none, offStep := none }) h
        resp := some (0x00#8, 0x00#8) }))

/-- R114: LOOKUP_CH on every path. -/
def Obligations.LookupChTellsKind : Prop :=
  ∀ (s : State) (ch : Byte),
    (16 ≤ ch.toNat → exec (.lookupCh ch) s = .next (s.answer 0x01#8)) ∧
    (∀ h : ch.toNat < 16,
      (s.getSlot ⟨ch.toNat, h⟩ = .absent → exec (.lookupCh ch) s = .next (s.answer 0x03#8)) ∧
      (∀ c, s.getSlot ⟨ch.toNat, h⟩ = .chan c → exec (.lookupCh ch) s = .next (s.answer 0x00#8)) ∧
      (∀ c sv, s.getSlot ⟨ch.toNat, h⟩ = .servo c sv →
        exec (.lookupCh ch) s = .next { s with resp := some (0x00#8, 0x01#8) }))

/-- R116: DROP_CH on every path, whatever the slot holds, with no event. -/
def Obligations.DropChClearsSlot : Prop :=
  ∀ (s : State) (ch : Byte),
    (16 ≤ ch.toNat → exec (.dropCh ch) s = .next (s.answer 0x01#8)) ∧
    (∀ h : ch.toNat < 16, exec (.dropCh ch) s = .next { s with
      slot := s.slot.set ch.toNat .absent h, resp := some (0x00#8, 0x00#8) })

/-- After a drop every channel and servo command on the slot answers LOOKUP and changes nothing else; registering again succeeds
with a fresh record, and a second time conflicts. -/
def Obligations.RegisterTwiceDropRegister : Prop :=
  ∀ (s t : State) (ch : Byte) (h : ch.toNat < 16), exec (.dropCh ch) s = .next t →
    (∀ i : Instr, (i = .lookupCh ch ∨ (∃ on off, i = .setPwm ch on off) ∨ i = .setFullOn ch ∨ i = .setFullOff ch ∨
        (∃ v, i = .setAngle ch v) ∨ ∃ v, i = .setPw ch v) → exec i t = .next (t.answer 0x03#8)) ∧
    ∃ u, exec (.regCh ch) t = .next u ∧ u.resp = some (0x00#8, 0x00#8) ∧
      u.getSlot ⟨ch.toNat, h⟩ = .chan { onStep := none, offStep := none } ∧
      exec (.regCh ch) u = .next (u.answer 0x02#8)

/-- R121: READ_REG reaches every register address; the response carries the byte answered. -/
def Obligations.ReadRegPassesThrough : Prop :=
  ∀ (s : State) (addr : Byte),
    ((drawAt 0 s.oracle).ok = true → ∃ b : Byte,
      b = busAnswer s.oracle s.env addr (drawAt 0 s.oracle) ∧
      exec (.readReg addr) s = .next { s with
        oracle := afterDraws 1 s.oracle, trace := s.trace ++ [.rd s.busAddr addr (some b)],
        resp := some (0x00#8, b) }) ∧
    ((drawAt 0 s.oracle).ok = false →
      exec (.readReg addr) s = .next { s with
        oracle := afterDraws 1 s.oracle, trace := s.trace ++ [.fail (.rd s.busAddr addr none)],
        resp := some (0x04#8, 0x00#8) })

/-- R123: WRITE_REG reaches every register address and changes no other block state. -/
def Obligations.WriteRegPassesThrough : Prop :=
  ∀ (s : State) (addr data : Byte),
    ((drawAt 0 s.oracle).ok = true →
      exec (.writeReg addr data) s = .next (s.afterWrites [(addr, data)])) ∧
    ((drawAt 0 s.oracle).ok = false →
      exec (.writeReg addr data) s = .next (s.afterFailure [(addr, data)] 0 Nat.zero_lt_one))

/-! ### Channel commands (41_channel.md) -/

/-- R131: SET_PWM on a channel or servo slot with legal steps: exactly the four writes, in order, then the stored steps; the servo
record stays. -/
def Obligations.SetPwmProgramsFourRegisters : Prop :=
  ∀ (s : State) (ch : Byte) (on off : BitVec 16) (h : ch.toNat < 16) (after : Slot),
    on.toNat ≤ 4095 → off.toNat ≤ 4095 → acks 4 s.oracle →
    ((∃ c, s.getSlot ⟨ch.toNat, h⟩ = .chan c ∧
        after = .chan { onStep := some (on.setWidth 12), offStep := some (off.setWidth 12) }) ∨
      (∃ c sv, s.getSlot ⟨ch.toNat, h⟩ = .servo c sv ∧
        after = .servo { onStep := some (on.setWidth 12), offStep := some (off.setWidth 12) } sv)) →
    exec (.setPwm ch on off) s = .next
      { s.afterWrites (fourWrites s.params ⟨ch.toNat, h⟩ on.toNat off.toNat) with
        slot := s.slot.set ch.toNat after h }

/-- A write of SET_PWM that fails leaves the writes before it in the trace and the stored steps as they were. -/
def Obligations.SetPwmFailureKeepsSteps : Prop :=
  ∀ (s : State) (ch : Byte) (on off : BitVec 16) (h : ch.toNat < 16) (k : Nat) (hk : k < 4),
    s.getSlot ⟨ch.toNat, h⟩ ≠ .absent → on.toNat ≤ 4095 → off.toNat ≤ 4095 → failsAt k s.oracle →
    exec (.setPwm ch on off) s = .next
      (s.afterFailure (fourWrites s.params ⟨ch.toNat, h⟩ on.toNat off.toNat) k hk)

/-- The checks of SET_PWM, in their order: index, occupancy, steps; each answers its error and changes nothing else. -/
def Obligations.SetPwmChecksInOrder : Prop :=
  ∀ (s : State) (ch : Byte) (on off : BitVec 16),
    (16 ≤ ch.toNat → exec (.setPwm ch on off) s = .next (s.answer 0x01#8)) ∧
    (∀ h : ch.toNat < 16,
      (s.getSlot ⟨ch.toNat, h⟩ = .absent → exec (.setPwm ch on off) s = .next (s.answer 0x03#8)) ∧
      (s.getSlot ⟨ch.toNat, h⟩ ≠ .absent → (4095 < on.toNat ∨ 4095 < off.toNat) →
        exec (.setPwm ch on off) s = .next (s.answer 0x01#8)))

/-- R132: SET_FULL_ON on every path: ON_H = 0x10 and then OFF_H = 0x00, the `_L` registers and the stored steps untouched. -/
def Obligations.SetFullOnSetsOnOverride : Prop :=
  ∀ (s : State) (ch : Byte),
    (16 ≤ ch.toNat → exec (.setFullOn ch) s = .next (s.answer 0x01#8)) ∧
    (∀ h : ch.toNat < 16,
      (s.getSlot ⟨ch.toNat, h⟩ = .absent → exec (.setFullOn ch) s = .next (s.answer 0x03#8)) ∧
      (s.getSlot ⟨ch.toNat, h⟩ ≠ .absent → ∀ ws : List (Byte × Byte),
        ws = [(chanReg s.params ⟨ch.toNat, h⟩ 1, 0x10#8), (chanReg s.params ⟨ch.toNat, h⟩ 3, 0x00#8)] →
        (acks 2 s.oracle → exec (.setFullOn ch) s = .next (s.afterWrites ws)) ∧
        (∀ (k : Nat) (hk : k < ws.length), failsAt k s.oracle →
          exec (.setFullOn ch) s = .next (s.afterFailure ws k hk))))

/-- R133: SET_FULL_OFF on every path: ON_H = 0x00 and then OFF_H = 0x10, the `_L` registers and the stored steps
untouched. -/
def Obligations.SetFullOffSetsOffOverride : Prop :=
  ∀ (s : State) (ch : Byte),
    (16 ≤ ch.toNat → exec (.setFullOff ch) s = .next (s.answer 0x01#8)) ∧
    (∀ h : ch.toNat < 16,
      (s.getSlot ⟨ch.toNat, h⟩ = .absent → exec (.setFullOff ch) s = .next (s.answer 0x03#8)) ∧
      (s.getSlot ⟨ch.toNat, h⟩ ≠ .absent → ∀ ws : List (Byte × Byte),
        ws = [(chanReg s.params ⟨ch.toNat, h⟩ 1, 0x00#8), (chanReg s.params ⟨ch.toNat, h⟩ 3, 0x10#8)] →
        (acks 2 s.oracle → exec (.setFullOff ch) s = .next (s.afterWrites ws)) ∧
        (∀ (k : Nat) (hk : k < ws.length), failsAt k s.oracle →
          exec (.setFullOff ch) s = .next (s.afterFailure ws k hk))))

/-- After a full-on or a full-off, a SET_PWM that answers OK has written all four registers of the channel, and in the bytes the
environment record then holds both override flags are clear and the counters are the steps. That the chip holds the bytes of
that record is the model's reading (log entry 7), not the spec's word. -/
def Obligations.SetPwmUndoesOverrides : Prop :=
  ∀ (s t u : State) (ch : Byte) (on off : BitVec 16) (h : ch.toNat < 16) (i : Instr), s.params.wf = true →
    i = .setFullOn ch ∨ i = .setFullOff ch → exec i s = .next t →
    exec (.setPwm ch on off) t = .next u → u.resp = some (0x00#8, 0x00#8) →
    ∃ onL onH offL offH : Byte,
      Memory.read u.env.dev (chanReg u.params ⟨ch.toNat, h⟩ 0).toNat = some onL ∧
      Memory.read u.env.dev (chanReg u.params ⟨ch.toNat, h⟩ 1).toNat = some onH ∧
      Memory.read u.env.dev (chanReg u.params ⟨ch.toNat, h⟩ 2).toNat = some offL ∧
      Memory.read u.env.dev (chanReg u.params ⟨ch.toNat, h⟩ 3).toNat = some offH ∧
      overrideFlag onH onL = false ∧ overrideFlag offH offL = false ∧
      counter12 onH onL = on.setWidth 12 ∧ counter12 offH offL = off.setWidth 12

/-! ### Servo commands (42_servo.md) -/

/-- R138 and R139: REG_SERVO on every path, the checks in the order index, occupancy, bounds; no event. -/
def Obligations.RegServoRegistersServo : Prop :=
  ∀ (s : State) (ch : Byte) (minPw maxPw : BitVec 16) (maxAngle : BitVec 15) (ign : Bit),
    (16 ≤ ch.toNat → exec (.regServo ch minPw maxPw maxAngle ign) s = .next (s.answer 0x01#8)) ∧
    (∀ h : ch.toNat < 16,
      (s.getSlot ⟨ch.toNat, h⟩ ≠ .absent →
        exec (.regServo ch minPw maxPw maxAngle ign) s = .next (s.answer 0x02#8)) ∧
      (s.getSlot ⟨ch.toNat, h⟩ = .absent → (maxAngle.toNat = 0 ∨ maxPw.toNat < minPw.toNat) →
        exec (.regServo ch minPw maxPw maxAngle ign) s = .next (s.answer 0x01#8)) ∧
      (s.getSlot ⟨ch.toNat, h⟩ = .absent → 1 ≤ maxAngle.toNat → minPw.toNat ≤ maxPw.toNat →
        exec (.regServo ch minPw maxPw maxAngle ign) s = .next { s with
          slot := s.slot.set ch.toNat (.servo { onStep := none, offStep := none }
            { minPw := minPw, maxPw := maxPw, maxAngle := maxAngle, ignore := ign == 1#1,
              angle := none, pw := none }) h
          resp := some (0x00#8, 0x00#8) }))

/-- R137 and R141: the checks of SET_ANGLE and SET_PW before any effect: index, occupancy and kind, frequency. -/
def Obligations.ServoCommandsCheckInOrder : Prop :=
  ∀ (s : State) (ch : Byte) (v : Int) (i : Instr), i = .setAngle ch v ∨ i = .setPw ch v →
    (16 ≤ ch.toNat → exec i s = .next (s.answer 0x01#8)) ∧
    (∀ h : ch.toNat < 16,
      ((∀ c sv, s.getSlot ⟨ch.toNat, h⟩ ≠ .servo c sv) → exec i s = .next (s.answer 0x03#8)) ∧
      ((∃ c sv, s.getSlot ⟨ch.toNat, h⟩ = .servo c sv) → s.freq = none → exec i s = .next (s.answer 0x05#8)))

/-- SET_ANGLE whose steps are legal: the effective angle and pulse width stored, four writes with the on edge at step 0,
the stored steps. -/
def Obligations.SetAngleProgramsSteps : Prop :=
  ∀ (s : State) (ch : Byte) (v a pw steps : Int) (h : ch.toNat < 16) (c : ChanRec) (sv : ServoRec) (f : BitVec 32),
    s.getSlot ⟨ch.toNat, h⟩ = .servo c sv → boundsOk sv = true → s.freq = some f → 1 ≤ f.toNat →
    a = specAngle sv v → pw = specPw sv (specPwReq sv a) → steps = specSteps pw f.toNat →
    0 ≤ steps → steps ≤ 4095 → acks 4 s.oracle →
    exec (.setAngle ch v) s = .next
      { s.afterWrites (fourWrites s.params ⟨ch.toNat, h⟩ 0 steps.toNat) with
        slot := s.slot.set ch.toNat (.servo { onStep := some 0#12, offStep := some (BitVec.ofInt 12 steps) }
          { sv with angle := some a, pw := some pw }) h }

/-- SET_PW whose steps are legal: the effective pulse width stored, the angle kept, four writes with the on edge at step
0, the stored steps. -/
def Obligations.SetPwProgramsSteps : Prop :=
  ∀ (s : State) (ch : Byte) (v pw steps : Int) (h : ch.toNat < 16) (c : ChanRec) (sv : ServoRec) (f : BitVec 32),
    s.getSlot ⟨ch.toNat, h⟩ = .servo c sv → boundsOk sv = true → s.freq = some f → 1 ≤ f.toNat →
    pw = specPw sv v → steps = specSteps pw f.toNat → 0 ≤ steps → steps ≤ 4095 → acks 4 s.oracle →
    exec (.setPw ch v) s = .next
      { s.afterWrites (fourWrites s.params ⟨ch.toNat, h⟩ 0 steps.toNat) with
        slot := s.slot.set ch.toNat (.servo { onStep := some 0#12, offStep := some (BitVec.ofInt 12 steps) }
          { sv with pw := some pw }) h }

/-- R150: where the steps leave 0..4095, SET_ANGLE and SET_PW answer RANGE with no write, and the angle and pulse width stay
stored. -/
def Obligations.ServoRangeKeepsStoredValues : Prop :=
  ∀ (s : State) (ch : Byte) (v pw : Int) (h : ch.toNat < 16) (c : ChanRec) (sv sv' : ServoRec) (f : BitVec 32)
    (i : Instr), s.getSlot ⟨ch.toNat, h⟩ = .servo c sv → boundsOk sv = true → s.freq = some f → 1 ≤ f.toNat →
    (i = .setAngle ch v ∧ pw = specPw sv (specPwReq sv (specAngle sv v)) ∧
        sv' = { sv with angle := some (specAngle sv v), pw := some pw } ∨
      i = .setPw ch v ∧ pw = specPw sv v ∧ sv' = { sv with pw := some pw }) →
    (specSteps pw f.toNat < 0 ∨ 4095 < specSteps pw f.toNat) →
    exec i s = .next { s with
      slot := s.slot.set ch.toNat (.servo c sv') h, resp := some (0x01#8, 0x00#8) }

/-- A write of SET_ANGLE or SET_PW that fails leaves the writes before it in the trace, the angle and pulse width stored and
the stored steps as they were. -/
def Obligations.ServoFailureKeepsStoredValues : Prop :=
  ∀ (s : State) (ch : Byte) (v pw steps : Int) (h : ch.toNat < 16) (c : ChanRec) (sv sv' : ServoRec) (f : BitVec 32)
    (i : Instr) (k : Nat) (hk : k < 4),
    s.getSlot ⟨ch.toNat, h⟩ = .servo c sv → boundsOk sv = true → s.freq = some f → 1 ≤ f.toNat →
    (i = .setAngle ch v ∧ pw = specPw sv (specPwReq sv (specAngle sv v)) ∧
        sv' = { sv with angle := some (specAngle sv v), pw := some pw } ∨
      i = .setPw ch v ∧ pw = specPw sv v ∧ sv' = { sv with pw := some pw }) →
    steps = specSteps pw f.toNat → 0 ≤ steps → steps ≤ 4095 → failsAt k s.oracle →
    exec i s = .next
      { s.afterFailure (fourWrites s.params ⟨ch.toNat, h⟩ 0 steps.toNat) k hk with
        slot := s.slot.set ch.toNat (.servo c sv') h }

/-! ### Whole-machine rules -/

/-- Every command, on every state and whatever the environment answers, ends in a next state with one response: a status of
the table, data 0x00 on an error, and data other than 0x00 only from OE_GET, LOOKUP_CH and READ_REG. -/
def Obligations.EveryCommandResponds : Prop :=
  ∀ (i : Instr) (s : State), ∃ (t : State) (st data : Byte), exec i s = .next t ∧ t.resp = some (st, data) ∧
    st.toNat ≤ 6 ∧ st ≠ 0x06#8 ∧ (st ≠ 0x00#8 → data = 0x00#8) ∧
    (data ≠ 0x00#8 → i = .oeGet ∨ (∃ ch, i = .lookupCh ch) ∨ ∃ addr, i = .readReg addr)

/-- The trace only grows, in order; a command appends at most five events of its own device and pin; a failed one is its last,
and then, and only then, the response is TRANSPORT. That a completed read holds an answer and a failed one none is the model's
form of the event (log entry 9). -/
def Obligations.TraceGrowsAndFailsLast : Prop :=
  ∀ (i : Instr) (s t : State), s.params.wf = true → exec i s = .next t → ∃ es : List Event,
    t.trace = s.trace ++ es ∧ es.length ≤ 5 ∧
    ((t.resp ≠ some (0x04#8, 0x00#8) ∧ ∀ e ∈ es, doneEvent s.busAddr s.oePin e = true) ∨
      (t.resp = some (0x04#8, 0x00#8) ∧ ∃ (ds : List Event) (a : Event), es = ds ++ [.fail a] ∧
        attempted s.params.delayMayFail s.busAddr s.oePin a = true ∧ ∀ e ∈ ds, doneEvent s.busAddr s.oePin e = true))

/-- Nothing a step does changes what construction fixed: the arguments, the phase, the parameters. -/
def Obligations.ConstructionArgumentsConstant : Prop :=
  ∀ s t : State, step s = .next t →
    t.busAddr = s.busAddr ∧ t.oePin = s.oePin ∧ t.phase = s.phase ∧ t.params = s.params

/-- The active frequency changes only by a SET_FREQ that answers OK, and then it is that command's frequency, in 24..12207. -/
def Obligations.FrequencyWrittenOnlyBySetFreq : Prop :=
  ∀ (i : Instr) (s t : State), exec i s = .next t → t.freq ≠ s.freq →
    ∃ f : BitVec 32, i = .setFreq f ∧ t.freq = some f ∧ t.resp = some (0x00#8, 0x00#8) ∧
      24 ≤ f.toNat ∧ f.toNat ≤ 12207

/-- A command changes no slot but the one it names and may write; an error leaves every slot as it was, but for the stored
angle and pulse width of a SET_ANGLE or SET_PW; no command touches the port. -/
def Obligations.OtherSlotsUnchanged : Prop :=
  ∀ (i : Instr) (s t : State), exec i s = .next t →
    t.port = s.port ∧
    (∀ j : Fin 16, (∀ ch, writtenSlot i = some ch → ch.toNat ≠ j.val) → t.getSlot j = s.getSlot j) ∧
    ((∀ data, t.resp ≠ some (0x00#8, data)) → t.freq = s.freq ∧
      ∀ j : Fin 16, t.getSlot j = s.getSlot j ∨
        ((∃ ch v, i = .setAngle ch v ∨ i = .setPw ch v) ∧
          ∃ c sv a p, s.getSlot j = .servo c sv ∧ t.getSlot j = .servo c { sv with angle := a, pw := p }))

/-- A servo's bounds and ignore flag stay as REG_SERVO set them until the slot is dropped, and a plain channel never becomes a
servo, nor a servo a plain channel, without a drop. -/
def Obligations.ServoBoundsFixedUntilDrop : Prop :=
  ∀ (i : Instr) (s t : State) (j : Fin 16), exec i s = .next t → (∀ ch, i = .dropCh ch → ch.toNat ≠ j.val) →
    (∀ c sv, s.getSlot j = .servo c sv → ∃ c' a p, t.getSlot j = .servo c' { sv with angle := a, pw := p }) ∧
    (∀ c, s.getSlot j = .chan c → ∃ c', t.getSlot j = .chan c')

/-- The stored steps change only by SET_PWM, SET_ANGLE or SET_PW with an OK response, while the slot stays registered. -/
def Obligations.StoredStepsWrittenOnlyOnSuccess : Prop :=
  ∀ (i : Instr) (s t : State) (j : Fin 16) (c c' : ChanRec), exec i s = .next t →
    (s.getSlot j = .chan c ∨ ∃ sv, s.getSlot j = .servo c sv) →
    (t.getSlot j = .chan c' ∨ ∃ sv, t.getSlot j = .servo c' sv) → c' ≠ c →
    t.resp = some (0x00#8, 0x00#8) ∧
      ∃ ch, ch.toNat = j.val ∧
        ((∃ on off, i = .setPwm ch on off) ∨ (∃ v, i = .setAngle ch v) ∨ ∃ v, i = .setPw ch v)

/-- What is known of a device register changes only if the command writes that register, for every command and every register;
the known pin level changes only by OE_SET. -/
def Obligations.OtherRegistersUnchanged : Prop :=
  ∀ (i : Instr) (s t : State), exec i s = .next t →
    (∀ a : Nat, (∀ r ∈ writtenRegs i s.params, a ≠ r.toNat) →
      Memory.read t.env.dev a = Memory.read s.env.dev a) ∧
    ((∀ v, i ≠ .oeSet v) → t.env.pin = s.env.pin)

/-- The reset state meets the invariant. -/
def Obligations.ResetMeetsInvariant : Prop := State.reset.Inv

/-- Every step keeps the invariant, from every state that meets it: the frequency legal, the servo bounds and limits, the
shape of the trace, the response, the canonical form of the known registers. -/
def Obligations.StepKeepsInvariant : Prop :=
  ∀ s t : State, s.Inv → step s = .next t → t.Inv

/-- From every state that meets the invariant the machine goes on: a step answers a next state, never a fault or a refusal. -/
def Obligations.ConstructedBlockNeverStops : Prop :=
  ∀ s : State, s.Inv → ∃ t, step s = .next t

/-- Every reachable state meets the invariant: from any successful construction with legal parameters, on any environment and
any answers, whatever words the host presents. -/
def Obligations.ReachableStatesMeetInvariant : Prop :=
  ∀ s : State, Reachable s → s.Inv

/-- What no command reads cannot be learned. Two states that differ only in stored steps, stored angles and stored pulse
widths step to states that differ only there: the same events, the same response. -/
def Obligations.HiddenStateInfluencesNothing : Prop :=
  ∀ s s' t t' : State, s.hide = s'.hide → step s = .next t → step s' = .next t' → t.hide = t'.hide

/-- With the reads answered by draws, the environment record influences nothing but itself. -/
def Obligations.EnvironmentRecordNeverRead : Prop :=
  ∀ s s' t t' : State, s.oracle.mode = .draws → s.hideEnv = s'.hideEnv →
    step s = .next t → step s' = .next t' → t.hideEnv = t'.hideEnv

/-- R32's consistency over the environment record, on parameters that keep MODE1, PRESCALE and the channel registers apart: a
SET_FREQ that answers OK establishes it, from every state; after that it holds while no SET_FREQ fails in transport and no
WRITE_REG reaches PRESCALE or MODE1. That the chip holds the bytes of that record is the model's reading (log entry 7). -/
def Obligations.FrequencyMatchesPrescale : Prop :=
  (∀ (f : BitVec 32) (s t : State), regsApart s.params → exec (.setFreq f) s = .next t →
    t.resp = some (0x00#8, 0x00#8) → t.freq = some f ∧ freqConsistent t) ∧
  (∀ (i : Instr) (s t : State), regsApart s.params → freqConsistent s → exec i s = .next t →
    (∀ data, i ≠ .writeReg s.params.addrPrescale data) → (∀ data, i ≠ .writeReg s.params.addrMode1 data) →
    ((∃ f, i = .setFreq f) → t.resp ≠ some (0x04#8, 0x00#8)) → freqConsistent t)

/-! ### The assembler (30_encoding.md R83, R92 to R95) -/

/-- The assembler takes a line exactly if it has the operands of its mnemonic, each in its range (R83, R93 to R95), and refuses
every other; what it gives is well formed, so its words decode to it; every well-formed command has a line that gives it alone;
a negative channel encodes as `ch + 256`. -/
def Obligations.AssemblerRefusesOutOfRange : Prop :=
  (∀ l : AsmLine, (∃ is, assemble l = some is) ↔ operandsOk (operandRanges l.mnemonic) l.operands = true) ∧
  (∀ (l : AsmLine) (is : List Instr), assemble l = some is → is ≠ [] ∧ ∀ i ∈ is, i.wellFormed = true) ∧
  (∀ i : Instr, i.wellFormed = true → assemble (lineOf i) = some [i]) ∧
  (∀ (m : Mnemonic) (ch : Int) (xs : List Int), (operandRanges m).head? = some chRange → -128 ≤ ch → ch < 0 →
    assemble ⟨m, ch :: xs⟩ = assemble ⟨m, (ch + 256) :: xs⟩)

/-- R93, R94 and R95: each pseudo-instruction expands to the commands named there, and is refused where one of them is; SET_FULL
with any other `b` is refused. -/
def Obligations.PseudoInstructionsExpand : Prop :=
  (∀ ch : Int, assemble ⟨.quiesceDrop, [ch]⟩ =
    (assemble ⟨.cmd .setFullOff, [ch]⟩).bind fun a => (assemble ⟨.cmd .dropCh, [ch]⟩).map fun b => a ++ b) ∧
  (∀ ch : Int, assemble ⟨.regServoDefault, [ch]⟩ = assemble ⟨.cmd .regServo, [ch, 1000, 2000, 180, 0]⟩) ∧
  (∀ ch b : Int, assemble ⟨.setFull, [ch, b]⟩ =
    if b = 1 then assemble ⟨.cmd .setFullOn, [ch]⟩
    else if b = 0 then assemble ⟨.cmd .setFullOff, [ch]⟩ else none) ∧
  assemble ⟨.oeEnable, []⟩ = assemble ⟨.cmd .oeSet, [1]⟩ ∧ assemble ⟨.oeDisable, []⟩ = assemble ⟨.cmd .oeSet, [0]⟩

/-- QUIESCE_DROP on a registered channel, issued on a free port: full-off is written, then the slot is dropped; if full-off
fails in transport the drop is not issued. -/
def Obligations.QuiesceDropWritesFullOffFirst : Prop :=
  ∀ (s : State) (ch : Byte) (h : ch.toNat < 16) (is : List Instr) (ws : List (Byte × Byte)), s.phase = .ready →
    s.port = [] → s.getSlot ⟨ch.toNat, h⟩ ≠ .absent → assemble ⟨.quiesceDrop, [ch.toNat]⟩ = some is →
    ws = [(chanReg s.params ⟨ch.toNat, h⟩ 1, 0x00#8), (chanReg s.params ⟨ch.toNat, h⟩ 3, 0x10#8)] →
    (acks 2 s.oracle → issue is s = .next { s.afterWrites ws with slot := s.slot.set ch.toNat .absent h }) ∧
    (∀ (k : Nat) (hk : k < ws.length), failsAt k s.oracle → issue is s = .next (s.afterFailure ws k hk))
end

