-- ==== Sys2Proof/Laws/Assembler.lean ====
section
/-! SUPPORT. When each operand reader of the assembler answers and what (30_encoding.md R83), and words served in two parts. -/

namespace Sys2Proof
namespace Machine

/-- A channel is read exactly within its range. -/
theorem asmCh_isSome (v : Int) : (∃ c, asmCh v = some c) ↔ chRange.1 ≤ v ∧ v ≤ chRange.2 := by
  unfold asmCh chRange
  split <;> simp <;> omega

/-- An unsigned operand is read exactly within its range. -/
theorem asmUnsigned_isSome (n : Nat) (v : Int) :
    (∃ x, asmUnsigned n v = some x) ↔ (unsignedRange n).1 ≤ v ∧ v ≤ (unsignedRange n).2 := by
  unfold asmUnsigned unsignedRange
  split <;> simp <;> omega

/-- An angle or a pulse width is read exactly within its range. -/
theorem asmS32_isSome (v : Int) : (∃ x, asmS32 v = some x) ↔ s32Range.1 ≤ v ∧ v ≤ s32Range.2 := by
  unfold asmS32 s32Range inS32
  split <;> simp_all

/-- What is read of a channel's own number. -/
@[simp] theorem asmCh_toNat (c : Byte) : asmCh c.toNat = some c := by
  have := c.isLt
  unfold asmCh
  rw [if_pos (by omega)]
  congr 1
  apply BitVec.eq_of_toNat_eq; simp

/-- What is read of a field's own number. -/
@[simp] theorem asmUnsigned_toNat (n : Nat) (x : BitVec n) : asmUnsigned n x.toNat = some x := by
  have : (x.toNat : Int) < 2 ^ n := by exact_mod_cast x.isLt
  unfold asmUnsigned
  rw [if_pos ⟨by omega, this⟩]
  congr 1
  apply BitVec.eq_of_toNat_eq; simp

/-- A negative channel reads as the one 256 above it. -/
theorem asmCh_negative {ch : Int} (h : -128 ≤ ch) (h' : ch < 0) : asmCh ch = asmCh (ch + 256) := by
  unfold asmCh
  rw [if_pos (by omega), if_pos (by omega)]
  congr 1
  apply BitVec.eq_of_toNat_eq; simp [BitVec.toNat_ofInt]

/-- Words served after other words that all got their response. -/
theorem serve_append {ws vs : List CmdWord} {s t : State} (h : serve ws s = .next t) :
    serve (ws ++ vs) s = serve vs t := by
  induction ws generalizing s with
  | nil => cases h; rfl
  | cons w ws ih =>
    rw [List.cons_append, serve]
    rw [serve] at h
    cases hs : step (s.withPort [w]) with
    | next u => rw [hs] at h; exact ih h
    | fault r => rw [hs] at h; cases h
    | refused r => rw [hs] at h; cases h

end Machine
end Sys2Proof
end

