-- ==== Sys2Proof/Laws/Memory.lean ====
section
/-! SUPPORT. The laws of the known device registers: read after write, and that every operation keeps the canonical form. -/

namespace Sys2Proof
namespace Machine

@[simp] theorem read_nil (a : Nat) : Memory.read [] a = none := rfl

/-- A canonical list: its head lies below 256 and below every address after it, and its tail is canonical. -/
theorem wf_cons (c : Host.Cell) (m : Memory) :
    Memory.wf (c :: m) = true ↔ c.1 < 256 ∧ (∀ d ∈ m, c.1 < d.1) ∧ Memory.wf m = true := by
  induction m generalizing c with
  | nil => simp [Memory.wf]
  | cons d t ih =>
    simp only [Memory.wf, Bool.and_eq_true, decide_eq_true_eq, ih, List.mem_cons, forall_eq_or_imp]
    constructor
    · rintro ⟨h, h256, hlt, hwf⟩
      exact ⟨by omega, ⟨h, fun e he => lt_trans h (hlt e he)⟩, h256, hlt, hwf⟩
    · rintro ⟨_, ⟨h, _⟩, h256, hlt, hwf⟩
      exact ⟨h, h256, hlt, hwf⟩

theorem read_write_self (m : Memory) (a : Nat) (v : Byte) : Memory.read (Memory.write m a v) a = some v := by
  induction m with
  | nil => simp [Memory.write, Memory.read]
  | cons c t ih =>
    obtain ⟨b, w⟩ := c
    simp only [Memory.write]
    split
    · simp [Memory.read]
    · split
      · simp [Memory.read]
      · simp [Memory.read, *]

theorem read_write_ne (m : Memory) {a b : Nat} (v : Byte) (h : b ≠ a) :
    Memory.read (Memory.write m a v) b = Memory.read m b := by
  induction m with
  | nil => simp [Memory.write, Memory.read, h]
  | cons c t ih =>
    obtain ⟨x, w⟩ := c
    simp only [Memory.write]
    split
    · simp [Memory.read, h]
    · split
      · subst_vars; simp [Memory.read, h]
      · simp [Memory.read, ih]

theorem read_write (m : Memory) (a b : Nat) (v : Byte) :
    Memory.read (Memory.write m a v) b = if b = a then some v else Memory.read m b := by
  split
  · subst_vars; exact read_write_self m _ v
  · exact read_write_ne m v ‹_›

theorem mem_write (m : Memory) (a : Nat) (v : Byte) :
    ∀ d ∈ Memory.write m a v, d.1 = a ∨ d ∈ m := by
  induction m with
  | nil => simp [Memory.write]
  | cons c t ih =>
    obtain ⟨b, w⟩ := c
    intro d hd
    simp only [Memory.write] at hd
    split at hd
    · rcases List.mem_cons.mp hd with rfl | h
      · exact .inl rfl
      · exact .inr h
    · split at hd
      · rcases List.mem_cons.mp hd with rfl | h
        · exact .inl rfl
        · exact .inr (List.mem_cons_of_mem _ h)
      · rcases List.mem_cons.mp hd with rfl | h
        · exact .inr List.mem_cons_self
        · exact (ih d h).imp_right (List.mem_cons_of_mem _)

theorem mem_forget (m : Memory) (a : Nat) : ∀ d ∈ Memory.forget m a, d ∈ m := by
  induction m with
  | nil => simp [Memory.forget]
  | cons c t ih =>
    obtain ⟨b, w⟩ := c
    intro d hd
    simp only [Memory.forget] at hd
    split at hd
    · exact List.mem_cons_of_mem _ hd
    · rcases List.mem_cons.mp hd with rfl | h
      · exact List.mem_cons_self
      · exact List.mem_cons_of_mem _ (ih d h)

/-- A write to a register below 256 keeps the canonical form. -/
theorem write_wf (m : Memory) (a : Nat) (v : Byte) (ha : a < 256) (hm : Memory.wf m = true) :
    Memory.wf (Memory.write m a v) = true := by
  induction m with
  | nil => simp [Memory.write, Memory.wf, ha]
  | cons c t ih =>
    obtain ⟨b, w⟩ := c
    have hc := (wf_cons _ _).mp hm
    simp only [Memory.write]
    split
    · refine (wf_cons _ _).mpr ⟨ha, ?_, hm⟩
      simp only [List.mem_cons, forall_eq_or_imp]
      exact ⟨‹_›, fun d hd => lt_trans ‹a < b› (hc.2.1 d hd)⟩
    · split
      · subst_vars
        exact (wf_cons _ _).mpr ⟨ha, hc.2.1, hc.2.2⟩
      · refine (wf_cons _ _).mpr ⟨hc.1, fun d hd => ?_, ih hc.2.2⟩
        rcases mem_write t a v d hd with h | h
        · simp only; omega
        · exact hc.2.1 d h

/-- Forgetting a register keeps the canonical form. -/
theorem forget_wf (m : Memory) (a : Nat) (hm : Memory.wf m = true) : Memory.wf (Memory.forget m a) = true := by
  induction m with
  | nil => rfl
  | cons c t ih =>
    obtain ⟨b, w⟩ := c
    have hc := (wf_cons _ _).mp hm
    simp only [Memory.forget]
    split
    · exact hc.2.2
    · exact (wf_cons _ _).mpr ⟨hc.1, fun d hd => hc.2.1 d (mem_forget t a d hd), ih hc.2.2⟩

theorem read_of_lt (m : Memory) (a : Nat) (h : ∀ d ∈ m, a < d.1) : Memory.read m a = none := by
  induction m with
  | nil => rfl
  | cons c t ih =>
    obtain ⟨b, w⟩ := c
    have hb : a < b := h (b, w) List.mem_cons_self
    simp [Memory.read, Nat.ne_of_lt hb, ih fun d hd => h d (List.mem_cons_of_mem _ hd)]

theorem read_forget_self (m : Memory) (a : Nat) (hm : Memory.wf m = true) :
    Memory.read (Memory.forget m a) a = none := by
  induction m with
  | nil => rfl
  | cons c t ih =>
    obtain ⟨b, w⟩ := c
    have hc := (wf_cons _ _).mp hm
    simp only [Memory.forget]
    split
    · subst_vars; exact read_of_lt _ _ hc.2.1
    · simp [Memory.read, *]

theorem read_forget_ne (m : Memory) {a b : Nat} (h : b ≠ a) :
    Memory.read (Memory.forget m a) b = Memory.read m b := by
  induction m with
  | nil => rfl
  | cons c t ih =>
    obtain ⟨x, w⟩ := c
    simp only [Memory.forget]
    split
    · subst_vars; simp [Memory.read, h]
    · simp [Memory.read, ih]

/-- Equal knowledge is equal data: two canonical lists that read alike everywhere are one list. -/
theorem canonical_ext (m m' : Memory) (h : Memory.wf m = true) (h' : Memory.wf m' = true)
    (he : ∀ a, Memory.read m a = Memory.read m' a) : m = m' := by
  induction m generalizing m' with
  | nil =>
    cases m' with
    | nil => rfl
    | cons d t => simpa [Memory.read] using he d.1
  | cons c t ih =>
    obtain ⟨b, v⟩ := c
    have hc := (wf_cons _ _).mp h
    cases m' with
    | nil => simpa [Memory.read] using he b
    | cons d t' =>
      obtain ⟨b', v'⟩ := d
      have hd := (wf_cons _ _).mp h'
      have hbb : b = b' := by
        rcases Nat.lt_trichotomy b b' with hlt | heq | hgt
        · have e := he b
          rw [read_of_lt ((b', v') :: t') b] at e
          · simp [Memory.read] at e
          · simp only [List.mem_cons, forall_eq_or_imp]
            exact ⟨hlt, fun d hd' => lt_trans hlt (hd.2.1 d hd')⟩
        · exact heq
        · have e := he b'
          rw [read_of_lt ((b, v) :: t) b'] at e
          · simp [Memory.read] at e
          · simp only [List.mem_cons, forall_eq_or_imp]
            exact ⟨hgt, fun d hd' => lt_trans hgt (hc.2.1 d hd')⟩
      subst hbb
      have hv : v = v' := by simpa [Memory.read] using he b
      subst hv
      congr 1
      refine ih t' hc.2.2 hd.2.2 fun a => ?_
      by_cases hab : a = b
      · subst hab
        rw [read_of_lt t a hc.2.1, read_of_lt t' a hd.2.1]
      · simpa [Memory.read, hab] using he a

end Machine
end Sys2Proof
end

