-- ==== Sys2Proof/Laws/State.lean ====
section
/-! SUPPORT. What each named update does to each field of the state, true by rfl; reading a slot after an update. -/

namespace Sys2Proof
namespace Machine

variable (s : State)

/-! ### `log` -/

@[simp] theorem log_phase (e : Event) : (s.log e).phase = s.phase := rfl
@[simp] theorem log_busAddr (e : Event) : (s.log e).busAddr = s.busAddr := rfl
@[simp] theorem log_oePin (e : Event) : (s.log e).oePin = s.oePin := rfl
@[simp] theorem log_freq (e : Event) : (s.log e).freq = s.freq := rfl
@[simp] theorem log_slot (e : Event) : (s.log e).slot = s.slot := rfl
@[simp] theorem log_resp (e : Event) : (s.log e).resp = s.resp := rfl
@[simp] theorem log_trace (e : Event) : (s.log e).trace = s.trace ++ [e] := rfl
@[simp] theorem log_params (e : Event) : (s.log e).params = s.params := rfl
@[simp] theorem log_port (e : Event) : (s.log e).port = s.port := rfl
@[simp] theorem log_env (e : Event) : (s.log e).env = s.env := rfl
@[simp] theorem log_oracle (e : Event) : (s.log e).oracle = s.oracle := rfl
@[simp] theorem log_getSlot (e : Event) (j : Fin 16) : (s.log e).getSlot j = s.getSlot j := rfl

/-! ### `withOracle` -/

@[simp] theorem withOracle_phase (o : Oracle) : (s.withOracle o).phase = s.phase := rfl
@[simp] theorem withOracle_busAddr (o : Oracle) : (s.withOracle o).busAddr = s.busAddr := rfl
@[simp] theorem withOracle_oePin (o : Oracle) : (s.withOracle o).oePin = s.oePin := rfl
@[simp] theorem withOracle_freq (o : Oracle) : (s.withOracle o).freq = s.freq := rfl
@[simp] theorem withOracle_slot (o : Oracle) : (s.withOracle o).slot = s.slot := rfl
@[simp] theorem withOracle_resp (o : Oracle) : (s.withOracle o).resp = s.resp := rfl
@[simp] theorem withOracle_trace (o : Oracle) : (s.withOracle o).trace = s.trace := rfl
@[simp] theorem withOracle_params (o : Oracle) : (s.withOracle o).params = s.params := rfl
@[simp] theorem withOracle_port (o : Oracle) : (s.withOracle o).port = s.port := rfl
@[simp] theorem withOracle_env (o : Oracle) : (s.withOracle o).env = s.env := rfl
@[simp] theorem withOracle_oracle (o : Oracle) : (s.withOracle o).oracle = o := rfl
@[simp] theorem withOracle_getSlot (o : Oracle) (j : Fin 16) : (s.withOracle o).getSlot j = s.getSlot j := rfl

/-! ### `withDev` -/

@[simp] theorem withDev_phase (m : Memory) : (s.withDev m).phase = s.phase := rfl
@[simp] theorem withDev_busAddr (m : Memory) : (s.withDev m).busAddr = s.busAddr := rfl
@[simp] theorem withDev_oePin (m : Memory) : (s.withDev m).oePin = s.oePin := rfl
@[simp] theorem withDev_freq (m : Memory) : (s.withDev m).freq = s.freq := rfl
@[simp] theorem withDev_slot (m : Memory) : (s.withDev m).slot = s.slot := rfl
@[simp] theorem withDev_resp (m : Memory) : (s.withDev m).resp = s.resp := rfl
@[simp] theorem withDev_trace (m : Memory) : (s.withDev m).trace = s.trace := rfl
@[simp] theorem withDev_params (m : Memory) : (s.withDev m).params = s.params := rfl
@[simp] theorem withDev_port (m : Memory) : (s.withDev m).port = s.port := rfl
@[simp] theorem withDev_env (m : Memory) : (s.withDev m).env = { s.env with dev := m } := rfl
@[simp] theorem withDev_oracle (m : Memory) : (s.withDev m).oracle = s.oracle := rfl
@[simp] theorem withDev_getSlot (m : Memory) (j : Fin 16) : (s.withDev m).getSlot j = s.getSlot j := rfl

/-! ### `withPin` -/

@[simp] theorem withPin_phase (l : Option Bit) : (s.withPin l).phase = s.phase := rfl
@[simp] theorem withPin_busAddr (l : Option Bit) : (s.withPin l).busAddr = s.busAddr := rfl
@[simp] theorem withPin_oePin (l : Option Bit) : (s.withPin l).oePin = s.oePin := rfl
@[simp] theorem withPin_freq (l : Option Bit) : (s.withPin l).freq = s.freq := rfl
@[simp] theorem withPin_slot (l : Option Bit) : (s.withPin l).slot = s.slot := rfl
@[simp] theorem withPin_resp (l : Option Bit) : (s.withPin l).resp = s.resp := rfl
@[simp] theorem withPin_trace (l : Option Bit) : (s.withPin l).trace = s.trace := rfl
@[simp] theorem withPin_params (l : Option Bit) : (s.withPin l).params = s.params := rfl
@[simp] theorem withPin_port (l : Option Bit) : (s.withPin l).port = s.port := rfl
@[simp] theorem withPin_env (l : Option Bit) : (s.withPin l).env = { s.env with pin := l } := rfl
@[simp] theorem withPin_oracle (l : Option Bit) : (s.withPin l).oracle = s.oracle := rfl
@[simp] theorem withPin_getSlot (l : Option Bit) (j : Fin 16) : (s.withPin l).getSlot j = s.getSlot j := rfl

/-! ### `withFreq` -/

@[simp] theorem withFreq_phase (f : BitVec 32) : (s.withFreq f).phase = s.phase := rfl
@[simp] theorem withFreq_busAddr (f : BitVec 32) : (s.withFreq f).busAddr = s.busAddr := rfl
@[simp] theorem withFreq_oePin (f : BitVec 32) : (s.withFreq f).oePin = s.oePin := rfl
@[simp] theorem withFreq_freq (f : BitVec 32) : (s.withFreq f).freq = some f := rfl
@[simp] theorem withFreq_slot (f : BitVec 32) : (s.withFreq f).slot = s.slot := rfl
@[simp] theorem withFreq_resp (f : BitVec 32) : (s.withFreq f).resp = s.resp := rfl
@[simp] theorem withFreq_trace (f : BitVec 32) : (s.withFreq f).trace = s.trace := rfl
@[simp] theorem withFreq_params (f : BitVec 32) : (s.withFreq f).params = s.params := rfl
@[simp] theorem withFreq_port (f : BitVec 32) : (s.withFreq f).port = s.port := rfl
@[simp] theorem withFreq_env (f : BitVec 32) : (s.withFreq f).env = s.env := rfl
@[simp] theorem withFreq_oracle (f : BitVec 32) : (s.withFreq f).oracle = s.oracle := rfl
@[simp] theorem withFreq_getSlot (f : BitVec 32) (j : Fin 16) : (s.withFreq f).getSlot j = s.getSlot j := rfl

/-! ### `withResp` -/

@[simp] theorem withResp_phase (c d : Byte) : (s.withResp c d).phase = s.phase := rfl
@[simp] theorem withResp_busAddr (c d : Byte) : (s.withResp c d).busAddr = s.busAddr := rfl
@[simp] theorem withResp_oePin (c d : Byte) : (s.withResp c d).oePin = s.oePin := rfl
@[simp] theorem withResp_freq (c d : Byte) : (s.withResp c d).freq = s.freq := rfl
@[simp] theorem withResp_slot (c d : Byte) : (s.withResp c d).slot = s.slot := rfl
@[simp] theorem withResp_resp (c d : Byte) : (s.withResp c d).resp = some (c, d) := rfl
@[simp] theorem withResp_trace (c d : Byte) : (s.withResp c d).trace = s.trace := rfl
@[simp] theorem withResp_params (c d : Byte) : (s.withResp c d).params = s.params := rfl
@[simp] theorem withResp_port (c d : Byte) : (s.withResp c d).port = s.port := rfl
@[simp] theorem withResp_env (c d : Byte) : (s.withResp c d).env = s.env := rfl
@[simp] theorem withResp_oracle (c d : Byte) : (s.withResp c d).oracle = s.oracle := rfl
@[simp] theorem withResp_getSlot (c d : Byte) (j : Fin 16) : (s.withResp c d).getSlot j = s.getSlot j := rfl

/-! ### `withPort` -/

@[simp] theorem withPort_phase (ws : List CmdWord) : (s.withPort ws).phase = s.phase := rfl
@[simp] theorem withPort_busAddr (ws : List CmdWord) : (s.withPort ws).busAddr = s.busAddr := rfl
@[simp] theorem withPort_oePin (ws : List CmdWord) : (s.withPort ws).oePin = s.oePin := rfl
@[simp] theorem withPort_freq (ws : List CmdWord) : (s.withPort ws).freq = s.freq := rfl
@[simp] theorem withPort_slot (ws : List CmdWord) : (s.withPort ws).slot = s.slot := rfl
@[simp] theorem withPort_resp (ws : List CmdWord) : (s.withPort ws).resp = s.resp := rfl
@[simp] theorem withPort_trace (ws : List CmdWord) : (s.withPort ws).trace = s.trace := rfl
@[simp] theorem withPort_params (ws : List CmdWord) : (s.withPort ws).params = s.params := rfl
@[simp] theorem withPort_port (ws : List CmdWord) : (s.withPort ws).port = ws := rfl
@[simp] theorem withPort_env (ws : List CmdWord) : (s.withPort ws).env = s.env := rfl
@[simp] theorem withPort_oracle (ws : List CmdWord) : (s.withPort ws).oracle = s.oracle := rfl
@[simp] theorem withPort_getSlot (ws : List CmdWord) (j : Fin 16) : (s.withPort ws).getSlot j = s.getSlot j := rfl

/-! ### `setSlot` -/

@[simp] theorem setSlot_phase (i : Fin 16) (v : Slot) : (s.setSlot i v).phase = s.phase := rfl
@[simp] theorem setSlot_busAddr (i : Fin 16) (v : Slot) : (s.setSlot i v).busAddr = s.busAddr := rfl
@[simp] theorem setSlot_oePin (i : Fin 16) (v : Slot) : (s.setSlot i v).oePin = s.oePin := rfl
@[simp] theorem setSlot_freq (i : Fin 16) (v : Slot) : (s.setSlot i v).freq = s.freq := rfl
@[simp] theorem setSlot_slot (i : Fin 16) (v : Slot) : (s.setSlot i v).slot = s.slot.set i v := rfl
@[simp] theorem setSlot_resp (i : Fin 16) (v : Slot) : (s.setSlot i v).resp = s.resp := rfl
@[simp] theorem setSlot_trace (i : Fin 16) (v : Slot) : (s.setSlot i v).trace = s.trace := rfl
@[simp] theorem setSlot_params (i : Fin 16) (v : Slot) : (s.setSlot i v).params = s.params := rfl
@[simp] theorem setSlot_port (i : Fin 16) (v : Slot) : (s.setSlot i v).port = s.port := rfl
@[simp] theorem setSlot_env (i : Fin 16) (v : Slot) : (s.setSlot i v).env = s.env := rfl
@[simp] theorem setSlot_oracle (i : Fin 16) (v : Slot) : (s.setSlot i v).oracle = s.oracle := rfl

/-! ### `storeSteps` -/

@[simp] theorem storeSteps_phase (i : Fin 16) (a b : BitVec 12) : (s.storeSteps i a b).phase = s.phase := rfl
@[simp] theorem storeSteps_busAddr (i : Fin 16) (a b : BitVec 12) : (s.storeSteps i a b).busAddr = s.busAddr := rfl
@[simp] theorem storeSteps_oePin (i : Fin 16) (a b : BitVec 12) : (s.storeSteps i a b).oePin = s.oePin := rfl
@[simp] theorem storeSteps_freq (i : Fin 16) (a b : BitVec 12) : (s.storeSteps i a b).freq = s.freq := rfl
@[simp] theorem storeSteps_slot (i : Fin 16) (a b : BitVec 12) : (s.storeSteps i a b).slot = s.slot.set i (slotWithSteps (s.getSlot i) a b) := rfl
@[simp] theorem storeSteps_resp (i : Fin 16) (a b : BitVec 12) : (s.storeSteps i a b).resp = s.resp := rfl
@[simp] theorem storeSteps_trace (i : Fin 16) (a b : BitVec 12) : (s.storeSteps i a b).trace = s.trace := rfl
@[simp] theorem storeSteps_params (i : Fin 16) (a b : BitVec 12) : (s.storeSteps i a b).params = s.params := rfl
@[simp] theorem storeSteps_port (i : Fin 16) (a b : BitVec 12) : (s.storeSteps i a b).port = s.port := rfl
@[simp] theorem storeSteps_env (i : Fin 16) (a b : BitVec 12) : (s.storeSteps i a b).env = s.env := rfl
@[simp] theorem storeSteps_oracle (i : Fin 16) (a b : BitVec 12) : (s.storeSteps i a b).oracle = s.oracle := rfl

/-! ### `storeAngle` -/

@[simp] theorem storeAngle_phase (i : Fin 16) (a : Int) : (s.storeAngle i a).phase = s.phase := rfl
@[simp] theorem storeAngle_busAddr (i : Fin 16) (a : Int) : (s.storeAngle i a).busAddr = s.busAddr := rfl
@[simp] theorem storeAngle_oePin (i : Fin 16) (a : Int) : (s.storeAngle i a).oePin = s.oePin := rfl
@[simp] theorem storeAngle_freq (i : Fin 16) (a : Int) : (s.storeAngle i a).freq = s.freq := rfl
@[simp] theorem storeAngle_slot (i : Fin 16) (a : Int) : (s.storeAngle i a).slot = s.slot.set i (slotWithAngle (s.getSlot i) a) := rfl
@[simp] theorem storeAngle_resp (i : Fin 16) (a : Int) : (s.storeAngle i a).resp = s.resp := rfl
@[simp] theorem storeAngle_trace (i : Fin 16) (a : Int) : (s.storeAngle i a).trace = s.trace := rfl
@[simp] theorem storeAngle_params (i : Fin 16) (a : Int) : (s.storeAngle i a).params = s.params := rfl
@[simp] theorem storeAngle_port (i : Fin 16) (a : Int) : (s.storeAngle i a).port = s.port := rfl
@[simp] theorem storeAngle_env (i : Fin 16) (a : Int) : (s.storeAngle i a).env = s.env := rfl
@[simp] theorem storeAngle_oracle (i : Fin 16) (a : Int) : (s.storeAngle i a).oracle = s.oracle := rfl

/-! ### `storePw` -/

@[simp] theorem storePw_phase (i : Fin 16) (a : Int) : (s.storePw i a).phase = s.phase := rfl
@[simp] theorem storePw_busAddr (i : Fin 16) (a : Int) : (s.storePw i a).busAddr = s.busAddr := rfl
@[simp] theorem storePw_oePin (i : Fin 16) (a : Int) : (s.storePw i a).oePin = s.oePin := rfl
@[simp] theorem storePw_freq (i : Fin 16) (a : Int) : (s.storePw i a).freq = s.freq := rfl
@[simp] theorem storePw_slot (i : Fin 16) (a : Int) : (s.storePw i a).slot = s.slot.set i (slotWithPw (s.getSlot i) a) := rfl
@[simp] theorem storePw_resp (i : Fin 16) (a : Int) : (s.storePw i a).resp = s.resp := rfl
@[simp] theorem storePw_trace (i : Fin 16) (a : Int) : (s.storePw i a).trace = s.trace := rfl
@[simp] theorem storePw_params (i : Fin 16) (a : Int) : (s.storePw i a).params = s.params := rfl
@[simp] theorem storePw_port (i : Fin 16) (a : Int) : (s.storePw i a).port = s.port := rfl
@[simp] theorem storePw_env (i : Fin 16) (a : Int) : (s.storePw i a).env = s.env := rfl
@[simp] theorem storePw_oracle (i : Fin 16) (a : Int) : (s.storePw i a).oracle = s.oracle := rfl

/-! ### Reading a slot after writing one -/

@[simp] theorem setSlot_getSlot_self (i : Fin 16) (v : Slot) : (s.setSlot i v).getSlot i = v := by
  simp [State.setSlot, State.getSlot]

theorem setSlot_getSlot_ne {i j : Fin 16} (v : Slot) (h : j ≠ i) : (s.setSlot i v).getSlot j = s.getSlot j := by
  have h' : (i : Nat) ≠ j := fun e => h (Fin.ext e.symm)
  simp [State.setSlot, State.getSlot, h']

theorem setSlot_getSlot (i j : Fin 16) (v : Slot) :
    (s.setSlot i v).getSlot j = if j = i then v else s.getSlot j := by
  split
  · subst_vars; simp
  · exact setSlot_getSlot_ne s v ‹_›

@[simp] theorem storeSteps_getSlot_self (i : Fin 16) (a b : BitVec 12) :
    (s.storeSteps i a b).getSlot i = slotWithSteps (s.getSlot i) a b := setSlot_getSlot_self s i _

theorem storeSteps_getSlot_ne {i j : Fin 16} (a b : BitVec 12) (h : j ≠ i) :
    (s.storeSteps i a b).getSlot j = s.getSlot j := setSlot_getSlot_ne s _ h

@[simp] theorem storeAngle_getSlot_self (i : Fin 16) (a : Int) :
    (s.storeAngle i a).getSlot i = slotWithAngle (s.getSlot i) a := setSlot_getSlot_self s i _

theorem storeAngle_getSlot_ne {i j : Fin 16} (a : Int) (h : j ≠ i) :
    (s.storeAngle i a).getSlot j = s.getSlot j := setSlot_getSlot_ne s _ h

@[simp] theorem storePw_getSlot_self (i : Fin 16) (a : Int) :
    (s.storePw i a).getSlot i = slotWithPw (s.getSlot i) a := setSlot_getSlot_self s i _

theorem storePw_getSlot_ne {i j : Fin 16} (a : Int) (h : j ≠ i) :
    (s.storePw i a).getSlot j = s.getSlot j := setSlot_getSlot_ne s _ h

/-! ### Two states are equal when their fields are -/

theorem slot_ext {u v : Vector Slot 16} (h : ∀ i : Fin 16, u[i] = v[i]) : u = v :=
  Vector.ext fun i hi => h ⟨i, hi⟩

end Machine
end Sys2Proof
end

