-- ==== Sys2Proof/Laws/Ops.lean ====
section
/-! SUPPORT. What each shared operation can do, said once: an equation for each of its outcomes, and `Did`, everything a run
of external primitives leaves behind. -/

namespace Sys2Proof
namespace Machine

/-! ### Sequencing -/

@[simp] theorem andThen_ok {α β : Type} (a : α) (s : State) (k : α → State → Res β) :
    (Res.ok a s).andThen k = k a s := rfl

@[simp] theorem andThen_raised {α β : Type} (e : Err) (s : State) (k : α → State → Res β) :
    (Res.raised e s : Res α).andThen k = .raised e s := rfl

@[simp] theorem finish_ok (d : Byte) (s : State) : finish (.ok d s) = s.withResp statusOk d := rfl

@[simp] theorem finish_raised (e : Err) (s : State) : finish (.raised e s) = s.withResp (errCode e) 0x00#8 := rfl

/-- No error has the status OK (R158). -/
theorem errCode_ne_ok (e : Err) : errCode e ≠ statusOk := by cases e <;> decide

/-- Two errors with one status are the same error (R158). -/
theorem errCode_injective {e e' : Err} (h : errCode e = errCode e') : e = e' := by
  revert h; cases e <;> cases e' <;> decide

/-- A sequence that ends well went on from a first part that ended well. -/
theorem andThen_eq_ok {α β : Type} {r : Res α} {k : α → State → Res β} {b : β} {t : State} :
    r.andThen k = .ok b t ↔ ∃ a u, r = .ok a u ∧ k a u = .ok b t := by
  cases r <;> simp

/-- A sequence that raises raised in its first part, or after it. -/
theorem andThen_eq_raised {α β : Type} {r : Res α} {k : α → State → Res β} {e : Err} {t : State} :
    r.andThen k = .raised e t ↔ r = .raised e t ∨ ∃ a u, r = .ok a u ∧ k a u = .raised e t := by
  cases r <;> simp

/-! ### The answers to come -/

@[simp] theorem acks_zero (o : Oracle) : acks 0 o := fun _ h => absurd h (Nat.not_lt_zero _)

/-- The first of the next `n + 1` interactions succeeds, and so do the `n` after it. -/
theorem acks_succ (n : Nat) (o : Oracle) : acks (n + 1) o ↔ (nextDraw o).1.ok = true ∧ acks n (nextDraw o).2 := by
  constructor
  · intro h
    exact ⟨h 0 (Nat.succ_pos n), fun k hk => h (k + 1) (Nat.succ_lt_succ hk)⟩
  · rintro ⟨h0, h⟩ k hk
    cases k with
    | zero => exact h0
    | succ k => exact h k (Nat.lt_of_succ_lt_succ hk)

theorem failsAt_zero (o : Oracle) : failsAt 0 o ↔ (nextDraw o).1.ok = false := by
  simp [failsAt, drawAt, afterDraws]

theorem failsAt_succ (k : Nat) (o : Oracle) :
    failsAt (k + 1) o ↔ (nextDraw o).1.ok = true ∧ failsAt k (nextDraw o).2 := by
  simp only [failsAt, acks_succ, and_assoc]; rfl

/-- Either the next `n` interactions all succeed, or one of them is the first to fail. -/
theorem acks_or_failsAt (n : Nat) (o : Oracle) : acks n o ∨ ∃ k < n, failsAt k o := by
  induction n generalizing o with
  | zero => exact .inl (acks_zero o)
  | succ n ih =>
    cases h : (nextDraw o).1.ok with
    | false => exact .inr ⟨0, Nat.succ_pos n, (failsAt_zero o).mpr h⟩
    | true =>
      rcases ih (nextDraw o).2 with ha | ⟨k, hk, hf⟩
      · exact .inl ((acks_succ n o).mpr ⟨h, ha⟩)
      · exact .inr ⟨k + 1, Nat.succ_lt_succ hk, (failsAt_succ k o).mpr ⟨h, hf⟩⟩

/-- The reference oracle never fails (R58). -/
theorem nextDraw_reference (o : Oracle) (h : o.mode = .reference) : (nextDraw o).1.ok = true := by
  unfold nextDraw
  split <;> simp [drawUnder, h]

@[simp] theorem nextDraw_mode (o : Oracle) : (nextDraw o).2.mode = o.mode := by
  unfold nextDraw; split <;> rfl

@[simp] theorem afterDraws_mode (n : Nat) (o : Oracle) : (afterDraws n o).mode = o.mode := by
  induction n generalizing o with
  | zero => rfl
  | succ n ih => exact (ih _).trans (nextDraw_mode o)

/-! ### The external primitives -/

theorem busRead_ok {reg : Byte} {s : State} (h : (nextDraw s.oracle).1.ok = true) :
    busRead reg s = .ok (busAnswer s.oracle s.env reg (nextDraw s.oracle).1)
      ((s.withOracle (nextDraw s.oracle).2).log
        (.rd s.busAddr reg (some (busAnswer s.oracle s.env reg (nextDraw s.oracle).1)))) := by
  simp [busRead, h]

theorem busRead_fail {reg : Byte} {s : State} (h : (nextDraw s.oracle).1.ok = false) :
    busRead reg s = .raised .transport
      ((s.withOracle (nextDraw s.oracle).2).log (.fail (.rd s.busAddr reg none))) := by
  simp [busRead, h]

theorem busWrite_ok {reg b : Byte} {s : State} (h : (nextDraw s.oracle).1.ok = true) :
    busWrite reg b s = .ok () (((s.withOracle (nextDraw s.oracle).2).withDev
      (Memory.write s.env.dev reg.toNat b)).log (.wr s.busAddr reg b)) := by
  simp [busWrite, h]

theorem busWrite_fail {reg b : Byte} {s : State} (h : (nextDraw s.oracle).1.ok = false) :
    busWrite reg b s = .raised .transport (((s.withOracle (nextDraw s.oracle).2).withDev
      (Memory.forget s.env.dev reg.toNat)).log (.fail (.wr s.busAddr reg b))) := by
  simp [busWrite, h]

theorem pinWrite_ok {l : Bit} {s : State} (h : (nextDraw s.oracle).1.ok = true) :
    pinWrite l s = .ok () (((s.withOracle (nextDraw s.oracle).2).withPin (some l)).log (.pinW s.oePin l)) := by
  simp [pinWrite, h]

theorem pinWrite_fail {l : Bit} {s : State} (h : (nextDraw s.oracle).1.ok = false) :
    pinWrite l s = .raised .transport
      (((s.withOracle (nextDraw s.oracle).2).withPin none).log (.fail (.pinW s.oePin l))) := by
  simp [pinWrite, h]

theorem pinRead_ok {s : State} (h : (nextDraw s.oracle).1.ok = true) :
    pinRead s = .ok (pinAnswer s.oracle s.env (nextDraw s.oracle).1)
      ((s.withOracle (nextDraw s.oracle).2).log
        (.pinR s.oePin (some (pinAnswer s.oracle s.env (nextDraw s.oracle).1)))) := by
  simp [pinRead, h]

theorem pinRead_fail {s : State} (h : (nextDraw s.oracle).1.ok = false) :
    pinRead s = .raised .transport
      ((s.withOracle (nextDraw s.oracle).2).log (.fail (.pinR s.oePin none))) := by
  simp [pinRead, h]

/-- The delay goes on, whichever of the two readings is in force (log entry 18). -/
theorem delay_ok {s : State} (h : acks (delayDraws s.params) s.oracle) :
    delay s = .ok () ((s.withOracle (afterDraws (delayDraws s.params) s.oracle)).log (.dly s.params.settleMs)) := by
  cases hm : s.params.delayMayFail with
  | true =>
    have hd := h 0 (by simp [delayDraws, hm])
    simp only [drawAt, afterDraws] at hd
    simp [delay, delayDraws, hm, hd, afterDraws]
  | false => simp [delay, delayDraws, hm, afterDraws, State.withOracle]

/-- Where the delay may fail, a failed draw is its failure (R57). -/
theorem delay_fail {s : State} (hm : s.params.delayMayFail = true) (h : (nextDraw s.oracle).1.ok = false) :
    delay s = .raised .transport ((s.withOracle (nextDraw s.oracle).2).log (.fail (.dly s.params.settleMs))) := by
  simp [delay, hm, h]

/-! ### The registry -/

theorem checkIndex_ok {ch : Byte} (s : State) (h : ch.toNat < 16) : checkIndex ch s = .ok ⟨ch.toNat, h⟩ s := by
  simp [checkIndex, Nat.le_of_lt_succ h]

theorem checkIndex_range {ch : Byte} (s : State) (h : 16 ≤ ch.toNat) : checkIndex ch s = .raised .range s := by
  simp [checkIndex, Nat.not_le.mpr h]

theorem lookup_range {ch : Byte} (s : State) (h : 16 ≤ ch.toNat) : lookup ch s = .raised .range s := by
  simp [lookup, checkIndex_range s h]

theorem lookup_absent {ch : Byte} {s : State} (h : ch.toNat < 16) (hs : s.getSlot ⟨ch.toNat, h⟩ = .absent) :
    lookup ch s = .raised .lookup s := by
  simp [lookup, checkIndex_ok s h, hs]

theorem lookup_ok {ch : Byte} {s : State} (h : ch.toNat < 16) (hs : s.getSlot ⟨ch.toNat, h⟩ ≠ .absent) :
    lookup ch s = .ok (⟨ch.toNat, h⟩, s.getSlot ⟨ch.toNat, h⟩) s := by
  simp only [lookup, checkIndex_ok s h, andThen_ok]
  cases e : s.getSlot ⟨ch.toNat, h⟩ <;> simp_all

theorem servoLookup_range {ch : Byte} (s : State) (h : 16 ≤ ch.toNat) : servoLookup ch s = .raised .range s := by
  simp [servoLookup, lookup_range s h]

theorem servoLookup_absent {ch : Byte} {s : State} (h : ch.toNat < 16) (hs : s.getSlot ⟨ch.toNat, h⟩ = .absent) :
    servoLookup ch s = .raised .lookup s := by
  simp [servoLookup, lookup_absent h hs]

theorem servoLookup_chan {ch : Byte} {s : State} (h : ch.toNat < 16) {c : ChanRec}
    (hs : s.getSlot ⟨ch.toNat, h⟩ = .chan c) : servoLookup ch s = .raised .lookup s := by
  simp [servoLookup, lookup_ok h (by simp [hs] : s.getSlot ⟨ch.toNat, h⟩ ≠ .absent), hs]

theorem servoLookup_ok {ch : Byte} {s : State} (h : ch.toNat < 16) {c : ChanRec} {sv : ServoRec}
    (hs : s.getSlot ⟨ch.toNat, h⟩ = .servo c sv) : servoLookup ch s = .ok (⟨ch.toNat, h⟩, sv) s := by
  simp [servoLookup, lookup_ok h (by simp [hs] : s.getSlot ⟨ch.toNat, h⟩ ≠ .absent), hs]

theorem requireFree_range {ch : Byte} (s : State) (h : 16 ≤ ch.toNat) : requireFree ch s = .raised .range s := by
  simp [requireFree, checkIndex_range s h]

theorem requireFree_ok {ch : Byte} {s : State} (h : ch.toNat < 16) (hs : s.getSlot ⟨ch.toNat, h⟩ = .absent) :
    requireFree ch s = .ok ⟨ch.toNat, h⟩ s := by
  simp [requireFree, checkIndex_ok s h, hs]

theorem requireFree_conflict {ch : Byte} {s : State} (h : ch.toNat < 16)
    (hs : s.getSlot ⟨ch.toNat, h⟩ ≠ .absent) : requireFree ch s = .raised .conflict s := by
  simp only [requireFree, checkIndex_ok s h, andThen_ok]
  cases e : s.getSlot ⟨ch.toNat, h⟩ <;> simp_all

/-- Everything `lookup` can do. -/
theorem lookup_cases (ch : Byte) (s : State) :
    (lookup ch s = .raised .range s ∧ 16 ≤ ch.toNat) ∨
    (∃ h : ch.toNat < 16, lookup ch s = .raised .lookup s ∧ s.getSlot ⟨ch.toNat, h⟩ = .absent) ∨
    (∃ h : ch.toNat < 16, lookup ch s = .ok (⟨ch.toNat, h⟩, s.getSlot ⟨ch.toNat, h⟩) s ∧
      s.getSlot ⟨ch.toNat, h⟩ ≠ .absent) := by
  by_cases h : ch.toNat < 16
  · by_cases hs : s.getSlot ⟨ch.toNat, h⟩ = .absent
    · exact .inr (.inl ⟨h, lookup_absent h hs, hs⟩)
    · exact .inr (.inr ⟨h, lookup_ok h hs, hs⟩)
  · exact .inl ⟨lookup_range s (by omega), by omega⟩

/-- Everything `servoLookup` can do. -/
theorem servoLookup_cases (ch : Byte) (s : State) :
    (servoLookup ch s = .raised .range s ∧ 16 ≤ ch.toNat) ∨
    (∃ h : ch.toNat < 16, servoLookup ch s = .raised .lookup s ∧ ∀ c sv, s.getSlot ⟨ch.toNat, h⟩ ≠ .servo c sv) ∨
    (∃ (h : ch.toNat < 16) (c : ChanRec) (sv : ServoRec), servoLookup ch s = .ok (⟨ch.toNat, h⟩, sv) s ∧
      s.getSlot ⟨ch.toNat, h⟩ = .servo c sv) := by
  by_cases h : ch.toNat < 16
  · cases hs : s.getSlot ⟨ch.toNat, h⟩ with
    | absent => exact .inr (.inl ⟨h, servoLookup_absent h hs, by simp [hs]⟩)
    | chan c => exact .inr (.inl ⟨h, servoLookup_chan h hs, by simp [hs]⟩)
    | servo c sv => exact .inr (.inr ⟨h, c, sv, servoLookup_ok h hs, hs⟩)
  · exact .inl ⟨servoLookup_range s (by omega), by omega⟩

/-- Everything `requireFree` can do. -/
theorem requireFree_cases (ch : Byte) (s : State) :
    (requireFree ch s = .raised .range s ∧ 16 ≤ ch.toNat) ∨
    (∃ h : ch.toNat < 16, requireFree ch s = .raised .conflict s ∧ s.getSlot ⟨ch.toNat, h⟩ ≠ .absent) ∨
    (∃ h : ch.toNat < 16, requireFree ch s = .ok ⟨ch.toNat, h⟩ s ∧ s.getSlot ⟨ch.toNat, h⟩ = .absent) := by
  by_cases h : ch.toNat < 16
  · by_cases hs : s.getSlot ⟨ch.toNat, h⟩ = .absent
    · exact .inr (.inr ⟨h, requireFree_ok h hs, hs⟩)
    · exact .inr (.inl ⟨h, requireFree_conflict h hs, hs⟩)
  · exact .inl ⟨requireFree_range s (by omega), by omega⟩

/-! ### Several writes in order -/

theorem afterDraws_succ (n : Nat) (o : Oracle) : afterDraws (n + 1) o = afterDraws n (nextDraw o).2 := rfl

/-- All of the writes are acknowledged: their events in order, their bytes known, nothing else (R57, R62). -/
theorem busWrites_ok (ws : List (Byte × Byte)) (s : State) (h : acks ws.length s.oracle) :
    busWrites ws s = .ok ()
      { s with
        oracle := afterDraws ws.length s.oracle
        env := { s.env with dev := writeAll s.env.dev ws }
        trace := s.trace ++ wrEvents s.busAddr ws } := by
  induction ws generalizing s with
  | nil => simp [busWrites, afterDraws, writeAll, wrEvents]
  | cons w rest ih =>
    obtain ⟨reg, b⟩ := w
    rw [List.length_cons, acks_succ] at h
    simp only [busWrites, busWrite_ok h.1, andThen_ok]
    rw [ih _ (by simpa using h.2)]
    simp [State.log, State.withOracle, State.withDev, afterDraws, writeAll, wrEvents]

/-- The write at place `k` is the first to fail: the events of those before it, then its failure (R57). -/
theorem busWrites_fail (ws : List (Byte × Byte)) (s : State) (k : Nat) (hk : k < ws.length)
    (h : failsAt k s.oracle) :
    busWrites ws s = .raised .transport
      { s with
        oracle := afterDraws (k + 1) s.oracle
        env := { s.env with dev := Memory.forget (writeAll s.env.dev (ws.take k)) ws[k].1.toNat }
        trace := s.trace ++ wrEvents s.busAddr (ws.take k) ++ [.fail (.wr s.busAddr ws[k].1 ws[k].2)] } := by
  induction ws generalizing s k with
  | nil => simp at hk
  | cons w rest ih =>
    obtain ⟨reg, b⟩ := w
    cases k with
    | zero =>
      rw [failsAt_zero] at h
      simp [busWrites, busWrite_fail h, State.log, State.withOracle, State.withDev, afterDraws, writeAll, wrEvents]
    | succ k =>
      rw [failsAt_succ] at h
      have hk' : k < rest.length := by simpa using hk
      simp only [busWrites, busWrite_ok h.1, andThen_ok]
      rw [ih _ k hk' (by simpa using h.2)]
      simp [State.log, State.withOracle, State.withDev, afterDraws, writeAll, wrEvents]

/-! ### What a run of external primitives leaves behind -/

/-- From `s` to `t` by external primitives alone, touching device registers of `regs` at most; `failed` says whether the last
of them failed. Everything else is as before. The delay recorded is at least 500 ms on legal parameters (R11). -/
structure Did (regs : List Byte) (s : State) (failed : Bool) (t : State) : Prop where
  phase : t.phase = s.phase
  busAddr : t.busAddr = s.busAddr
  oePin : t.oePin = s.oePin
  freq : t.freq = s.freq
  slot : t.slot = s.slot
  resp : t.resp = s.resp
  params : t.params = s.params
  port : t.port = s.port
  mode : t.oracle.mode = s.oracle.mode
  trace : s.params.wf = true → ∃ ds, (∀ e ∈ ds, doneEvent s.busAddr s.oePin e = true) ∧
    (failed = false → t.trace = s.trace ++ ds) ∧
    (failed = true → ∃ a, attempted s.params.delayMayFail s.busAddr s.oePin a = true ∧ t.trace = s.trace ++ ds ++ [.fail a])
  dev : ∀ a : Nat, (∀ r ∈ regs, a ≠ r.toNat) → Memory.read t.env.dev a = Memory.read s.env.dev a
  wf : Memory.wf s.env.dev = true → Memory.wf t.env.dev = true

theorem Did.refl (regs : List Byte) (s : State) : Did regs s false s := by
  constructor <;> first | rfl | simp

/-- A run that went well, then another run. -/
theorem Did.trans {regs : List Byte} {s t u : State} {f : Bool} (h : Did regs s false t) (h' : Did regs t f u) :
    Did regs s f u where
  phase := h'.phase.trans h.phase
  busAddr := h'.busAddr.trans h.busAddr
  oePin := h'.oePin.trans h.oePin
  freq := h'.freq.trans h.freq
  slot := h'.slot.trans h.slot
  resp := h'.resp.trans h.resp
  params := h'.params.trans h.params
  port := h'.port.trans h.port
  mode := h'.mode.trans h.mode
  trace := fun hp => by
    obtain ⟨ds, hd, h0, -⟩ := h.trace hp
    obtain ⟨es, he, h1, h2⟩ := h'.trace (h.params ▸ hp)
    rw [h.busAddr, h.oePin] at he h2
    rw [h.params] at h2
    refine ⟨ds ++ es, ?_, fun hf => ?_, fun hf => ?_⟩
    · simp only [List.mem_append]
      rintro e (h | h)
      · exact hd e h
      · exact he e h
    · rw [h1 hf, h0 rfl, List.append_assoc]
    · obtain ⟨a, ha, hb⟩ := h2 hf
      exact ⟨a, ha, by rw [hb, h0 rfl]; simp⟩
  dev := fun a ha => (h'.dev a ha).trans (h.dev a ha)
  wf := fun hw => h'.wf (h.wf hw)

theorem Did.mono {regs regs' : List Byte} {s t : State} {f : Bool} (h : Did regs s f t)
    (hr : ∀ r ∈ regs, r ∈ regs') : Did regs' s f t where
  phase := h.phase
  busAddr := h.busAddr
  oePin := h.oePin
  freq := h.freq
  slot := h.slot
  resp := h.resp
  params := h.params
  port := h.port
  mode := h.mode
  trace := h.trace
  dev := fun a ha => h.dev a fun r hr' => ha r (hr r hr')
  wf := h.wf

/-- Everything `busRead` can do. -/
theorem busRead_did (regs : List Byte) (reg : Byte) (s : State) :
    (∃ v t, busRead reg s = .ok v t ∧ Did regs s false t) ∨
    (∃ t, busRead reg s = .raised .transport t ∧ Did regs s true t) := by
  cases h : (nextDraw s.oracle).1.ok with
  | true =>
    refine .inl ⟨_, _, busRead_ok h, ?_⟩
    constructor <;> try (first | rfl | simp; done)
    refine fun _ => ⟨[_], ?_, fun _ => rfl, by simp⟩
    simp [doneEvent]
  | false =>
    refine .inr ⟨_, busRead_fail h, ?_⟩
    constructor <;> try (first | rfl | simp; done)
    refine fun _ => ⟨[], by simp, by simp, fun _ => ⟨.rd s.busAddr reg none, ?_, by simp⟩⟩
    simp [attempted]

/-- Everything `busWrite` can do. -/
theorem busWrite_did (regs : List Byte) (reg b : Byte) (s : State) (hr : reg ∈ regs) :
    (∃ t, busWrite reg b s = .ok () t ∧ Did regs s false t) ∨
    (∃ t, busWrite reg b s = .raised .transport t ∧ Did regs s true t) := by
  cases h : (nextDraw s.oracle).1.ok with
  | true =>
    refine .inl ⟨_, busWrite_ok h, ?_⟩
    constructor <;> try (first | rfl | simp; done)
    · refine fun _ => ⟨[_], ?_, fun _ => rfl, by simp⟩
      simp [doneEvent]
    · exact fun a ha => read_write_ne _ _ (ha reg hr)
    · exact fun hw => write_wf _ _ _ reg.isLt hw
  | false =>
    refine .inr ⟨_, busWrite_fail h, ?_⟩
    constructor <;> try (first | rfl | simp; done)
    · refine fun _ => ⟨[], by simp, by simp, fun _ => ⟨.wr s.busAddr reg b, ?_, by simp⟩⟩
      simp [attempted]
    · exact fun a ha => read_forget_ne _ (ha reg hr)
    · exact fun hw => forget_wf _ _ hw

/-- Everything `pinRead` can do. -/
theorem pinRead_did (regs : List Byte) (s : State) :
    (∃ v t, pinRead s = .ok v t ∧ Did regs s false t) ∨
    (∃ t, pinRead s = .raised .transport t ∧ Did regs s true t) := by
  cases h : (nextDraw s.oracle).1.ok with
  | true =>
    refine .inl ⟨_, _, pinRead_ok h, ?_⟩
    constructor <;> try (first | rfl | simp; done)
    refine fun _ => ⟨[_], ?_, fun _ => rfl, by simp⟩
    simp [doneEvent]
  | false =>
    refine .inr ⟨_, pinRead_fail h, ?_⟩
    constructor <;> try (first | rfl | simp; done)
    refine fun _ => ⟨[], by simp, by simp, fun _ => ⟨.pinR s.oePin none, ?_, by simp⟩⟩
    simp [attempted]

/-- Everything `pinWrite` can do. -/
theorem pinWrite_did (regs : List Byte) (l : Bit) (s : State) :
    (∃ t, pinWrite l s = .ok () t ∧ Did regs s false t) ∨
    (∃ t, pinWrite l s = .raised .transport t ∧ Did regs s true t) := by
  cases h : (nextDraw s.oracle).1.ok with
  | true =>
    refine .inl ⟨_, pinWrite_ok h, ?_⟩
    constructor <;> try (first | rfl | simp; done)
    refine fun _ => ⟨[_], ?_, fun _ => rfl, by simp⟩
    simp [doneEvent]
  | false =>
    refine .inr ⟨_, pinWrite_fail h, ?_⟩
    constructor <;> try (first | rfl | simp; done)
    refine fun _ => ⟨[], by simp, by simp, fun _ => ⟨.pinW s.oePin l, ?_, by simp⟩⟩
    simp [attempted]

/-- Everything `delay` can do. -/
theorem delay_did (regs : List Byte) (s : State) :
    (∃ t, delay s = .ok () t ∧ Did regs s false t) ∨
    (∃ t, delay s = .raised .transport t ∧ Did regs s true t) := by
  by_cases h : s.params.delayMayFail = true ∧ (nextDraw s.oracle).1.ok = false
  · refine .inr ⟨_, delay_fail h.1 h.2, ?_⟩
    constructor <;> try (first | rfl | simp; done)
    refine fun hp => ⟨[], by simp, by simp, fun _ => ⟨.dly s.params.settleMs, ?_, by simp⟩⟩
    simp [Config.Params.wf] at hp
    simp [attempted, h.1, hp]
  · refine .inl ⟨_, delay_ok fun k hk => ?_, ?_⟩
    · cases hm : s.params.delayMayFail <;> simp_all [delayDraws, drawAt, afterDraws]
    constructor <;> try (first | rfl | simp; done)
    refine fun hp => ⟨[_], ?_, fun _ => rfl, by simp⟩
    simp [Config.Params.wf] at hp
    simp [doneEvent, hp]

/-- Everything `busWrites` can do. -/
theorem busWrites_did (regs : List Byte) (ws : List (Byte × Byte)) (s : State) (hr : ∀ w ∈ ws, w.1 ∈ regs) :
    (∃ t, busWrites ws s = .ok () t ∧ Did regs s false t) ∨
    (∃ t, busWrites ws s = .raised .transport t ∧ Did regs s true t) := by
  induction ws generalizing s with
  | nil => exact .inl ⟨s, rfl, Did.refl regs s⟩
  | cons w rest ih =>
    obtain ⟨reg, b⟩ := w
    rcases busWrite_did regs reg b s (hr _ List.mem_cons_self) with ⟨t, ht, hd⟩ | ⟨t, ht, hd⟩
    · rcases ih t (fun w hw => hr w (List.mem_cons_of_mem _ hw)) with ⟨u, hu, hd'⟩ | ⟨u, hu, hd'⟩
      · exact .inl ⟨u, by simp [busWrites, ht, hu], hd.trans hd'⟩
      · exact .inr ⟨u, by simp [busWrites, ht, hu], hd.trans hd'⟩
    · exact .inr ⟨t, by simp [busWrites, ht], hd⟩

end Machine
end Sys2Proof
end

