-- ==== Sys2Proof/Laws/Operands.lean ====
section
/-! SUPPORT. What the arithmetic helpers and the shared subroutines can do, said once: the integer rounding is the rounding of
the rational, `set_pwm_core` (41_channel.md R127) and the SET_FREQ sequence (40_controller.md R107) in each outcome. -/

namespace Sys2Proof
namespace Machine

/-- The floor of a quotient of integers is the integer quotient (R17). -/
theorem floor_div (n : Int) (d : Nat) : ((n : Rat) / (d : Rat)).floor = n / d := by
  show ⌊(n : Rat) / (d : Rat)⌋ = _
  exact Rat.floor_intCast_div_natCast n d

/-- `roundDiv` is `round` of the rational (R18). -/
theorem roundDiv_eq_roundRat (n : Int) (d : Nat) (hd : 0 < d) : roundDiv n d = roundRat ((n : Rat) / (d : Rat)) := by
  have hdq : (0 : Rat) < d := by exact_mod_cast hd
  have h0 : (0 ≤ (n : Rat) / d) ↔ 0 ≤ n := by
    rw [div_nonneg_iff]
    constructor
    · rintro (⟨h, _⟩ | ⟨_, h⟩)
      · exact_mod_cast h
      · exact absurd h (not_le.mpr hdq)
    · intro h; exact .inl ⟨by exact_mod_cast h, hdq.le⟩
  have key : ∀ m : Int, ((m : Rat) / d + 1 / 2).floor = (2 * m + d) / (2 * d) := by
    intro m
    have : (m : Rat) / d + 1 / 2 = ((2 * m + d : Int) : Rat) / ((2 * d : Nat) : Rat) := by
      push_cast; field_simp
    rw [this, floor_div]; push_cast; rfl
  unfold roundDiv roundRat
  simp only [h0]
  split
  · exact (key n).symm
  · rw [← key (-n)]; push_cast; rw [neg_div]

/-- Rounding is monotone in the numerator. -/
theorem roundDiv_mono (d : Int) (hd : 0 < d) (m n : Int) (h : m ≤ n) : roundDiv m d ≤ roundDiv n d := by
  unfold roundDiv
  have h2 : 0 < 2 * d := by omega
  split
  · split
    · exact Int.ediv_le_ediv h2 (by omega)
    · omega
  · split
    · have : 0 ≤ (2 * n + d) / (2 * d) := Int.ediv_nonneg (by omega) (by omega)
      have : 0 ≤ (2 * -m + d) / (2 * d) := Int.ediv_nonneg (by omega) (by omega)
      omega
    · have := Int.ediv_le_ediv h2 (by omega : 2 * -n + d ≤ 2 * -m + d)
      omega

/-- The bytes of a legal step: quotient and remainder by 256 (R86 to R88). -/
theorem lowByte_eq (v : Nat) : lowByte v = BitVec.ofNat 8 (v % 256) := by
  have : v &&& 0xFF = v % 2 ^ 8 := Nat.and_two_pow_sub_one_eq_mod v 8
  rw [lowByte, this]; rfl

theorem highByte_eq (v : Nat) : highByte v = BitVec.ofNat 8 (v / 256) := by
  rw [highByte, Nat.shiftRight_eq_div_pow]

/-- The writes of `set_pwm_core` (R90, R127). -/
theorem chanWrites_encPwm (p : Config.Params) (i : Fin 16) (on off : Nat) :
    chanWrites p i (encPwm on off) = fourWrites p i on off := by
  simp [chanWrites, encPwm, fourWrites, highByte_eq, lowByte_eq]

/-- `set_pwm_core` refuses a step outside 0..4095 before any write (R127). -/
theorem setPwmCore_range {i : Fin 16} {on off : Int} {s : State}
    (h : on < 0 ∨ 4095 < on ∨ off < 0 ∨ 4095 < off) : setPwmCore i on off s = .raised .range s := by
  unfold setPwmCore; exact if_pos h

/-- `set_pwm_core` on legal steps, every write acknowledged (R127). -/
theorem setPwmCore_ok (i : Fin 16) (on off : Nat) (s : State) (h1 : on ≤ 4095) (h2 : off ≤ 4095)
    (ha : acks 4 s.oracle) :
    setPwmCore i on off s = .ok () (State.storeSteps
      { s with
        oracle := afterDraws 4 s.oracle
        env := { s.env with dev := writeAll s.env.dev (fourWrites s.params i on off) }
        trace := s.trace ++ wrEvents s.busAddr (fourWrites s.params i on off) }
      i (BitVec.ofInt 12 on) (BitVec.ofInt 12 off)) := by
  unfold setPwmCore
  rw [if_neg (by simp only [Config.stepMax]; omega)]
  simp only [Int.toNat_natCast, chanWrites_encPwm]
  rw [busWrites_ok (fourWrites s.params i on off) s ha]; rfl

/-- `set_pwm_core` on legal steps, write `k` the first to fail: nothing is stored (R127). -/
theorem setPwmCore_fail (i : Fin 16) (on off : Nat) (s : State) (h1 : on ≤ 4095) (h2 : off ≤ 4095)
    (k : Nat) (hk : k < 4) (hf : failsAt k s.oracle) :
    setPwmCore i on off s = busWrites (fourWrites s.params i on off) s := by
  unfold setPwmCore
  rw [if_neg (by simp only [Config.stepMax]; omega)]
  simp only [Int.toNat_natCast, chanWrites_encPwm]
  rw [busWrites_fail (fourWrites s.params i on off) s k hk hf]; rfl

/-- Everything `set_pwm_core` can do. -/
theorem setPwmCore_did (regs : List Byte) (i : Fin 16) (on off : Int) (s : State)
    (hr : ∀ r ∈ chanRegs s.params i, r ∈ regs) :
    setPwmCore i on off s = .raised .range s ∨
    (∃ t, setPwmCore i on off s = .raised .transport t ∧ Did regs s true t) ∨
    (∃ t, setPwmCore i on off s = .ok () (t.storeSteps i (BitVec.ofInt 12 on) (BitVec.ofInt 12 off)) ∧
      Did regs s false t) := by
  unfold setPwmCore
  split
  · exact .inl rfl
  · have hw : ∀ w ∈ chanWrites s.params i (encPwm on.toNat off.toNat), w.1 ∈ regs := by
      intro w hw
      apply hr
      simp [chanWrites, encPwm] at hw
      rcases hw with rfl | rfl | rfl | rfl <;> simp [chanRegs]
    rcases busWrites_did regs _ s hw with ⟨t, h, d⟩ | ⟨t, h, d⟩
    · exact .inr (.inr ⟨t, by simp [h], d⟩)
    · exact .inr (.inl ⟨t, by simp [h], d⟩)

/-- Everything the SET_FREQ sequence can do (R107, R108). -/
theorem setFreqSequence_did (p : Byte) (s : State) :
    (∃ t, setFreqSequence p s = .ok () t ∧ Did [s.params.addrMode1, s.params.addrPrescale] s false t) ∨
    (∃ t, setFreqSequence p s = .raised .transport t ∧ Did [s.params.addrMode1, s.params.addrPrescale] s true t) := by
  unfold setFreqSequence
  rcases busRead_did [s.params.addrMode1, s.params.addrPrescale] s.params.addrMode1 s with ⟨old, t, h, d⟩ | ⟨t, h, d⟩
  · rcases busWrite_did [s.params.addrMode1, s.params.addrPrescale] t.params.addrMode1 (sleepByte old) t
      (by simp [d.params]) with ⟨u, h1, d1⟩ | ⟨u, h1, d1⟩
    · replace d1 := d.trans d1
      rcases busWrite_did [s.params.addrMode1, s.params.addrPrescale] u.params.addrPrescale p u
        (by simp [d1.params]) with ⟨v, h2, d2⟩ | ⟨v, h2, d2⟩
      · replace d2 := d1.trans d2
        rcases delay_did [s.params.addrMode1, s.params.addrPrescale] v with ⟨w, h3, d3⟩ | ⟨w, h3, d3⟩
        · replace d3 := d2.trans d3
          rcases busWrite_did [s.params.addrMode1, s.params.addrPrescale] w.params.addrMode1 (restartByte old) w
            (by simp [d3.params]) with ⟨x, h4, d4⟩ | ⟨x, h4, d4⟩
          · exact .inl ⟨x, by simp [h, h1, h2, h3, h4], d3.trans d4⟩
          · exact .inr ⟨x, by simp [h, h1, h2, h3, h4], d3.trans d4⟩
        · exact .inr ⟨w, by simp [h, h1, h2, h3], d2.trans d3⟩
      · exact .inr ⟨v, by simp [h, h1, h2], d1.trans d2⟩
    · exact .inr ⟨u, by simp [h, h1], d.trans d1⟩
  · exact .inr ⟨t, by simp [h], d⟩

end Machine
end Sys2Proof
end

