-- ==== Sys2Proof/Laws/PerInstr.lean ====
section
/-! SUPPORT. Per-instruction statements over the syntax: for each command, its word carries its OP and leaves the reserved
bits of its format zero (30_encoding.md R67, R78), so the word is never ILLEGAL (R79). -/

namespace Sys2Proof
namespace Laws
namespace LegalWord

open BitVec

/-- The word of `i` carries the OP of `i`, and every reserved bit of its format is 0. -/
def Statement (i : Instr) : Prop :=
  opOfCode (fieldOp (encode i)) = some i.op ∧ encode i &&& i.op.format.reserved = 0#64

theorem opOfCode_code (op : Op) : opOfCode op.code = some op := by cases op <;> decide

theorem oeGet : Statement .oeGet := by unfold Statement; decide

theorem oeSet (v : Bit) : Statement (.oeSet v) := by unfold Statement; revert v; decide

theorem setFreq (f : BitVec 32) : Statement (.setFreq f) := by
  constructor
  · have : fieldOp (encode (.setFreq f)) = Op.code .setFreq := by
      unfold fieldOp encode
      rw [extractLsb'_append_eq_of_le (by decide), extractLsb'_append_eq_of_le (by decide)]
      exact extractLsb'_eq_self
    rw [this]; exact opOfCode_code _
  · have h : Format.reserved .F = 0#8 ++ 0xFFFFFF#24 ++ 0#32 := by decide
    show encode (.setFreq f) &&& Format.reserved .F = 0#64
    rw [h]; unfold encode
    rw [and_append, and_append]
    simp only [and_zero, zero_and]; decide

/-- The commands of format C: OP, CH and 48 zero bits. -/
theorem formatC (op : Op) (ch : Byte) :
    opOfCode (fieldOp (op.code ++ ch ++ 0#48)) = some op ∧ (op.code ++ ch ++ 0#48) &&& Format.reserved .C = 0#64 := by
  constructor
  · have : fieldOp (op.code ++ ch ++ 0#48) = op.code := by
      unfold fieldOp
      rw [extractLsb'_append_eq_of_le (by decide), extractLsb'_append_eq_of_le (by decide)]
      exact extractLsb'_eq_self
    rw [this]; exact opOfCode_code _
  · have h : Format.reserved .C = 0#8 ++ 0#8 ++ 0xFFFFFFFFFFFF#48 := by decide
    rw [h, and_append, and_append]
    simp only [and_zero, zero_and]; decide

theorem regCh (ch : Byte) : Statement (.regCh ch) := formatC .regCh ch

theorem lookupCh (ch : Byte) : Statement (.lookupCh ch) := formatC .lookupCh ch

theorem dropCh (ch : Byte) : Statement (.dropCh ch) := formatC .dropCh ch

theorem readReg (addr : Byte) : Statement (.readReg addr) := by
  constructor
  · have : fieldOp (encode (.readReg addr)) = Op.code .readReg := by
      unfold fieldOp encode
      rw [extractLsb'_append_eq_of_le (by decide), extractLsb'_append_eq_of_le (by decide),
        extractLsb'_append_eq_of_le (by decide)]
      exact extractLsb'_eq_self
    rw [this]; exact opOfCode_code _
  · have h : Format.reserved .RA = 0#8 ++ 0xFFFFFFFFFF#40 ++ 0#8 ++ 0xFF#8 := by decide
    show encode (.readReg addr) &&& Format.reserved .RA = 0#64
    rw [h]; unfold encode
    rw [and_append, and_append, and_append]
    simp only [and_zero, zero_and]; decide

theorem writeReg (addr data : Byte) : Statement (.writeReg addr data) := by
  constructor
  · have : fieldOp (encode (.writeReg addr data)) = Op.code .writeReg := by
      unfold fieldOp encode
      rw [extractLsb'_append_eq_of_le (by decide), extractLsb'_append_eq_of_le (by decide),
        extractLsb'_append_eq_of_le (by decide)]
      exact extractLsb'_eq_self
    rw [this]; exact opOfCode_code _
  · have h : Format.reserved .RW = 0#8 ++ 0xFFFFFFFFFF#40 ++ 0#8 ++ 0#8 := by decide
    show encode (.writeReg addr data) &&& Format.reserved .RW = 0#64
    rw [h]; unfold encode
    rw [and_append, and_append, and_append]
    simp only [and_zero, zero_and]; decide

theorem setPwm (ch : Byte) (on off : BitVec 16) : Statement (.setPwm ch on off) := by
  constructor
  · have : fieldOp (encode (.setPwm ch on off)) = Op.code .setPwm := by
      unfold fieldOp encode
      rw [extractLsb'_append_eq_of_le (by decide), extractLsb'_append_eq_of_le (by decide),
        extractLsb'_append_eq_of_le (by decide), extractLsb'_append_eq_of_le (by decide)]
      exact extractLsb'_eq_self
    rw [this]; exact opOfCode_code _
  · have h : Format.reserved .P = 0#8 ++ 0#8 ++ 0xFFFF#16 ++ 0#16 ++ 0#16 := by decide
    show encode (.setPwm ch on off) &&& Format.reserved .P = 0#64
    rw [h]; unfold encode
    rw [and_append, and_append, and_append, and_append]
    simp only [and_zero, zero_and]; decide

theorem setFullOn (ch : Byte) : Statement (.setFullOn ch) := formatC .setFullOn ch

theorem setFullOff (ch : Byte) : Statement (.setFullOff ch) := formatC .setFullOff ch

theorem regServo (ch : Byte) (minPw maxPw : BitVec 16) (maxAngle : BitVec 15) (ign : Bit) :
    Statement (.regServo ch minPw maxPw maxAngle ign) := by
  constructor
  · have : fieldOp (encode (.regServo ch minPw maxPw maxAngle ign)) = Op.code .regServo := by
      unfold fieldOp encode
      rw [extractLsb'_append_eq_of_le (by decide), extractLsb'_append_eq_of_le (by decide),
        extractLsb'_append_eq_of_le (by decide), extractLsb'_append_eq_of_le (by decide),
        extractLsb'_append_eq_of_le (by decide)]
      exact extractLsb'_eq_self
    rw [this]; exact opOfCode_code _
  · exact and_zero

/-- The commands of format V: OP, CH, 16 zero bits and a 32-bit value. -/
theorem formatV (op : Op) (ch : Byte) (x : BitVec 32) :
    opOfCode (fieldOp (op.code ++ ch ++ 0#16 ++ x)) = some op ∧
      (op.code ++ ch ++ 0#16 ++ x) &&& Format.reserved .V = 0#64 := by
  constructor
  · have : fieldOp (op.code ++ ch ++ 0#16 ++ x) = op.code := by
      unfold fieldOp
      rw [extractLsb'_append_eq_of_le (by decide), extractLsb'_append_eq_of_le (by decide),
        extractLsb'_append_eq_of_le (by decide)]
      exact extractLsb'_eq_self
    rw [this]; exact opOfCode_code _
  · have h : Format.reserved .V = 0#8 ++ 0#8 ++ 0xFFFF#16 ++ 0#32 := by decide
    rw [h, and_append, and_append, and_append]
    simp only [and_zero, zero_and]; decide

theorem setAngle (ch : Byte) (v : Int) : Statement (.setAngle ch v) := formatV .setAngle ch _

theorem setPw (ch : Byte) (v : Int) : Statement (.setPw ch v) := formatV .setPw ch _

end LegalWord
end Laws
end Sys2Proof
end

