-- ==== Sys2Proof/Tests/Slice0.lean ====
section
/-! SUPPORT. Tests by `decide` on small states, every expected value taken from the spec's own tables (30_encoding.md R91,
95_test_vectors.md), and one witness theorem for the hypotheses of each obligation that has any. -/

namespace Sys2Proof
namespace Tests

open Sys2Proof.Machine

/-! ### Small states -/

/-- An interaction that succeeds, a read answering 0x11 and a high pin. -/
def okDraw : Draw := { ok := true, byte := 0x11#8, level := 1#1 }

/-- An interaction that fails. -/
def noDraw : Draw := { ok := false, byte := 0x00#8, level := 0#1 }

/-- `k` interactions that succeed, then one that fails. -/
def failing (k : Nat) : Oracle := { mode := .draws, draws := List.replicate k okDraw ++ [noDraw], drawn := 0 }

/-- Five interactions that succeed. -/
def working : Oracle := { mode := .draws, draws := List.replicate 5 okDraw, drawn := 0 }

/-- Reset, with `v` in slot `i`, the active frequency, and the answers. -/
def small (i : Fin 16) (v : Slot) (f : Option (BitVec 32)) (o : Oracle) : State :=
  { State.reset with slot := State.reset.slot.set i v, freq := f, oracle := o }

/-- Reset under the reference oracle of 95_test_vectors.md, with `v` in slot `i`, the frequency and the known registers. -/
def refer (i : Fin 16) (v : Slot) (f : Option (BitVec 32)) (dev : Memory) : State :=
  { small i v f { mode := .reference, draws := [], drawn := 0 } with env := { dev := dev, pin := none } }

/-- The same state in R20's reading of the delay (log entry 18). -/
def delayFailing (s : State) : State := { s with params := { s.params with delayMayFail := true } }

/-- A plain channel with stored steps. -/
def chanX : Slot := .chan { onStep := some 7#12, offStep := some 9#12 }

/-- Servo A of 95_test_vectors.md L2.9. -/
def recA : ServoRec :=
  { minPw := 1000#16, maxPw := 2000#16, maxAngle := 180#15, ignore := false, angle := none, pw := none }

/-- Servo B of L2.9. -/
def recB : ServoRec :=
  { minPw := 500#16, maxPw := 2500#16, maxAngle := 270#15, ignore := true, angle := none, pw := none }

def servoA : Slot := .servo freshChan recA
def servoA' : Slot := .servo freshChan { recA with ignore := true }
def servoB : Slot := .servo freshChan recB

/-- The state after the word `w` is presented and one step is taken. -/
def after (w : CmdWord) (s : State) : Option State :=
  match step (s.present w) with
  | .next t => some t
  | .fault _ => none
  | .refused _ => none

/-- What a test looks at: the command's events, and the response. -/
def seen (t : State) : List Event × Option (Byte × Byte) := (t.trace.drop 2, t.resp)

/-- An acknowledged write to the device at 0x40. -/
def wr (reg b : Byte) : Event := .wr 0x40#7 reg b

/-! ### WellFormed: the one check refuses an ill-formed term -/

theorem test_wellFormed_setAngle_high : (Instr.setAngle 0#8 2147483648).wellFormed = false := by decide
theorem test_wellFormed_setAngle_low : (Instr.setAngle 0#8 (-2147483649)).wellFormed = false := by decide
theorem test_wellFormed_setPw_high : (Instr.setPw 0#8 2147483648).wellFormed = false := by decide
theorem test_wellFormed_setPw_low : (Instr.setPw 0#8 (-2147483649)).wellFormed = false := by decide
theorem test_wellFormed_ends :
    (Instr.setAngle 255#8 (-2147483648)).wellFormed = true ∧ (Instr.setPw 255#8 2147483647).wellFormed = true := by
  decide
theorem test_params_refused :
    (Config.Params.default.wf = true) ∧ ({ Config.Params.default with settleMs := 499 } : Config.Params).wf = false ∧
    ({ Config.Params.default with addrLed0OnL := 0xC1#8 } : Config.Params).wf = false ∧
    ({ Config.Params.default with addrLed0OnL := 0xC0#8 } : Config.Params).wf = true := by decide

/-! ### Decode: words written out from R69 to R78 -/

theorem test_decode_oeGet : decode 0x0100000000000000#64 = .ok .oeGet := by decide
theorem test_decode_oeSet : decode 0x0200000000000001#64 = .ok (.oeSet 1#1) := by decide
theorem test_decode_setFreq : decode 0x0300000000002FAF#64 = .ok (.setFreq 12207#32) := by decide
theorem test_decode_regCh : decode 0x0405000000000000#64 = .ok (.regCh 5#8) := by decide
theorem test_decode_lookupCh : decode 0x05FF000000000000#64 = .ok (.lookupCh 255#8) := by decide
theorem test_decode_dropCh : decode 0x0605000000000000#64 = .ok (.dropCh 5#8) := by decide
theorem test_decode_readReg : decode 0x070000000000FE00#64 = .ok (.readReg 0xFE#8) := by decide
theorem test_decode_writeReg : decode 0x0800000000001A23#64 = .ok (.writeReg 0x1A#8 0x23#8) := by decide
theorem test_decode_setPwm : decode 0x10010000006400C8#64 = .ok (.setPwm 1#8 100#16 200#16) := by decide
theorem test_decode_setFullOn : decode 0x110F000000000000#64 = .ok (.setFullOn 15#8) := by decide
theorem test_decode_setFullOff : decode 0x1205000000000000#64 = .ok (.setFullOff 5#8) := by decide
theorem test_decode_regServo :
    decode 0x2001810E01F409C4#64 = .ok (.regServo 1#8 500#16 2500#16 270#15 1#1) := by decide
theorem test_decode_setAngle : decode 0x21010000FFFFFFF6#64 = .ok (.setAngle 1#8 (-10)) := by decide
theorem test_decode_setPw : decode 0x2201000000007530#64 = .ok (.setPw 1#8 30000) := by decide

/-- Words of L2.1 that do not decode. -/
theorem test_decode_unlisted :
    decode 0x0900000000000000#64 = .error (.unknownOp 0x09#8) ∧ decode 0x1300000000000000#64 = .error (.unknownOp 0x13#8) ∧
    decode 0x2300000000000000#64 = .error (.unknownOp 0x23#8) ∧ decode 0xFF00000000000000#64 = .error (.unknownOp 0xFF#8) := by
  decide
theorem test_decode_reserved :
    decode 0x0101000000000000#64 = .error (.reservedBits .oeGet) ∧ decode 0x0200000000000002#64 = .error (.reservedBits .oeSet) ∧
    decode 0x0300000100000032#64 = .error (.reservedBits .setFreq) ∧
    decode 0x070000000000FE01#64 = .error (.reservedBits .readReg) ∧
    decode 0x0800000000011A23#64 = .error (.reservedBits .writeReg) ∧
    decode 0x1005000101230ABC#64 = .error (.reservedBits .setPwm) ∧
    decode 0x1105800000000000#64 = .error (.reservedBits .setFullOn) ∧
    decode 0x2100800000000000#64 = .error (.reservedBits .setAngle) := by decide

/-! ### One step each, from the vectors of 95_test_vectors.md -/

/-- L2.2: the pin read answers 0 under any oracle. -/
theorem test_oeGet_low :
    (after 0x0100000000000000#64 (small 0 .absent none
      { mode := .draws, draws := [{ ok := true, byte := 0x00#8, level := 0#1 }], drawn := 0 })).map seen =
    some ([.pinR 17 (some 0#1)], some (0x00#8, 0x01#8)) := by decide

/-- L2.2: the pin read fails. -/
theorem test_oeGet_fails :
    (after 0x0100000000000000#64 (small 0 .absent none (failing 0))).map seen =
    some ([.fail (.pinR 17 none)], some (0x04#8, 0x00#8)) := by decide

/-- L2.2. -/
theorem test_oeSet_one :
    (after 0x0200000000000001#64 (refer 0 .absent none [])).map (fun t => (seen t, t.env.pin)) =
    some (([.pinW 17 0#1], some (0x00#8, 0x00#8)), some 0#1) := by decide

/-- L2.2. -/
theorem test_oeSet_zero :
    (after 0x0200000000000000#64 (refer 0 .absent none [])).map seen =
    some ([.pinW 17 1#1], some (0x00#8, 0x00#8)) := by decide

/-- Program 4, step 1: prescale 101 (90_conflicts.md C1), bit 5 of MODE1 carried. -/
theorem test_setFreq_60 :
    (after 0x030000000000003C#64 (refer 0 .absent none [(0x00, 0x20#8)])).map (fun t => (seen t, t.freq)) =
    some (([.rd 0x40#7 0x00#8 (some 0x20#8), wr 0x00#8 0x30#8, wr 0xFE#8 0x65#8, .dly 500, wr 0x00#8 0xA0#8],
      some (0x00#8, 0x00#8)), some 60#32) := by decide

/-- L2.3: step 3 fails, the frequency stays. -/
theorem test_setFreq_fails :
    (after 0x030000000000003C#64 (small 0 .absent (some 50#32) { failing 2 with
      draws := { okDraw with byte := 0x00#8 } :: (failing 1).draws })).map (fun t => (seen t, t.freq)) =
    some (([.rd 0x40#7 0x00#8 (some 0x00#8), wr 0x00#8 0x10#8, .fail (wr 0xFE#8 0x65#8)],
      some (0x04#8, 0x00#8)), some 50#32) := by decide

/-- R20 and R57: in the reading where the delay may fail, its failure ends SET_FREQ after step 3. -/
theorem test_setFreq_delay_fails :
    (after 0x030000000000003C#64 (delayFailing (small 0 .absent (some 50#32) { failing 3 with
      draws := { okDraw with byte := 0x00#8 } :: (failing 2).draws }))).map (fun t => (seen t, t.freq)) =
    some (([.rd 0x40#7 0x00#8 (some 0x00#8), wr 0x00#8 0x10#8, wr 0xFE#8 0x65#8, .fail (.dly 500)],
      some (0x04#8, 0x00#8)), some 50#32) := by decide

/-- L2.3, the prescale column. -/
theorem test_presc :
    presc 1 = 6103 ∧ presc 23 = 264 ∧ presc 24 = 253 ∧ presc 25 = 243 ∧ presc 40 = 152 ∧ presc 50 = 121 ∧ presc 60 = 101 ∧
    presc 200 = 30 ∧ presc 1000 = 5 ∧ presc 1526 = 3 ∧ presc 12207 = 0 ∧ presc 12208 = -1 ∧ presc 4294967295 = -1 := by
  decide

/-- L2.4. -/
theorem test_regCh_15 :
    (after 0x040F000000000000#64 (refer 0 .absent none [])).map (fun t => (seen t, t.getSlot 15)) =
    some (([], some (0x00#8, 0x00#8)), .chan { onStep := none, offStep := none }) := by decide

/-- L2.4: a servo slot conflicts. -/
theorem test_regCh_conflict :
    (after 0x0403000000000000#64 (refer 3 servoA none [])).map (fun t => (seen t, t.getSlot 3)) =
    some (([], some (0x02#8, 0x00#8)), servoA) := by decide

/-- L2.4. -/
theorem test_lookupCh_servo :
    (after 0x0503000000000000#64 (refer 3 servoA none [])).map seen = some ([], some (0x00#8, 0x01#8)) := by decide
theorem test_lookupCh_absent :
    (after 0x0504000000000000#64 (refer 3 servoA none [])).map seen = some ([], some (0x03#8, 0x00#8)) := by decide

/-- L2.4. -/
theorem test_dropCh :
    (after 0x0603000000000000#64 (refer 3 chanX none [])).map (fun t => (seen t, t.getSlot 3)) =
    some (([], some (0x00#8, 0x00#8)), .absent) := by decide
theorem test_dropCh_range :
    (after 0x0610000000000000#64 (refer 3 chanX none [])).map (fun t => (seen t, t.getSlot 3)) =
    some (([], some (0x01#8, 0x00#8)), chanX) := by decide

/-- L2.5. -/
theorem test_readReg :
    (after 0x070000000000FE00#64 (refer 0 .absent none [(0xFE, 0x79#8)])).map seen =
    some ([.rd 0x40#7 0xFE#8 (some 0x79#8)], some (0x00#8, 0x79#8)) := by decide

/-- L2.5: the frequency does not follow a raw write. -/
theorem test_writeReg_prescale :
    (after 0x080000000000FE03#64 (refer 0 .absent (some 50#32) [(0xFE, 0x79#8)])).map
      (fun t => (seen t, t.freq, t.env.dev)) =
    some (([wr 0xFE#8 0x03#8], some (0x00#8, 0x00#8)), some 50#32, [(0xFE, 0x03#8)]) := by decide

/-- L2.6. -/
theorem test_setPwm :
    (after 0x1005000001230ABC#64 (refer 5 chanX none [])).map (fun t => (seen t, t.getSlot 5)) =
    some (([wr 0x1A#8 0x23#8, wr 0x1B#8 0x01#8, wr 0x1C#8 0xBC#8, wr 0x1D#8 0x0A#8], some (0x00#8, 0x00#8)),
      .chan { onStep := some 0x123#12, offStep := some 0xABC#12 }) := by decide

/-- L2.6: the third write fails. -/
theorem test_setPwm_fails :
    (after 0x1005000001230ABC#64 (small 5 chanX none (failing 2))).map (fun t => (seen t, t.getSlot 5)) =
    some (([wr 0x1A#8 0x23#8, wr 0x1B#8 0x01#8, .fail (wr 0x1C#8 0xBC#8)], some (0x04#8, 0x00#8)), chanX) := by decide

/-- L2.7. -/
theorem test_setFullOn_15 :
    (after 0x110F000000000000#64 (refer 15 chanX none [])).map (fun t => (seen t, t.getSlot 15)) =
    some (([wr 0x43#8 0x10#8, wr 0x45#8 0x00#8], some (0x00#8, 0x00#8)), chanX) := by decide
theorem test_setFullOff_5 :
    (after 0x1205000000000000#64 (refer 5 servoA none [])).map (fun t => (seen t, t.getSlot 5)) =
    some (([wr 0x1B#8 0x00#8, wr 0x1D#8 0x10#8], some (0x00#8, 0x00#8)), servoA) := by decide

/-- L2.8. -/
theorem test_regServo :
    (after 0x2001810E01F409C4#64 (refer 0 .absent none [])).map (fun t => (seen t, t.getSlot 1)) =
    some (([], some (0x00#8, 0x00#8)), servoB) := by decide
theorem test_regServo_conflict_before_bounds :
    (after 0x20030000000A0005#64 (refer 3 chanX none [])).map (fun t => (seen t, t.getSlot 3)) =
    some (([], some (0x02#8, 0x00#8)), chanX) := by decide

/-- L2.9, servo A at 50 Hz: angle 200 is clamped to 180. -/
theorem test_setAngle_clamped :
    (after 0x21000000000000C8#64 (refer 0 servoA (some 50#32) [])).map (fun t => (seen t, t.getSlot 0)) =
    some (([wr 0x06#8 0x00#8, wr 0x07#8 0x00#8, wr 0x08#8 0x9A#8, wr 0x09#8 0x01#8], some (0x00#8, 0x00#8)),
      .servo { onStep := some 0#12, offStep := some 410#12 } { recA with angle := some 180, pw := some 2000 }) := by
  decide

/-- L2.9, servo A' at 50 Hz: angle -1000 stores -4556 µs and is out of range. -/
theorem test_setAngle_range :
    (after 0x21000000FFFFFC18#64 (refer 0 servoA' (some 50#32) [])).map (fun t => (seen t, t.getSlot 0)) =
    some (([], some (0x01#8, 0x00#8)),
      .servo freshChan { recA with ignore := true, angle := some (-1000), pw := some (-4556) }) := by decide

/-- Program 1, step 5. -/
theorem test_setPw :
    (after 0x22000000000004E2#64 (refer 0 servoA (some 50#32) [])).map (fun t => (seen t, t.getSlot 0)) =
    some (([wr 0x06#8 0x00#8, wr 0x07#8 0x00#8, wr 0x08#8 0x00#8, wr 0x09#8 0x01#8], some (0x00#8, 0x00#8)),
      .servo { onStep := some 0#12, offStep := some 256#12 } { recA with pw := some 1250 }) := by decide

/-- Program 3, step 8. -/
theorem test_setPw_unconfigured :
    (after 0x22040000000005DC#64 (refer 4 servoA none [])).map (fun t => (seen t, t.getSlot 4)) =
    some (([], some (0x05#8, 0x00#8)), servoA) := by decide

/-- L2.10: the rounding of a negative step count, and the largest pulse widths that fit. -/
theorem test_stepsOf :
    stepsOf (-1) 50 = 0 ∧ stepsOf (-2) 50 = 0 ∧ stepsOf (-3) 50 = -1 ∧ stepsOf 3 50 = 1 ∧ stepsOf 19997 50 = 4095 ∧
    stepsOf 19998 50 = 4096 ∧ stepsOf 41661 24 = 4095 ∧ stepsOf 41662 24 = 4096 ∧ stepsOf 81 12207 = 4050 := by decide

/-- L2.9: the pulse width of servo B and of servo A' at a negative angle. -/
theorem test_pwReq : pwReq recB (-10) = 425 ∧ pwReq recB 300 = 2722 ∧ pwReq recA (-10) = 944 ∧ pwReq recA 179 = 1994 := by
  decide

/-- L2.1: ILLEGAL precedes the index check. -/
theorem test_illegal :
    (after 0x0410000100000000#64 (refer 0 servoA (some 50#32) [])).map seen = some ([], some (0x06#8, 0x00#8)) := by
  decide

/-- With no word presented nothing changes (R41). -/
theorem test_idle : step State.reset = .next State.reset := by rfl

/-- The block of Program 5: the pin collaborator fails to initialise. -/
def broken : State := construct Config.Params.default 0x40#7 17 { dev := [], pin := none } (failing 1)

/-- Program 5. -/
theorem test_construct_fails : broken.trace = [.initBus 0x40#7, .fail (.initPin 17)] := by decide
theorem test_construct_failed_no_step : step (broken.present 0x0100000000000000#64) = .fault .initFault := by rfl

/-- R183 and R101: a level known before construction is not known after it (log entry 7). -/
theorem test_construct_forgets_pin :
    (construct Config.Params.default 0x40#7 17 { dev := [(0xFE, 0x79#8)], pin := some 1 } working).env =
      { dev := [(0xFE, 0x79#8)], pin := none } := by decide

/-- `withFetchWord` makes the next step run its word. -/
theorem test_withFetchWord :
    (match step (State.reset.withFetchWord 64 0x0405000000000000) with
      | .next t => some (t.resp, t.port)
      | .fault _ => none
      | .refused _ => none) = some (some (0x00#8, 0x00#8), []) := by decide

/-! ### The assembler (R83, R92 to R96) -/

theorem test_assemble_minus_one : (parseLine "REG_CH -1").bind assemble = some [.regCh 255#8] := by decide
theorem test_assemble_hex :
    (parseLine "SET_PWM 5, 0x123, 0xABC").bind assemble = some [.setPwm 5#8 0x123#16 0xABC#16] := by decide
theorem test_assemble_quiesce :
    (parseLine "QUIESCE_DROP 5").bind assemble = some [.setFullOff 5#8, .dropCh 5#8] := by decide
theorem test_assemble_default :
    ((parseLine "REG_SERVO_DEFAULT 0").bind assemble).map (List.map encode) = some [0x200000B403E807D0#64] := by decide
theorem test_assemble_setFull :
    (parseLine "SET_FULL 3, 1").bind assemble = some [.setFullOn 3#8] ∧
    (parseLine "SET_FULL 3, 0").bind assemble = some [.setFullOff 3#8] := by decide
theorem test_assemble_oe :
    (parseLine "OE_ENABLE").bind assemble = some [.oeSet 1#1] ∧
    (parseLine "OE_DISABLE").bind assemble = some [.oeSet 0#1] := by decide
theorem test_assemble_refused :
    (parseLine "REG_CH 256").bind assemble = none ∧ (parseLine "SET_FREQ -1").bind assemble = none ∧
    (parseLine "OE_SET 2").bind assemble = none ∧ parseLine "SET_ALL 0, 0" = none := by decide

/-! ### Witnesses: for each obligation with hypotheses, values that meet them together -/

theorem witness_DecodeInvertsEncode :
    (Instr.setAngle 255#8 (-2147483648)).wellFormed = true ∧ (Instr.setPw 0#8 2147483647).wellFormed = true := by decide

theorem witness_EncodeInvertsDecode : decode 0x22FF000080000000#64 = .ok (.setPw 255#8 (-2147483648)) := by decide

theorem witness_WordIsRowsCommandIffItMatches :
    (∃ r ∈ opcodeTable, r.matchesWord 0x20FFFFFFFFFFFFFF#64 = true) ∧
    (∀ r ∈ opcodeTable, r.matchesWord 0x0405000100000000#64 = false) := by decide

theorem witness_IllegalWordAnswersIllegal :
    (∃ ws, (State.reset.present 0x0000000000000000#64).phase = .ready ∧
      (State.reset.present 0x0000000000000000#64).port = 0x0000000000000000#64 :: ws ∧
      ∀ r ∈ opcodeTable, fieldOp 0x0000000000000000#64 ≠ r.op.code) ∧
    (∃ ws, (State.reset.present 0x2100800000000000#64).phase = .ready ∧
      (State.reset.present 0x2100800000000000#64).port = 0x2100800000000000#64 :: ws ∧
      ∃ r ∈ opcodeTable, fieldOp 0x2100800000000000#64 = r.op.code ∧
        0x2100800000000000#64 &&& r.op.format.reserved ≠ 0#64) := by
  refine ⟨⟨[], ?_⟩, ⟨[], ?_⟩⟩ <;> decide

theorem witness_StepRunsDecodedInstruction :
    (State.reset.present 0x040F000000000000#64).phase = .ready ∧
    (State.reset.present 0x040F000000000000#64).port = [0x040F000000000000#64] ∧
    decode 0x040F000000000000#64 = .ok (.regCh 15#8) := by decide

/-- Both construction failures, and the state they leave. -/
theorem witness_FailedConstructionHasNoStep :
    failsAt 0 (failing 0) ∧ failsAt 1 (failing 1) ∧ broken.phase = .initFault := by
  unfold failsAt acks; decide

theorem witness_ConstructionTrace : failsAt 0 (failing 0) ∧ failsAt 1 (failing 1) ∧ acks 2 working := by
  unfold failsAt acks; decide

theorem witness_ResetValuesAfterConstruction : acks 2 working := by unfold acks; decide

theorem witness_frequency_one : 1 ≤ (1 : Nat) := by decide

/-- The boundary frequencies fall on the two sides of `AcceptedFrequencies`, 0 and the greatest frequency among them. -/
theorem witness_AcceptedFrequencies :
    (0#32).toNat < 24 ∧ (23#32).toNat < 24 ∧ 24 ≤ (24#32).toNat ∧ (12207#32).toNat ≤ 12207 ∧ 12207 < (12208#32).toNat ∧
    12207 < (4294967295#32).toNat ∧ 1 ≤ (1 : Nat) ∧
    presc 23 = 264 ∧ presc 24 = 253 ∧ presc 12207 = 0 ∧ presc 12208 = -1 := by decide

/-- Another integer than the one rounded to, for each rounding of `RoundingMeetsNoTie`. -/
theorem witness_RoundingMeetsNoTie : (122 : Int) ≠ presc 60 + 1 ∧ (308 : Int) ≠ stepsOf 1500 50 := by decide

/-- The narrowest legal bounds, and limits in force. -/
theorem witness_PulseWidthIsFlooredRational :
    boundsOk { recA with minPw := 1500#16, maxPw := 1500#16, maxAngle := 1#15 } = true := by decide

theorem witness_AngleToPulseWidthIsMonotone : boundsOk recA = true ∧ recA.ignore = false ∧ boundsOk recB = true := by decide

theorem witness_OverrideFlagOutsideCounter : (0 : Nat) ≤ 4095 ∧ (4095 : Nat) ≤ 4095 := by decide

/-- The least and the greatest legal address of LED0_ON_L. -/
theorem witness_ChannelRegistersExactAndDistinct :
    ({ Config.Params.default with addrLed0OnL := 0x00#8 } : Config.Params).wf = true ∧
    ({ Config.Params.default with addrLed0OnL := 0xC0#8 } : Config.Params).wf = true ∧
    chanReg Config.Params.default 15 3 = 0x45#8 := by decide

/-- A first interaction that succeeds and one that fails: OE_GET, OE_SET, READ_REG and WRITE_REG. -/
theorem witness_one_interaction :
    (drawAt 0 (small 0 .absent none working).oracle).ok = true ∧
    (drawAt 0 (small 0 .absent none (failing 0)).oracle).ok = false := by decide

/-- A legal word and an illegal one between the OE_SET and the OE_GET. -/
theorem witness_ReferenceOracleReadsBackPin :
    (refer 0 .absent none []).phase = .ready ∧ (refer 0 .absent none []).oracle.mode = .reference ∧
    (∀ w ∈ [0x0100000000000000#64, 0x0000000000000000#64], ∀ b : Bit, decode w ≠ .ok (.oeSet b)) := by
  have h0 : decode 0x0000000000000000#64 = .error (.unknownOp 0x00#8) := by decide
  refine ⟨rfl, rfl, List.forall_mem_cons.mpr ⟨fun b => ?_, List.forall_mem_singleton.mpr fun b => ?_⟩⟩
  · rw [test_decode_oeGet]; simp
  · rw [h0]; simp

/-- Each way a frequency is refused, at its boundary, and the two accepted ends with all interactions succeeding or the last
failing, in both readings of the delay. -/
theorem witness_SetFreqRunsSequence :
    255 < specPresc (23#32).toNat ∧ specPresc (12208#32).toNat < 0 ∧
    (24#32 ≠ 0#32 ∧ 0 ≤ specPresc (24#32).toNat ∧ specPresc (24#32).toNat ≤ 255) ∧
    (12207#32 ≠ 0#32 ∧ 0 ≤ specPresc (12207#32).toNat ∧ specPresc (12207#32).toNat ≤ 255) ∧
    acks (4 + delayDraws (small 0 .absent none working).params) (small 0 .absent none working).oracle ∧
    acks (4 + delayDraws (delayFailing (small 0 .absent none working)).params) working ∧
    failsAt 3 (small 0 .absent none (failing 3)).oracle ∧
    4 < 4 + delayDraws (delayFailing (small 0 .absent none (failing 4))).params ∧ failsAt 4 (failing 4) := by
  refine ⟨?_, ?_, ?_, ?_, ?_, ?_, ?_, ?_, ?_⟩ <;> first | decide +kernel | (unfold acks; decide) | (unfold failsAt acks; decide)

theorem witness_SetFreqFailureKeepsFrequency :
    (60#32 ≠ 0#32 ∧ 0 ≤ specPresc (60#32).toNat ∧ specPresc (60#32).toNat ≤ 255) ∧
    failsAt 0 (small 0 .absent (some 50#32) (failing 0)).oracle ∧
    failsAt 1 (small 0 .absent (some 50#32) (failing 1)).oracle ∧
    failsAt 2 (small 0 .absent (some 50#32) (failing 2)).oracle ∧
    failsAt (2 + 1 + delayDraws (small 0 .absent (some 50#32) (failing 3)).params) (failing 3) ∧
    failsAt (2 + 1 + delayDraws (delayFailing (small 0 .absent (some 50#32) (failing 4))).params) (failing 4) ∧
    (delayFailing (small 0 .absent (some 50#32) (failing 3))).params.delayMayFail = true ∧ failsAt 3 (failing 3) := by
  refine ⟨?_, ?_, ?_, ?_, ?_, ?_, ?_, ?_⟩ <;> first | decide +kernel | (unfold failsAt acks; decide)

/-- The index check at its boundary, and a slot of each kind: the registry commands, SET_FULL_ON and SET_FULL_OFF, SET_PWM,
the servo commands. -/
theorem witness_index_and_occupancy :
    16 ≤ (16#8).toNat ∧ (15#8).toNat < 16 ∧ (small 15 .absent none working).getSlot 15 = .absent ∧
    (small 15 chanX none working).getSlot 15 ≠ .absent ∧ (small 15 servoA none working).getSlot 15 ≠ .absent ∧
    (∃ c, (small 15 chanX none working).getSlot 15 = .chan c) ∧
    (∃ c sv, (small 15 servoA none working).getSlot 15 = .servo c sv) ∧
    (∀ c sv, (small 15 chanX none working).getSlot 15 ≠ .servo c sv) := by
  refine ⟨by decide, by decide, by decide, by decide, by decide, ⟨_, rfl⟩, ⟨_, _, rfl⟩, fun c sv h => ?_⟩
  exact Slot.noConfusion (show chanX = .servo c sv from h)

/-- A servo slot, dropped. -/
theorem witness_RegisterTwiceDropRegister :
    (15#8).toNat < 16 ∧ ∃ t, exec (.dropCh 15#8) (small 15 servoA none working) = .next t := ⟨by decide, _, rfl⟩

/-- Legal steps at both ends, on a channel and on a servo, all four writes acknowledged. -/
theorem witness_SetPwmProgramsFourRegisters :
    (0#16).toNat ≤ 4095 ∧ (4095#16).toNat ≤ 4095 ∧ acks 4 (small 15 chanX none working).oracle ∧
    (∃ c, (small 15 chanX none working).getSlot 15 = .chan c) ∧
    (∃ c sv, (small 15 servoA none working).getSlot 15 = .servo c sv) := by
  refine ⟨by decide, by decide, by unfold acks; decide, ⟨_, rfl⟩, ⟨_, _, rfl⟩⟩

theorem witness_SetPwmFailureKeepsSteps :
    (small 15 chanX none (failing 3)).getSlot 15 ≠ .absent ∧ (4095#16).toNat ≤ 4095 ∧
    failsAt 0 (small 15 chanX none (failing 0)).oracle ∧ failsAt 3 (small 15 chanX none (failing 3)).oracle := by
  unfold failsAt acks; decide

theorem witness_SetPwmChecksInOrder :
    (small 15 chanX none working).getSlot 15 ≠ .absent ∧ 4095 < (4096#16).toNat ∧ 4095 < (65535#16).toNat := by decide

/-- Two writes that succeed, and a failure at either: SET_FULL_ON and SET_FULL_OFF. -/
theorem witness_full :
    (small 15 chanX none working).getSlot 15 ≠ .absent ∧ acks 2 (small 15 chanX none working).oracle ∧
    failsAt 0 (small 15 chanX none (failing 0)).oracle ∧ failsAt 1 (small 15 chanX none (failing 1)).oracle := by
  unfold failsAt acks; decide

theorem witness_SetPwmUndoesOverrides :
    (refer 15 chanX none []).params.wf = true ∧
    ∃ t u, exec (.setFullOn 15#8) (refer 15 chanX none []) = .next t ∧
      exec (.setPwm 15#8 4095#16 0#16) t = .next u ∧ u.resp = some (0x00#8, 0x00#8) :=
  ⟨by decide, _, _, rfl, rfl, by decide⟩

/-- The two refused bounds and the narrowest accepted ones. -/
theorem witness_RegServoRegistersServo :
    (small 15 .absent none working).getSlot 15 = .absent ∧ (0#15).toNat = 0 ∧ (1499#16).toNat < (1500#16).toNat ∧
    1 ≤ (1#15).toNat ∧ (1500#16).toNat ≤ (1500#16).toNat := by decide

/-- A servo with no active frequency. -/
theorem witness_ServoCommandsCheckInOrder :
    (∃ c sv, (small 15 servoA none working).getSlot 15 = .servo c sv) ∧ (small 15 servoA none working).freq = none :=
  ⟨⟨_, _, rfl⟩, rfl⟩

/-- Servo A at 50 Hz and angle 200: clamped, 410 steps (L2.9). -/
theorem witness_SetAngleProgramsSteps :
    (small 15 servoA (some 50#32) working).getSlot 15 = .servo freshChan recA ∧ boundsOk recA = true ∧
    (small 15 servoA (some 50#32) working).freq = some 50#32 ∧ 1 ≤ (50#32).toNat ∧
    specAngle recA 200 = 180 ∧ specPw recA (specPwReq recA 180) = 2000 ∧ specSteps 2000 50 = 410 ∧
    (0 : Int) ≤ 410 ∧ (410 : Int) ≤ 4095 ∧ acks 4 (small 15 servoA (some 50#32) working).oracle := by
  refine ⟨?_, ?_, ?_, ?_, ?_, ?_, ?_, ?_, ?_, ?_⟩ <;> first | decide | (unfold acks; decide) | decide +kernel

/-- Servo A' at 50 Hz: the largest pulse width that fits (L2.10). -/
theorem witness_SetPwProgramsSteps :
    (small 15 servoA' (some 50#32) working).getSlot 15 = .servo freshChan { recA with ignore := true } ∧
    boundsOk { recA with ignore := true } = true ∧ (small 15 servoA' (some 50#32) working).freq = some 50#32 ∧
    specPw { recA with ignore := true } 19997 = 19997 ∧ specSteps 19997 50 = 4095 ∧
    specPw { recA with ignore := true } 0 = 0 ∧ specSteps 0 50 = 0 ∧
    acks 4 (small 15 servoA' (some 50#32) working).oracle := by
  refine ⟨?_, ?_, ?_, ?_, ?_, ?_, ?_, ?_⟩ <;> first | decide | (unfold acks; decide) | decide +kernel

/-- Servo A' at 50 Hz: 4096 steps and -1 step, by SET_PW; -933 steps, by SET_ANGLE (L2.9, L2.10). -/
theorem witness_ServoRangeKeepsStoredValues :
    boundsOk { recA with ignore := true } = true ∧
    4095 < specSteps (specPw { recA with ignore := true } 19998) 50 ∧
    specSteps (specPw { recA with ignore := true } (-3)) 50 < 0 ∧
    specSteps (specPw { recA with ignore := true } (specPwReq { recA with ignore := true } (-1000))) 50 < 0 := by
  refine ⟨?_, ?_, ?_, ?_⟩ <;> decide +kernel

theorem witness_ServoFailureKeepsStoredValues :
    (small 15 servoA (some 50#32) (failing 3)).getSlot 15 = .servo freshChan recA ∧ boundsOk recA = true ∧
    (small 15 servoA (some 50#32) (failing 3)).freq = some 50#32 ∧
    specSteps (specPw recA (specPwReq recA (specAngle recA 90))) 50 = 307 ∧ specSteps (specPw recA 1500) 50 = 307 ∧
    failsAt 0 (small 15 servoA (some 50#32) (failing 0)).oracle ∧
    failsAt 3 (small 15 servoA (some 50#32) (failing 3)).oracle := by
  refine ⟨?_, ?_, ?_, ?_, ?_, ?_, ?_⟩ <;> first | decide | (unfold failsAt acks; decide) | decide +kernel

/-- A command that ends well and one that fails in transport. -/
theorem witness_TraceGrowsAndFailsLast :
    (small 15 chanX none working).params.wf = true ∧ (small 15 chanX none (failing 2)).params.wf = true ∧
    (∃ t, exec (.setPwm 15#8 1#16 2#16) (small 15 chanX none working) = .next t ∧ t.resp = some (0x00#8, 0x00#8)) ∧
    (∃ t, exec (.setPwm 15#8 1#16 2#16) (small 15 chanX none (failing 2)) = .next t ∧ t.resp = some (0x04#8, 0x00#8)) :=
  ⟨by decide, by decide, ⟨_, rfl, by decide⟩, ⟨_, rfl, by decide⟩⟩

theorem witness_ConstructionArgumentsConstant :
    ∃ t, step ((small 15 chanX none working).present 0x120F000000000000#64) = .next t := ⟨_, rfl⟩

theorem witness_FrequencyWrittenOnlyBySetFreq :
    ∃ t, exec (.setFreq 60#32) (small 0 .absent (some 50#32) working) = .next t ∧ t.freq ≠ some 50#32 :=
  ⟨_, rfl, by decide⟩

/-- A slot no command names, and an error that keeps the frequency. -/
theorem witness_OtherSlotsUnchanged :
    writtenSlot (.setPwm 15#8 0#16 0#16) = some 15#8 ∧ (15#8).toNat ≠ (14 : Fin 16).val ∧
    ∃ t, exec (.setPwm 15#8 4096#16 0#16) (small 15 chanX none working) = .next t ∧ t.resp = some (0x01#8, 0x00#8) :=
  ⟨by decide, by decide, _, rfl, by decide⟩

theorem witness_ServoBoundsFixedUntilDrop :
    (∃ t, exec (.setPw 15#8 1250) (small 15 servoA (some 50#32) working) = .next t) ∧
    (small 15 servoA (some 50#32) working).getSlot 15 = .servo freshChan recA ∧
    (∃ t, exec (.setPwm 15#8 1#16 2#16) (small 15 chanX none working) = .next t) ∧
    (∃ c, (small 15 chanX none working).getSlot 15 = .chan c) :=
  ⟨⟨_, rfl⟩, by decide, ⟨_, rfl⟩, ⟨_, rfl⟩⟩

theorem witness_StoredStepsWrittenOnlyOnSuccess :
    ∃ t c', exec (.setPwm 15#8 1#16 2#16) (small 15 chanX none working) = .next t ∧
      t.getSlot 15 = .chan c' ∧ c' ≠ { onStep := some 7#12, offStep := some 9#12 } :=
  ⟨_, { onStep := some 1#12, offStep := some 2#12 }, rfl, by decide, by decide⟩

/-- A register no SET_PWM on channel 15 writes. -/
theorem witness_OtherRegistersUnchanged :
    (∀ r ∈ writtenRegs (.setPwm 15#8 1#16 2#16) Config.Params.default, 0x41 ≠ r.toNat) ∧
    (∃ t, exec (.setPwm 15#8 1#16 2#16) (small 15 chanX none working) = .next t) ∧
    (∀ v, Instr.setPwm 15#8 1#16 2#16 ≠ .oeSet v) :=
  ⟨by decide, ⟨_, rfl⟩, by simp⟩

/-- A state with a servo, a frequency, known registers and a word presented. -/
def busy : State :=
  { small 15 (.servo { onStep := some 0#12, offStep := some 205#12 } { recA with angle := some 0, pw := some 1000 })
      (some 50#32) working with
    port := [0x210F00000000005A#64]
    resp := some (0x00#8, 0x01#8)
    env := { dev := [(0x00, 0x80#8), (0xFE, 0x79#8)], pin := some 0#1 } }

theorem busy_inv : busy.Inv := by constructor <;> first | rfl | decide

theorem witness_StepKeepsInvariant : busy.Inv ∧ ∃ t, step busy = .next t ∧ t.resp = some (0x00#8, 0x00#8) :=
  ⟨busy_inv, _, rfl, by decide⟩

theorem witness_ConstructedBlockNeverStops : busy.Inv := busy_inv

theorem witness_ReachableStatesMeetInvariant :
    Reachable ((construct Config.Params.default 0x70#7 4 { dev := [(0xFE, 0x1E#8)], pin := none } working).present
      0x0400000000000000#64) :=
  .presented _ _ (.constructed _ _ _ _ _ (by decide) (by decide) (by unfold acks; decide))

/-- Two states with different stored steps that both take a step. -/
theorem witness_HiddenStateInfluencesNothing :
    ∃ s s' t t' : State, s ≠ s' ∧ s.hide = s'.hide ∧ step s = .next t ∧ step s' = .next t' :=
  ⟨(small 15 chanX none working).present 0x120F000000000000#64,
    (small 15 (.chan freshChan) none working).present 0x120F000000000000#64, _, _,
    by decide, by decide +kernel, rfl, rfl⟩

/-- Two states with different known registers that both take a step. -/
theorem witness_EnvironmentRecordNeverRead :
    ∃ s s' t t' : State, s.oracle.mode = .draws ∧ s ≠ s' ∧ s.hideEnv = s'.hideEnv ∧ step s = .next t ∧ step s' = .next t' :=
  ⟨(small 15 chanX none working).present 0x0700000000000000#64,
    { (small 15 chanX none working).present 0x0700000000000000#64 with env := { dev := [(0x00, 0x55#8)], pin := some 1#1 } },
    _, _, by decide, by decide, by decide, rfl, rfl⟩

/-- A SET_FREQ that answers OK, from a state where the two agree and from one where they do not. -/
theorem witness_FrequencyMatchesPrescale :
    regsApart busy.params ∧ freqConsistent busy ∧
    (∃ t, exec (.setFreq 60#32) busy = .next t ∧ t.resp = some (0x00#8, 0x00#8)) ∧
    (∃ t, exec (.setFreq 60#32) (small 0 .absent (some 50#32) working) = .next t ∧ t.resp = some (0x00#8, 0x00#8)) := by
  refine ⟨by unfold regsApart; decide, ?_, ⟨_, rfl, by decide⟩, ⟨_, rfl, by decide⟩⟩
  intro f hf
  obtain rfl : 50#32 = f := Option.some.inj hf
  decide

/-- Both ends of a range, the values just outside them, and a wrong number of operands. -/
theorem witness_AssemblerRefusesOutOfRange :
    assemble ⟨.cmd .setAngle, [-128, -2147483648]⟩ = some [.setAngle 128#8 (-2147483648)] ∧
    operandsOk (operandRanges (.cmd .setPw)) [255, 2147483647] = true ∧
    operandsOk (operandRanges (.cmd .setPw)) [255, 2147483648] = false ∧
    operandsOk (operandRanges (.cmd .regCh)) [-129] = false ∧ operandsOk (operandRanges (.cmd .regCh)) [256] = false ∧
    operandsOk (operandRanges (.cmd .regServo)) [0, 65535, 65535, 32767, 1] = true ∧
    operandsOk (operandRanges (.cmd .regServo)) [0, 65535, 65535, 32768, 1] = false ∧
    operandsOk (operandRanges .setFull) [0, 2] = false ∧ operandsOk (operandRanges .oeEnable) [1] = false ∧
    (Instr.setAngle 0#8 (-2147483648)).wellFormed = true ∧ (operandRanges .quiesceDrop).head? = some chRange := by
  refine ⟨?_, ?_, ?_, ?_, ?_, ?_, ?_, ?_, ?_, ?_, ?_⟩ <;> decide

theorem witness_QuiesceDropWritesFullOffFirst :
    (small 15 chanX none working).phase = .ready ∧ (small 15 chanX none working).port = [] ∧
    (small 15 chanX none working).getSlot 15 ≠ .absent ∧
    assemble ⟨.quiesceDrop, [15]⟩ = some [.setFullOff 15#8, .dropCh 15#8] ∧
    acks 2 (small 15 chanX none working).oracle ∧ failsAt 0 (failing 0) ∧ failsAt 1 (failing 1) := by
  unfold failsAt acks; decide

end Tests
end Sys2Proof
end

/-! The roundings of 00_scope.md R18 meet no tie (R19). A rational that lies at distance one half from no integer has one
nearest integer, and it is `roundRat` of it; a quotient `n / d` is such a rational when `2 n` is no odd multiple of `d`, which
the powers of two in the machine's two quotients exclude. -/

namespace Sys2Proof
namespace Machine

/-! ### Rounding on the rationals -/

theorem abs_sub_roundRat_le_half (q : Rat) : |q - roundRat q| ≤ 1 / 2 := by
  rw [abs_le, roundRat]
  split
  · have hle : ((q + 1 / 2).floor : Rat) ≤ q + 1 / 2 := Int.floor_le _
    have hlt : q + 1 / 2 < (q + 1 / 2).floor + 1 := Int.lt_floor_add_one _
    constructor <;> linarith
  · have hle : ((-q + 1 / 2).floor : Rat) ≤ -q + 1 / 2 := Int.floor_le _
    have hlt : -q + 1 / 2 < (-q + 1 / 2).floor + 1 := Int.lt_floor_add_one _
    push_cast
    constructor <;> linarith

/-- Two distinct integers are at least one apart, so they are not both within one half of the rational. -/
theorem half_lt_abs_sub_of_ne {q : Rat} {r k : Int} (hr : |q - r| < 1 / 2) (hk : k ≠ r) : 1 / 2 < |q - k| := by
  have hapart : (1 : Rat) ≤ |(k : Rat) - r| := by exact_mod_cast Int.one_le_abs (sub_ne_zero.mpr hk)
  have htriangle : |(k : Rat) - r| ≤ |k - q| + |q - r| := abs_sub_le _ _ _
  rw [abs_sub_comm (k : Rat) q] at htriangle
  linarith

theorem roundRat_unique_nearest {q : Rat} (hq : ∀ k : Int, |q - k| ≠ 1 / 2) :
    |q - roundRat q| < 1 / 2 ∧ ∀ k : Int, k ≠ roundRat q → 1 / 2 < |q - k| := by
  have hnear : |q - roundRat q| < 1 / 2 := lt_of_le_of_ne (abs_sub_roundRat_le_half q) (hq _)
  exact ⟨hnear, fun _ hk => half_lt_abs_sub_of_ne hnear hk⟩

/-! ### Ties of a quotient of integers -/

/-- A quotient is a tie only when its doubled numerator is an odd multiple of the denominator. -/
theorem abs_div_sub_ne_half {n : Int} {d : Nat} (hd : 0 < d) (hodd : ∀ j : Int, 2 * n ≠ (2 * j + 1) * d) (k : Int) :
    |(n : Rat) / d - k| ≠ 1 / 2 := by
  have hdq : (d : Rat) ≠ 0 := by exact_mod_cast hd.ne'
  intro htie
  rcases (abs_eq (by norm_num)).mp htie with habove | hbelow
  · refine hodd k ?_
    field_simp at habove
    have : (2 * n : Rat) = (2 * k + 1) * d := by linarith
    exact_mod_cast this
  · refine hodd (k - 1) ?_
    field_simp at hbelow
    have : (2 * n : Rat) = (2 * (k - 1) + 1) * d := by linarith
    exact_mod_cast this

theorem roundDiv_unique_nearest {n : Int} {d : Nat} (hd : 0 < d) (hodd : ∀ j : Int, 2 * n ≠ (2 * j + 1) * d) :
    |(n : Rat) / d - roundDiv n d| < 1 / 2 ∧ ∀ k : Int, k ≠ roundDiv n d → 1 / 2 < |(n : Rat) / d - k| := by
  rw [roundDiv_eq_roundRat n d hd]
  exact roundRat_unique_nearest (abs_div_sub_ne_half hd hodd)

/-! ### The machine's two quotients -/

theorem presc_add_one (f : Nat) : presc f + 1 = roundDiv 25000000 (4096 * f : Nat) := by
  rw [presc, sub_add_cancel, Nat.cast_mul]
  rfl

theorem stepsOf_eq_roundDiv (pw : Int) (f : Nat) : stepsOf pw f = roundDiv (pw * f * 4096) (1000000 : Nat) := rfl

/-- `2 * 25000000` is `2 ^ 7 * 5 ^ 8`, so 4096 does not divide it (R19). -/
theorem prescale_no_tie (f : Nat) (j : Int) : 2 * (25000000 : Int) ≠ (2 * j + 1) * (4096 * f : Nat) := by
  intro htie
  have : 2 * (25000000 : Int) = 4096 * ((2 * j + 1) * f) := by rw [htie]; push_cast; ring
  omega

/-- `1000000` is `2 ^ 6 * 5 ^ 6`, so 8192 divides no odd multiple of it (R19). -/
theorem steps_no_tie (pw : Int) (f : Nat) (j : Int) : 2 * (pw * f * 4096) ≠ (2 * j + 1) * (1000000 : Nat) := by
  generalize pw * f = p
  omega

theorem presc_add_one_unique_nearest {f : Nat} (hf : 1 ≤ f) :
    |(25000000 : Rat) / (4096 * f) - (presc f + 1)| < 1 / 2 ∧
    ∀ k : Int, k ≠ presc f + 1 → 1 / 2 < |(25000000 : Rat) / (4096 * f) - k| := by
  have h := roundDiv_unique_nearest (by omega : 0 < 4096 * f) (prescale_no_tie f)
  rw [← presc_add_one] at h
  push_cast at h
  exact h

theorem stepsOf_unique_nearest (pw : Int) (f : Nat) :
    |(pw : Rat) * f * 4096 / 1000000 - stepsOf pw f| < 1 / 2 ∧
    ∀ k : Int, k ≠ stepsOf pw f → 1 / 2 < |(pw : Rat) * f * 4096 / 1000000 - k| := by
  have h := roundDiv_unique_nearest (by decide) (steps_no_tie pw f)
  rw [← stepsOf_eq_roundDiv] at h
  push_cast at h
  exact h

/-- Settles O14: neither of the machine's two quotients lies at distance one half from an integer. -/
theorem roundingMeetsNoTie : Obligations.RoundingMeetsNoTie :=
  ⟨fun _ hf => presc_add_one_unique_nearest hf, stepsOf_unique_nearest⟩

end Machine
end Sys2Proof

/-! What a command can do to the active frequency, the parameters and the known device registers (10_state.md R31, R32). A
command other than SET_FREQ touches none of the first two, and of the registers only those it writes; SET_FREQ, inverted once,
has three outcomes (40_controller.md R104 to R108). -/

namespace Sys2Proof
namespace Machine

/-! ### The state a command ends in -/

/-- The state at the end of a part of a command meets `P`, whether or not an error was raised. -/
def Res.Ends {α : Type} (P : State → Prop) : Res α → Prop
  | .ok _ t => P t
  | .raised _ t => P t

theorem Res.Ends.andThen {α β : Type} {P : State → Prop} {r : Res α} {k : α → State → Res β} (h : r.Ends P)
    (hk : ∀ a t, r = .ok a t → P t → (k a t).Ends P) : (r.andThen k).Ends P := by
  cases r with
  | ok a t => exact hk a t rfl h
  | raised e t => exact h

/-- From `s` to `t` the frequency and the parameters stay, and no register outside `regs` changes. -/
structure Untouched (regs : List Byte) (s t : State) : Prop where
  freq : t.freq = s.freq
  params : t.params = s.params
  dev : ∀ a : Nat, (∀ r ∈ regs, a ≠ r.toNat) → Memory.read t.env.dev a = Memory.read s.env.dev a

theorem Untouched.refl (regs : List Byte) (s : State) : Untouched regs s s := ⟨rfl, rfl, fun _ _ => rfl⟩

section
variable {regs : List Byte} {s t : State}

theorem Untouched.did (h : Untouched regs s t) {failed : Bool} {u : State} (d : Did regs t failed u) :
    Untouched regs s u :=
  ⟨d.freq.trans h.freq, d.params.trans h.params, fun a ha => (d.dev a ha).trans (h.dev a ha)⟩

theorem Untouched.setSlot (h : Untouched regs s t) (i : Fin 16) (v : Slot) : Untouched regs s (t.setSlot i v) :=
  ⟨h.freq, h.params, h.dev⟩

theorem Untouched.finish {r : Res Byte} (h : r.Ends (Untouched regs s)) : Untouched regs s (finish r) := by
  cases r <;> exact ⟨h.freq, h.params, h.dev⟩

/-! ### The operations that commands other than SET_FREQ are built from -/

/-- The registry checks change nothing. -/
theorem checkIndex_ends {P : State → Prop} (ch : Byte) (h : P s) : (checkIndex ch s).Ends P := by
  unfold checkIndex; split <;> exact h

theorem lookup_ends {P : State → Prop} (ch : Byte) (h : P s) : (lookup ch s).Ends P := by
  rcases lookup_cases ch s with ⟨e, -⟩ | ⟨_, e, -⟩ | ⟨_, e, -⟩ <;> rw [e] <;> exact h

theorem servoLookup_ends {P : State → Prop} (ch : Byte) (h : P s) : (servoLookup ch s).Ends P := by
  rcases servoLookup_cases ch s with ⟨e, -⟩ | ⟨_, e, -⟩ | ⟨_, _, _, e, -⟩ <;> rw [e] <;> exact h

theorem requireFree_ends {P : State → Prop} (ch : Byte) (h : P s) : (requireFree ch s).Ends P := by
  rcases requireFree_cases ch s with ⟨e, -⟩ | ⟨_, e, -⟩ | ⟨_, e, -⟩ <;> rw [e] <;> exact h

theorem requireFreq_ends {P : State → Prop} (h : P s) : (requireFreq s).Ends P := by
  unfold requireFreq; split <;> exact h

/-- The slot a lookup finds is the one the CH field names (R98). -/
theorem lookup_index {ch : Byte} {p : Fin 16 × Slot} (e : lookup ch s = .ok p t) : p.1.val = ch.toNat := by
  rcases lookup_cases ch s with ⟨e', -⟩ | ⟨_, e', -⟩ | ⟨_, e', -⟩ <;> rw [e'] at e <;> cases e
  rfl

theorem servoLookup_index {ch : Byte} {p : Fin 16 × ServoRec} (e : servoLookup ch s = .ok p t) :
    p.1.val = ch.toNat := by
  rcases servoLookup_cases ch s with ⟨e', -⟩ | ⟨_, e', -⟩ | ⟨_, _, _, e', -⟩ <;> rw [e'] at e <;> cases e
  rfl

theorem namedRegs_of_index {ch : Byte} {i : Fin 16} (p : Config.Params) (h : i.val = ch.toNat) :
    namedRegs p ch = chanRegs p i := by
  have hch : ch.toNat < 16 := h ▸ i.isLt
  rw [namedRegs, dif_pos hch]
  exact congrArg (chanRegs p) (Fin.ext h.symm)

theorem pinRead_ends (h : Untouched regs s t) : (pinRead t).Ends (Untouched regs s) := by
  rcases pinRead_did regs t with ⟨_, u, e, d⟩ | ⟨u, e, d⟩ <;> rw [e] <;> exact h.did d

theorem pinWrite_ends (l : Bit) (h : Untouched regs s t) : (pinWrite l t).Ends (Untouched regs s) := by
  rcases pinWrite_did regs l t with ⟨u, e, d⟩ | ⟨u, e, d⟩ <;> rw [e] <;> exact h.did d

theorem busRead_ends (reg : Byte) (h : Untouched regs s t) : (busRead reg t).Ends (Untouched regs s) := by
  rcases busRead_did regs reg t with ⟨_, u, e, d⟩ | ⟨u, e, d⟩ <;> rw [e] <;> exact h.did d

theorem busWrite_ends {reg : Byte} (b : Byte) (h : Untouched regs s t) (hr : reg ∈ regs) :
    (busWrite reg b t).Ends (Untouched regs s) := by
  rcases busWrite_did regs reg b t hr with ⟨u, e, d⟩ | ⟨u, e, d⟩ <;> rw [e] <;> exact h.did d

theorem busWrites_ends {ws : List (Byte × Byte)} (h : Untouched regs s t) (hr : ∀ w ∈ ws, w.1 ∈ regs) :
    (busWrites ws t).Ends (Untouched regs s) := by
  rcases busWrites_did regs ws t hr with ⟨u, e, d⟩ | ⟨u, e, d⟩ <;> rw [e] <;> exact h.did d

theorem setPwmCore_ends {i : Fin 16} (on off : Int) (h : Untouched regs s t) (hr : chanRegs s.params i = regs) :
    (setPwmCore i on off t).Ends (Untouched regs s) := by
  rcases setPwmCore_did regs i on off t (fun r hm => hr ▸ h.params ▸ hm) with e | ⟨u, e, d⟩ | ⟨u, e, d⟩ <;> rw [e]
  · exact h
  · exact h.did d
  · exact (h.did d).setSlot i _

theorem setPwCore_ends {i : Fin 16} (sv : ServoRec) (f : BitVec 32) (req : Int) (h : Untouched regs s t)
    (hr : chanRegs s.params i = regs) : (setPwCore i sv f req t).Ends (Untouched regs s) :=
  setPwmCore_ends _ _ (h.setSlot i _) hr

end

/-! ### The commands other than SET_FREQ -/

/-- SET_FULL_ON and SET_FULL_OFF write the two high bytes of the channel (R132, R133). -/
theorem chanWrites_full_mem {p : Config.Params} {i : Fin 16} {a b : Byte} {w : Byte × Byte}
    (hw : w ∈ chanWrites p i [(1, a), (3, b)]) : w.1 ∈ [chanReg p i 1, chanReg p i 3] := by
  simp only [chanWrites, List.map_cons, List.map_nil, List.mem_cons, List.not_mem_nil, or_false] at hw
  rcases hw with rfl | rfl <;> simp

/-- The common body of SET_FULL_ON and SET_FULL_OFF. -/
theorem setFull_ends (ch a b : Byte) (s : State) :
    ((lookup ch s).andThen fun p s => (busWrites (chanWrites s.params p.1 [(1, a), (3, b)]) s).andThen fun _ s =>
      .ok 0x00#8 s : Res Byte).Ends (Untouched (writtenRegs (.setFullOn ch) s.params) s) := by
  refine (lookup_ends ch (Untouched.refl _ s)).andThen fun p t e ht => ?_
  refine (busWrites_ends ht fun w hw => ?_).andThen fun _ _ _ hu => hu
  obtain ⟨i, v⟩ := p
  have hi : i.val = ch.toNat := lookup_index e
  have hch : ch.toNat < 16 := hi ▸ i.isLt
  obtain rfl : i = ⟨ch.toNat, hch⟩ := Fin.ext hi
  have := chanWrites_full_mem hw
  rw [ht.params] at this
  simpa [writtenRegs, hch] using this

/-- A command other than SET_FREQ keeps the frequency, the parameters and every register that it does not write. -/
theorem exec_untouched {i : Instr} {s t : State} (hi : ∀ f, i ≠ .setFreq f) (h : exec i s = .next t) :
    Untouched (writtenRegs i s.params) s t := by
  suffices ∃ r, exec i s = .next (finish r) ∧ r.Ends (Untouched (writtenRegs i s.params) s) by
    obtain ⟨r, hr, hends⟩ := this
    obtain rfl : finish r = t := Host.Outcome.next.inj (hr.symm.trans h)
    exact Untouched.finish hends
  have hs := Untouched.refl (writtenRegs i s.params) s
  cases i with
  | oeGet => exact ⟨_, rfl, (pinRead_ends hs).andThen fun _ _ _ ht => ht⟩
  | oeSet v => exact ⟨_, rfl, (pinWrite_ends _ hs).andThen fun _ _ _ ht => ht⟩
  | setFreq f => exact absurd rfl (hi f)
  | regCh ch => exact ⟨_, rfl, (requireFree_ends ch hs).andThen fun i _ _ ht => ht.setSlot i _⟩
  | lookupCh ch =>
    refine ⟨_, rfl, (lookup_ends ch hs).andThen fun p _ _ ht => ?_⟩
    obtain ⟨_, _ | _ | _⟩ := p <;> exact ht
  | dropCh ch => exact ⟨_, rfl, (checkIndex_ends ch hs).andThen fun i _ _ ht => ht.setSlot i _⟩
  | readReg addr => exact ⟨_, rfl, (busRead_ends addr hs).andThen fun _ _ _ ht => ht⟩
  | writeReg addr data =>
    exact ⟨_, rfl, (busWrite_ends data hs List.mem_cons_self).andThen fun _ _ _ ht => ht⟩
  | setPwm ch on off =>
    refine ⟨_, rfl, (lookup_ends ch hs).andThen fun p t e ht => ?_⟩
    exact (setPwmCore_ends _ _ ht (namedRegs_of_index _ (lookup_index e)).symm).andThen fun _ _ _ hu => hu
  | setFullOn ch => exact ⟨_, rfl, setFull_ends ch _ _ s⟩
  | setFullOff ch => exact ⟨_, rfl, setFull_ends ch _ _ s⟩
  | regServo ch minPw maxPw maxAngle ign =>
    refine ⟨_, rfl, (requireFree_ends ch hs).andThen fun i _ _ ht => ?_⟩
    split
    · exact ht
    · exact ht.setSlot i _
  | setAngle ch v =>
    refine ⟨_, rfl, (servoLookup_ends ch hs).andThen fun p _ e ht => (requireFreq_ends ht).andThen fun f _ _ hu => ?_⟩
    exact (setPwCore_ends _ _ _ (hu.setSlot p.1 _) (namedRegs_of_index _ (servoLookup_index e)).symm).andThen
      fun _ _ _ hx => hx
  | setPw ch v =>
    refine ⟨_, rfl, (servoLookup_ends ch hs).andThen fun p _ e ht => (requireFreq_ends ht).andThen fun f _ _ hu => ?_⟩
    exact (setPwCore_ends _ _ _ hu (namedRegs_of_index _ (servoLookup_index e)).symm).andThen fun _ _ _ hx => hx

/-! ### SET_FREQ -/

/-- The prescale lies in 0..255 exactly for the frequencies 24..12207 (R106). -/
theorem presc_in_byte_iff {f : Nat} (hf : 1 ≤ f) : (0 ≤ presc f ∧ presc f ≤ 255) ↔ 24 ≤ f ∧ f ≤ 12207 := by
  have hround : presc f + 1 = (50000000 + 4096 * f) / (8192 * f) := by
    rw [presc_add_one, roundDiv, if_pos (by decide)]
    congr 1
    push_cast; ring
  have hlow : 1 ≤ presc f + 1 ↔ 1 * (8192 * (f : Int)) ≤ 50000000 + 4096 * f :=
    hround ▸ Int.le_ediv_iff_mul_le (by omega)
  have hhigh : presc f + 1 < 257 ↔ 50000000 + 4096 * (f : Int) < 257 * (8192 * f) :=
    hround ▸ Int.ediv_lt_iff_lt_mul (by omega)
  omega

/-- Everything SET_FREQ can do (R104, R106 to R108). -/
theorem setFreq_cases {f : BitVec 32} {s t : State} (h : exec (.setFreq f) s = .next t) :
    t = s.withResp (errCode .range) 0x00#8 ∨
    (∃ u, t = u.withResp (errCode .transport) 0x00#8 ∧
      Did [s.params.addrMode1, s.params.addrPrescale] s true u) ∨
    (∃ u, t = (u.withFreq f).withResp statusOk 0x00#8 ∧ 24 ≤ f.toNat ∧ f.toNat ≤ 12207 ∧
      setFreqSequence (BitVec.ofInt 8 (presc f.toNat)) s = .ok () u) := by
  obtain rfl := Host.Outcome.next.inj h
  by_cases hzero : f = 0#32
  · exact .inl (by rw [if_pos hzero, finish_raised])
  rw [if_neg hzero]
  have hpos : 1 ≤ f.toNat := Nat.pos_of_ne_zero fun e => hzero (BitVec.eq_of_toNat_eq e)
  by_cases hrange : presc f.toNat < Config.prescaleMin ∨ Config.prescaleMax < presc f.toNat
  · exact .inl (by rw [if_pos hrange, finish_raised])
  rw [if_neg hrange]
  simp only [not_or, not_lt] at hrange
  obtain ⟨hlow, hhigh⟩ := (presc_in_byte_iff hpos).mp hrange
  rcases setFreqSequence_did (BitVec.ofInt 8 (presc f.toNat)) s with ⟨u, e, -⟩ | ⟨u, e, d⟩ <;> rw [e]
  · exact .inr (.inr ⟨u, rfl, hlow, hhigh, rfl⟩)
  · exact .inr (.inl ⟨u, rfl, d⟩)

/-- Settles O45: only SET_FREQ touches the frequency, and of its three outcomes only the OK one. -/
theorem frequencyWrittenOnlyBySetFreq : Obligations.FrequencyWrittenOnlyBySetFreq := by
  intro i s t h hfreq
  by_cases hi : ∀ f, i ≠ .setFreq f
  · exact absurd (exec_untouched hi h).freq hfreq
  push Not at hi
  obtain ⟨f, rfl⟩ := hi
  rcases setFreq_cases h with rfl | ⟨u, rfl, d⟩ | ⟨u, rfl, hlow, hhigh, -⟩
  · exact absurd rfl hfreq
  · exact absurd d.freq hfreq
  · exact ⟨f, rfl, rfl, rfl, hlow, hhigh⟩

/-! ### The recorded PRESCALE byte (R32, on the reading of log entry 7) -/

theorem busWrite_known {reg b : Byte} {s t : State} (h : busWrite reg b s = .ok () t) :
    t.params = s.params ∧ Memory.read t.env.dev reg.toNat = some b := by
  cases hd : (nextDraw s.oracle).1.ok with
  | true =>
    rw [busWrite_ok hd] at h
    obtain ⟨-, rfl⟩ := Res.ok.inj h
    exact ⟨rfl, read_write_self _ _ _⟩
  | false => rw [busWrite_fail hd] at h; cases h

theorem busRead_params {reg v : Byte} {s t : State} (h : busRead reg s = .ok v t) : t.params = s.params := by
  rcases busRead_did [] reg s with ⟨_, u, e, d⟩ | ⟨u, e, -⟩ <;> rw [e] at h <;> cases h
  exact d.params

theorem delay_eq_ok_did {s t : State} (h : delay s = .ok () t) (regs : List Byte) : Did regs s false t := by
  rcases delay_did regs s with ⟨u, e, d⟩ | ⟨u, e, -⟩ <;> rw [e] at h <;> cases h
  exact d

theorem busWrite_eq_ok_did {reg b : Byte} {s t : State} (h : busWrite reg b s = .ok () t) : Did [reg] s false t := by
  rcases busWrite_did [reg] reg b s List.mem_cons_self with ⟨u, e, d⟩ | ⟨u, e, -⟩ <;> rw [e] at h <;> cases h
  exact d

/-- A SET_FREQ sequence that ends well leaves its byte recorded: after step 3 only MODE1 is written (R107). -/
theorem setFreqSequence_prescale {p : Byte} {s t : State} (hne : s.params.addrMode1 ≠ s.params.addrPrescale)
    (h : setFreqSequence p s = .ok () t) :
    t.params = s.params ∧ Memory.read t.env.dev s.params.addrPrescale.toNat = some p := by
  simp only [setFreqSequence, andThen_eq_ok] at h
  obtain ⟨old, s₁, hread, _, s₂, hsleep, _, s₃, hpresc, _, s₄, hdelay, hrestart⟩ := h
  have hp₂ : s₂.params = s.params := (busWrite_known hsleep).1.trans (busRead_params hread)
  obtain ⟨hp₃, hknown⟩ := busWrite_known hpresc
  have d := (delay_eq_ok_did hdelay [s₄.params.addrMode1]).trans (busWrite_eq_ok_did hrestart)
  have hp₄ : s₄.params = s.params := (delay_eq_ok_did hdelay []).params.trans (hp₃.trans hp₂)
  rw [hp₂] at hknown
  rw [hp₄] at d
  refine ⟨d.params.trans (hp₃.trans hp₂), (d.dev _ fun r hr => ?_).trans hknown⟩
  obtain rfl := List.mem_singleton.mp hr
  exact fun e => hne (BitVec.eq_of_toNat_eq e.symm)

/-- A SET_FREQ that answers OK makes its operand active and its prescale the recorded byte. -/
theorem setFreq_establishes {f : BitVec 32} {s u : State} (hne : s.params.addrMode1 ≠ s.params.addrPrescale)
    (h : setFreqSequence (BitVec.ofInt 8 (presc f.toNat)) s = .ok () u) :
    freqConsistent ((u.withFreq f).withResp statusOk 0x00#8) := by
  obtain ⟨hparams, hknown⟩ := setFreqSequence_prescale hne h
  intro g hg
  obtain rfl : f = g := Option.some.inj hg
  rw [← hparams] at hknown
  exact hknown

/-- SET_FULL_ON and SET_FULL_OFF write registers of the channel they name (R132, R133). -/
theorem writtenRegs_full_subset (ch : Byte) (p : Config.Params) : writtenRegs (.setFullOn ch) p ⊆ namedRegs p ch := by
  by_cases hch : ch.toNat < 16 <;> simp [writtenRegs, namedRegs, chanRegs, hch]

/-- Of the commands other than SET_FREQ, only a WRITE_REG to PRESCALE writes that register. -/
theorem prescale_not_written {i : Instr} {p : Config.Params} (hp : regsApart p) (hf : ∀ f, i ≠ .setFreq f)
    (hw : ∀ data, i ≠ .writeReg p.addrPrescale data) : p.addrPrescale ∉ writtenRegs i p := by
  have hnamed (ch : Byte) : p.addrPrescale ∉ namedRegs p ch := by
    unfold namedRegs
    split
    · exact hp.2 _
    · exact List.not_mem_nil
  cases i with
  | setFreq f => exact absurd rfl (hf f)
  | writeReg addr data =>
    intro hm
    exact hw data (by rw [List.mem_singleton.mp hm])
  | setPwm ch _ _ => exact hnamed ch
  | setAngle ch _ => exact hnamed ch
  | setPw ch _ => exact hnamed ch
  | setFullOn ch => exact fun hm => hnamed ch (writtenRegs_full_subset ch p hm)
  | setFullOff ch => exact fun hm => hnamed ch (writtenRegs_full_subset ch p hm)
  | oeGet | oeSet | regCh | lookupCh | dropCh | readReg | regServo => exact List.not_mem_nil

theorem freqConsistent_of_untouched {regs : List Byte} {s t : State} (h : Untouched regs s t)
    (hr : s.params.addrPrescale ∉ regs) (hs : freqConsistent s) : freqConsistent t := by
  intro f hf
  have hout (r : Byte) (hm : r ∈ regs) : s.params.addrPrescale.toNat ≠ r.toNat := fun e =>
    hr ((BitVec.eq_of_toNat_eq e).symm ▸ hm)
  rw [h.params, h.dev _ hout]
  exact hs f (h.freq ▸ hf)

/-- Settles O56: the last outcome of SET_FREQ establishes the agreement, and what is excluded is all that could end it. -/
theorem frequencyMatchesPrescale : Obligations.FrequencyMatchesPrescale := by
  refine ⟨fun f s t hp h hok => ?_, fun i s t hp hs h hwrite _ hfail => ?_⟩
  · rcases setFreq_cases h with rfl | ⟨u, rfl, -⟩ | ⟨u, rfl, -, -, e⟩
    · exact absurd hok (by simp [errCode])
    · exact absurd hok (by simp [errCode])
    · exact ⟨rfl, setFreq_establishes hp.1 e⟩
  · by_cases hi : ∀ f, i ≠ .setFreq f
    · exact freqConsistent_of_untouched (exec_untouched hi h) (prescale_not_written hp hi hwrite) hs
    push Not at hi
    obtain ⟨f, rfl⟩ := hi
    rcases setFreq_cases h with rfl | ⟨u, rfl, -⟩ | ⟨u, rfl, -, -, e⟩
    · exact hs
    · exact absurd rfl (hfail ⟨f, rfl⟩)
    · exact setFreq_establishes hp.1 e

end Machine
end Sys2Proof

/-! Noninterference (10_state.md R37, R38), proved once for any relation `R` between states that a command cannot see: states
related by `R` agree on everything a command reads, and every update a command makes keeps them related. Then every step keeps
`R`. The stored steps, angles and pulse widths are one such difference, the environment record under drawn answers another. -/

namespace Sys2Proof
namespace Machine

/-! ### What a command reads -/

/-- Two slots of one kind, with the same bounds where they are servos: equal but for what no command reads. -/
inductive SlotAlike : Slot → Slot → Prop
  | absent : SlotAlike .absent .absent
  | chan (c c' : ChanRec) : SlotAlike (.chan c) (.chan c')
  | servo (c c' : ChanRec) (sv : ServoRec) (angle pw : Option Int) :
    SlotAlike (.servo c sv) (.servo c' { sv with angle := angle, pw := pw })

theorem slotAlike_of_hideSlot {u v : Slot} (h : hideSlot u = hideSlot v) : SlotAlike u v := by
  cases u <;> cases v <;> simp only [hideSlot, reduceCtorEq] at h
  case absent.absent => exact .absent
  case chan.chan c c' => exact .chan c c'
  case servo.servo c sv c' sv' =>
    obtain ⟨-, hsv⟩ := Slot.servo.inj h
    obtain ⟨hmin, hmax, hangle, hignore, -, -⟩ := ServoRec.mk.inj hsv
    have hsv' : sv' = { sv with angle := sv'.angle, pw := sv'.pw } := by rw [hmin, hmax, hangle, hignore]
    exact hsv' ▸ .servo c c' sv sv'.angle sv'.pw

/-- Two states on which everything a command reads is the same. -/
structure Alike (s t : State) : Prop where
  phase : s.phase = t.phase
  busAddr : s.busAddr = t.busAddr
  oePin : s.oePin = t.oePin
  freq : s.freq = t.freq
  params : s.params = t.params
  port : s.port = t.port
  oracle : s.oracle = t.oracle
  slot : ∀ i, SlotAlike (s.getSlot i) (t.getSlot i)
  busAnswer : ∀ reg d, busAnswer s.oracle s.env reg d = busAnswer t.oracle t.env reg d
  pinAnswer : ∀ d, pinAnswer s.oracle s.env d = pinAnswer t.oracle t.env d

theorem hide_getSlot (s : State) (i : Fin 16) : s.hide.getSlot i = hideSlot (s.getSlot i) := by
  simp [State.hide, State.getSlot]

/-- With the hidden state and the environment record out of sight, what remains to be read is the answers. -/
theorem alike_of_hide_hideEnv {s t : State} (h : s.hide.hideEnv = t.hide.hideEnv)
    (hbus : ∀ reg d, busAnswer s.oracle s.env reg d = busAnswer t.oracle t.env reg d)
    (hpin : ∀ d, pinAnswer s.oracle s.env d = pinAnswer t.oracle t.env d) : Alike s t where
  phase := congrArg (·.phase) h
  busAddr := congrArg (·.busAddr) h
  oePin := congrArg (·.oePin) h
  freq := congrArg (·.freq) h
  params := congrArg (·.params) h
  port := congrArg (·.port) h
  oracle := congrArg (·.oracle) h
  slot := fun i => by
    have hslot : s.hide.getSlot i = t.hide.getSlot i := congrArg (·.getSlot i) h
    exact slotAlike_of_hideSlot (by rwa [hide_getSlot, hide_getSlot] at hslot)
  busAnswer := hbus
  pinAnswer := hpin

/-- The update `u` of the state keeps related states related. -/
def Keeps (R : State → State → Prop) (u : State → State) : Prop := ∀ ⦃s t⦄, R s t → R (u s) (u t)

/-- States related by `R` differ in nothing a command reads, and every update a command makes keeps them related. -/
structure Unread (R : State → State → Prop) : Prop where
  alike : ∀ ⦃s t⦄, R s t → Alike s t
  log : ∀ e, Keeps R (·.log e)
  draw : Keeps R fun s => s.withOracle (nextDraw s.oracle).2
  write : ∀ a b, Keeps R fun s => s.withDev (Memory.write s.env.dev a b)
  forget : ∀ a, Keeps R fun s => s.withDev (Memory.forget s.env.dev a)
  pin : ∀ l, Keeps R (·.withPin l)
  freq : ∀ f, Keeps R (·.withFreq f)
  resp : ∀ c d, Keeps R (·.withResp c d)
  port : ∀ ws, Keeps R (·.withPort ws)
  setSlot : ∀ i v, Keeps R (·.setSlot i v)
  storeSteps : ∀ i on off, Keeps R (·.storeSteps i on off)
  storeAngle : ∀ i a, Keeps R (·.storeAngle i a)
  storePw : ∀ i pw, Keeps R (·.storePw i pw)

/-! ### Related outcomes -/

/-- Both go on, with values related by `V`, or both raise the same error; the states are related by `R`. -/
inductive Res.Related {α : Type} (R : State → State → Prop) (V : α → α → Prop) : Res α → Res α → Prop
  | ok {a b : α} {s t : State} : V a b → R s t → Related R V (.ok a s) (.ok b t)
  | raised {s t : State} (e : Err) : R s t → Related R V (.raised e s) (.raised e t)

section
variable {R : State → State → Prop} {s t : State}

theorem Res.Related.andThen {α β : Type} {V : α → α → Prop} {W : β → β → Prop} {r r' : Res α}
    {k k' : α → State → Res β} (h : r.Related R V r')
    (hk : ∀ a b s t, V a b → R s t → (k a s).Related R W (k' b t)) : (r.andThen k).Related R W (r'.andThen k') := by
  cases h with
  | ok hv hr => exact hk _ _ _ _ hv hr
  | raised e hr => exact .raised e hr

/-- Two commands that go on with the same data, or raise the same error, end in related states. -/
theorem Unread.finish (hR : Unread R) {r r' : Res Byte} (h : r.Related R Eq r') : R (finish r) (finish r') := by
  cases h with
  | ok hv hr => exact hv ▸ hR.resp _ _ hr
  | raised e hr => exact hR.resp _ _ hr

/-- The end of a command that answers OK with data `d`. -/
theorem Res.Related.done (h : R s t) (d : Byte) : (Res.ok d s).Related R Eq (.ok d t) := .ok rfl h

theorem checkIndex_related (ch : Byte) (h : R s t) : (checkIndex ch s).Related R Eq (checkIndex ch t) := by
  unfold checkIndex
  split
  · exact .ok rfl h
  · exact .raised _ h

variable (hR : Unread R)
include hR

/-! ### The external primitives -/

/-- Related states draw the same answer and stay related. -/
theorem Unread.drawn (h : R s t) :
    R (s.withOracle (nextDraw s.oracle).2) (t.withOracle (nextDraw s.oracle).2) := by
  have hdraw : R (s.withOracle (nextDraw s.oracle).2) (t.withOracle (nextDraw t.oracle).2) := hR.draw h
  rwa [← (hR.alike h).oracle] at hdraw

theorem busRead_related (reg : Byte) (h : R s t) : (busRead reg s).Related R Eq (busRead reg t) := by
  have ha := hR.alike h
  simp only [busRead, ha.busAnswer, ha.busAddr, ← ha.oracle]
  split
  · exact .ok rfl (hR.log _ (hR.drawn h))
  · exact .raised _ (hR.log _ (hR.drawn h))

theorem busWrite_related (reg b : Byte) (h : R s t) : (busWrite reg b s).Related R Eq (busWrite reg b t) := by
  have ha := hR.alike h
  simp only [busWrite, ha.busAddr, ← ha.oracle]
  split
  · exact .ok rfl (hR.log _ (hR.write _ _ (hR.drawn h)))
  · exact .raised _ (hR.log _ (hR.forget _ (hR.drawn h)))

theorem pinWrite_related (l : Bit) (h : R s t) : (pinWrite l s).Related R Eq (pinWrite l t) := by
  have ha := hR.alike h
  simp only [pinWrite, ha.oePin, ← ha.oracle]
  split
  · exact .ok rfl (hR.log _ (hR.pin _ (hR.drawn h)))
  · exact .raised _ (hR.log _ (hR.pin _ (hR.drawn h)))

theorem pinRead_related (h : R s t) : (pinRead s).Related R Eq (pinRead t) := by
  have ha := hR.alike h
  simp only [pinRead, ha.pinAnswer, ha.oePin, ← ha.oracle]
  split
  · exact .ok rfl (hR.log _ (hR.drawn h))
  · exact .raised _ (hR.log _ (hR.drawn h))

theorem delay_related (h : R s t) : (delay s).Related R Eq (delay t) := by
  have ha := hR.alike h
  simp only [delay, ha.params, ← ha.oracle]
  split
  · split
    · exact .ok rfl (hR.log _ (hR.drawn h))
    · exact .raised _ (hR.log _ (hR.drawn h))
  · exact .ok rfl (hR.log _ h)

theorem busWrites_related (ws : List (Byte × Byte)) (h : R s t) :
    (busWrites ws s).Related R Eq (busWrites ws t) := by
  induction ws generalizing s t with
  | nil => exact .ok rfl h
  | cons w rest ih => exact (busWrite_related hR w.1 w.2 h).andThen fun _ _ _ _ _ hr => ih hr

/-! ### The registry -/

/-- Both lookups find the same index, with slots of one kind. -/
theorem lookup_related (ch : Byte) (h : R s t) :
    (lookup ch s).Related R (fun p q => p.1 = q.1 ∧ SlotAlike p.2 q.2) (lookup ch t) := by
  refine (checkIndex_related ch h).andThen fun i _ s t hi hr => ?_
  subst hi
  have hslot := (hR.alike hr).slot i
  revert hslot
  generalize s.getSlot i = u, t.getSlot i = v
  rintro (_ | ⟨c, c'⟩ | ⟨c, c', sv, angle, pw⟩)
  · exact .raised _ hr
  · exact .ok ⟨rfl, .chan c c'⟩ hr
  · exact .ok ⟨rfl, .servo c c' sv angle pw⟩ hr

/-- Both servo lookups find the same index, with servos of the same bounds. -/
theorem servoLookup_related (ch : Byte) (h : R s t) :
    (servoLookup ch s).Related R (fun p q => ∃ angle pw, q = (p.1, { p.2 with angle := angle, pw := pw }))
      (servoLookup ch t) := by
  refine (lookup_related hR ch h).andThen fun p q s t hpq hr => ?_
  obtain ⟨i, u⟩ := p
  obtain ⟨j, v⟩ := q
  obtain ⟨rfl, hslot⟩ := hpq
  cases hslot with
  | absent => exact .raised _ hr
  | chan c c' => exact .raised _ hr
  | servo c c' sv angle pw => exact .ok ⟨angle, pw, rfl⟩ hr

theorem requireFree_related (ch : Byte) (h : R s t) : (requireFree ch s).Related R Eq (requireFree ch t) := by
  refine (checkIndex_related ch h).andThen fun i _ s t hi hr => ?_
  subst hi
  have hslot := (hR.alike hr).slot i
  revert hslot
  generalize s.getSlot i = u, t.getSlot i = v
  rintro (_ | _ | _)
  · exact .ok rfl hr
  · exact .raised _ hr
  · exact .raised _ hr

theorem requireFreq_related (h : R s t) : (requireFreq s).Related R Eq (requireFreq t) := by
  unfold requireFreq
  rw [(hR.alike h).freq]
  split
  · exact .raised _ h
  · exact .ok rfl h

/-! ### The shared subroutines -/

theorem setPwmCore_related (i : Fin 16) (on off : Int) (h : R s t) :
    (setPwmCore i on off s).Related R Eq (setPwmCore i on off t) := by
  unfold setPwmCore
  rw [(hR.alike h).params]
  split
  · exact .raised _ h
  · exact (busWrites_related hR _ h).andThen fun _ _ _ _ _ hr => .ok rfl (hR.storeSteps _ _ _ hr)

theorem setPwCore_related (i : Fin 16) (sv : ServoRec) (f : BitVec 32) (req : Int) (h : R s t) :
    (setPwCore i sv f req s).Related R Eq (setPwCore i sv f req t) :=
  setPwmCore_related hR i _ _ (hR.storePw _ _ h)

theorem setFreqSequence_related (p : Byte) (h : R s t) :
    (setFreqSequence p s).Related R Eq (setFreqSequence p t) := by
  unfold setFreqSequence
  rw [(hR.alike h).params]
  refine (busRead_related hR _ h).andThen fun old _ s t ho hr => ?_
  subst ho
  rw [(hR.alike hr).params]
  refine (busWrite_related hR _ _ hr).andThen fun _ _ s t _ hr => ?_
  rw [(hR.alike hr).params]
  refine (busWrite_related hR _ _ hr).andThen fun _ _ s t _ hr => ?_
  refine (delay_related hR hr).andThen fun _ _ s t _ hr => ?_
  rw [(hR.alike hr).params]
  exact busWrite_related hR _ _ hr

/-- The common body of SET_FULL_ON and SET_FULL_OFF. -/
theorem setFull_related (ch : Byte) (enc : List (Nat × Byte)) (h : R s t) :
    ((lookup ch s).andThen fun p s => (busWrites (chanWrites s.params p.1 enc) s).andThen fun _ s =>
      .ok 0x00#8 s : Res Byte).Related R Eq
    ((lookup ch t).andThen fun p s => (busWrites (chanWrites s.params p.1 enc) s).andThen fun _ s => .ok 0x00#8 s) := by
  refine (lookup_related hR ch h).andThen fun p q s t hpq hr => ?_
  rw [hpq.1, (hR.alike hr).params]
  exact (busWrites_related hR _ hr).andThen fun _ _ _ _ _ hr => .done hr _

/-! ### Commands and steps -/

/-- Every command, run on related states, answers the same data or raises the same error, in related states. -/
theorem exec_related (i : Instr) (h : R s t) :
    ∃ r r', exec i s = .next (finish r) ∧ exec i t = .next (finish r') ∧ r.Related R Eq r' := by
  cases i with
  | oeGet => exact ⟨_, _, rfl, rfl, (pinRead_related hR h).andThen fun _ _ _ _ hl hr => hl ▸ .done hr _⟩
  | oeSet v => exact ⟨_, _, rfl, rfl, (pinWrite_related hR _ h).andThen fun _ _ _ _ _ hr => .done hr _⟩
  | setFreq f =>
    refine ⟨_, _, rfl, rfl, ?_⟩
    split
    · exact .raised _ h
    split
    · exact .raised _ h
    · exact (setFreqSequence_related hR _ h).andThen fun _ _ _ _ _ hr => .done (hR.freq f hr) _
  | regCh ch =>
    exact ⟨_, _, rfl, rfl, (requireFree_related hR ch h).andThen fun _ _ _ _ hi hr => hi ▸ .done (hR.setSlot _ _ hr) _⟩
  | lookupCh ch =>
    refine ⟨_, _, rfl, rfl, (lookup_related hR ch h).andThen fun p q _ _ hpq hr => ?_⟩
    obtain ⟨i, u⟩ := p
    obtain ⟨j, v⟩ := q
    obtain ⟨-, hslot⟩ := hpq
    cases hslot <;> exact .done hr _
  | dropCh ch =>
    exact ⟨_, _, rfl, rfl, (checkIndex_related ch h).andThen fun _ _ _ _ hi hr => hi ▸ .done (hR.setSlot _ _ hr) _⟩
  | readReg addr => exact ⟨_, _, rfl, rfl, (busRead_related hR addr h).andThen fun _ _ _ _ hb hr => hb ▸ .done hr _⟩
  | writeReg addr data =>
    exact ⟨_, _, rfl, rfl, (busWrite_related hR addr data h).andThen fun _ _ _ _ _ hr => .done hr _⟩
  | setPwm ch on off =>
    refine ⟨_, _, rfl, rfl, (lookup_related hR ch h).andThen fun p q _ _ hpq hr => ?_⟩
    rw [hpq.1]
    exact (setPwmCore_related hR _ _ _ hr).andThen fun _ _ _ _ _ hr => .done hr _
  | setFullOn ch => exact ⟨_, _, rfl, rfl, setFull_related hR ch encFullOn h⟩
  | setFullOff ch => exact ⟨_, _, rfl, rfl, setFull_related hR ch encFullOff h⟩
  | regServo ch minPw maxPw maxAngle ign =>
    refine ⟨_, _, rfl, rfl, (requireFree_related hR ch h).andThen fun i _ _ _ hi hr => ?_⟩
    subst hi
    split
    · exact .raised _ hr
    · exact .done (hR.setSlot _ _ hr) _
  | setAngle ch v =>
    refine ⟨_, _, rfl, rfl, (servoLookup_related hR ch h).andThen fun p _ _ _ hpq hr =>
      (requireFreq_related hR hr).andThen fun f _ _ _ hf hr => ?_⟩
    obtain ⟨_, _, rfl⟩ := hpq
    subst hf
    exact (setPwCore_related hR p.1 p.2 f _ (hR.storeAngle _ _ hr)).andThen fun _ _ _ _ _ hr => .done hr _
  | setPw ch v =>
    refine ⟨_, _, rfl, rfl, (servoLookup_related hR ch h).andThen fun p _ _ _ hpq hr =>
      (requireFreq_related hR hr).andThen fun f _ _ _ hf hr => ?_⟩
    obtain ⟨_, _, rfl⟩ := hpq
    subst hf
    exact (setPwCore_related hR p.1 p.2 f v hr).andThen fun _ _ _ _ _ hr => .done hr _

/-- Every step taken from related states ends in related states. -/
theorem step_related {s' t' : State} (h : R s t) (hs : step s = .next s') (ht : step t = .next t') : R s' t' := by
  have ha := hR.alike h
  unfold step at hs ht
  rw [← ha.phase] at ht
  cases hphase : s.phase with
  | initFault => rw [hphase] at hs; cases hs
  | ready =>
    rw [hphase] at hs ht
    cases hport : s.port with
    | nil =>
      have hport' := ha.port ▸ hport
      simp only [accept, hport, hport', idle, Host.Outcome.next.injEq] at hs ht
      exact hs ▸ ht ▸ h
    | cons w ws =>
      have hport' := ha.port ▸ hport
      have hw := hR.port ws h
      simp only [accept, hport, hport'] at hs ht
      cases hdecode : decode w with
      | error e =>
        simp only [hdecode, execIllegal, Host.Outcome.next.injEq] at hs ht
        exact hs ▸ ht ▸ hR.finish (.raised .illegal hw)
      | ok i =>
        simp only [hdecode] at hs ht
        obtain ⟨r, r', hr, hr', hrel⟩ := exec_related hR i hw
        obtain rfl := Host.Outcome.next.inj (hr.symm.trans hs)
        obtain rfl := Host.Outcome.next.inj (hr'.symm.trans ht)
        exact hR.finish hrel

end

/-! ### Stored steps, angles and pulse widths (R37) -/

theorem hide_setSlot (s : State) (i : Fin 16) (v : Slot) : (s.setSlot i v).hide = s.hide.setSlot i (hideSlot v) := by
  simp [State.hide, State.setSlot]

/-- An update of a slot that changes hidden values only cannot be seen. -/
theorem hide_setSlot_of_hideSlot {s : State} {i : Fin 16} {v : Slot} (h : hideSlot v = hideSlot (s.getSlot i)) :
    (s.setSlot i v).hide = s.hide := by
  rw [hide_setSlot, h, ← hide_getSlot]
  simp [State.setSlot, State.getSlot]

theorem hide_storeSteps (s : State) (i : Fin 16) (on off : BitVec 12) : (s.storeSteps i on off).hide = s.hide := by
  refine hide_setSlot_of_hideSlot ?_
  cases s.getSlot i <;> rfl

theorem hide_storeAngle (s : State) (i : Fin 16) (a : Int) : (s.storeAngle i a).hide = s.hide := by
  refine hide_setSlot_of_hideSlot ?_
  cases s.getSlot i <;> rfl

theorem hide_storePw (s : State) (i : Fin 16) (pw : Int) : (s.storePw i pw).hide = s.hide := by
  refine hide_setSlot_of_hideSlot ?_
  cases s.getSlot i <;> rfl

/-- The states are equal but for the hidden state of R37. -/
def SameButHidden (s t : State) : Prop := s.hide = t.hide

theorem SameButHidden.alike {s t : State} (h : SameButHidden s t) : Alike s t := by
  have horacle : s.oracle = t.oracle := congrArg (·.oracle) h
  have henv : s.env = t.env := congrArg (·.env) h
  exact alike_of_hide_hideEnv (congrArg State.hideEnv h) (fun _ _ => by rw [horacle, henv])
    (fun _ => by rw [horacle, henv])

/-- No command reads the stored steps, angles and pulse widths: hiding commutes with every update. -/
theorem unread_sameButHidden : Unread SameButHidden where
  alike := fun _ _ h => h.alike
  log := fun e _ _ h => congrArg (State.log · e) h
  draw := fun _ _ h => congrArg (fun s : State => s.withOracle (nextDraw s.oracle).2) h
  write := fun a b _ _ h => congrArg (fun s : State => s.withDev (Memory.write s.env.dev a b)) h
  forget := fun a _ _ h => congrArg (fun s : State => s.withDev (Memory.forget s.env.dev a)) h
  pin := fun l _ _ h => congrArg (State.withPin · l) h
  freq := fun f _ _ h => congrArg (State.withFreq · f) h
  resp := fun c d _ _ h => congrArg (State.withResp · c d) h
  port := fun ws _ _ h => congrArg (State.withPort · ws) h
  setSlot := fun i v _ _ h => by simp only [SameButHidden, hide_setSlot] at h ⊢; rw [h]
  storeSteps := fun i on off _ _ h => by simpa only [SameButHidden, hide_storeSteps] using h
  storeAngle := fun i a _ _ h => by simpa only [SameButHidden, hide_storeAngle] using h
  storePw := fun i pw _ _ h => by simpa only [SameButHidden, hide_storePw] using h

/-- Settles O54: the hidden state of R37 is a difference no command reads. -/
theorem hiddenStateInfluencesNothing : Obligations.HiddenStateInfluencesNothing :=
  fun _ _ _ _ h hs ht => step_related unread_sameButHidden h hs ht

/-! ### The environment record (R38) -/

/-- The answers are drawn, and the states are equal but for the environment record. -/
def SameButEnv (s t : State) : Prop := s.oracle.mode = .draws ∧ s.hideEnv = t.hideEnv

theorem SameButEnv.alike {s t : State} (h : SameButEnv s t) : Alike s t := by
  obtain ⟨hmode, h⟩ := h
  have horacle : s.oracle = t.oracle := congrArg (·.oracle) h
  exact alike_of_hide_hideEnv (congrArg State.hide h) (fun _ _ => by simp only [busAnswer, ← horacle, hmode])
    (fun _ => by simp only [pinAnswer, ← horacle, hmode])

/-- In draw mode no command reads the environment record: forgetting it commutes with every update. -/
theorem unread_sameButEnv : Unread SameButEnv where
  alike := fun _ _ h => h.alike
  log := fun e _ _ h => ⟨h.1, congrArg (State.log · e) h.2⟩
  draw := fun s _ h => ⟨(nextDraw_mode s.oracle).trans h.1, congrArg (fun s : State => s.withOracle (nextDraw s.oracle).2) h.2⟩
  write := fun _ _ _ _ h => h
  forget := fun _ _ _ h => h
  pin := fun _ _ _ h => h
  freq := fun f _ _ h => ⟨h.1, congrArg (State.withFreq · f) h.2⟩
  resp := fun c d _ _ h => ⟨h.1, congrArg (State.withResp · c d) h.2⟩
  port := fun ws _ _ h => ⟨h.1, congrArg (State.withPort · ws) h.2⟩
  setSlot := fun i v _ _ h => ⟨h.1, congrArg (State.setSlot · i v) h.2⟩
  storeSteps := fun i on off _ _ h => ⟨h.1, congrArg (State.storeSteps · i on off) h.2⟩
  storeAngle := fun i a _ _ h => ⟨h.1, congrArg (State.storeAngle · i a) h.2⟩
  storePw := fun i pw _ _ h => ⟨h.1, congrArg (State.storePw · i pw) h.2⟩

/-- Settles O55: under drawn answers the environment record is a difference no command reads. -/
theorem environmentRecordNeverRead : Obligations.EnvironmentRecordNeverRead :=
  fun _ _ _ _ hmode h hs ht => (step_related unread_sameButEnv ⟨hmode, h⟩ hs ht).2

end Machine
end Sys2Proof

/-! Channel register addresses (00_scope.md R12, R60). R12 keeps the greatest of the 64 sums inside a byte, so the address is
the sum itself; and a sum `4 i + k` with `k < 4` is written in one way only. -/

namespace Sys2Proof
namespace Machine

/-- What R11 and R12 require of the parameters. -/
theorem params_wf_iff (p : Config.Params) :
    p.wf = true ↔ 500 ≤ p.settleMs ∧ p.addrLed0OnL.toNat + 4 * 15 + 3 ≤ 0xFF := by
  simp only [Config.Params.wf, Bool.and_eq_true, decide_eq_true_eq]

theorem toNat_chanReg {p : Config.Params} (hp : p.wf = true) (i : Fin 16) {k : Nat} (hk : k < 4) :
    (chanReg p i k).toNat = p.addrLed0OnL.toNat + 4 * i.val + k := by
  obtain ⟨-, hled⟩ := (params_wf_iff p).mp hp
  have hsum : p.addrLed0OnL.toNat + 4 * i.val + k < 2 ^ 8 := by omega
  rw [chanReg, BitVec.toNat_ofNat, Nat.mod_eq_of_lt hsum]

theorem chanReg_injective {p : Config.Params} (hp : p.wf = true) {i j : Fin 16} {k l : Fin 4}
    (h : chanReg p i k = chanReg p j l) : i = j ∧ k = l := by
  have hsum : p.addrLed0OnL.toNat + 4 * i.val + k.val = p.addrLed0OnL.toNat + 4 * j.val + l.val := by
    rw [← toNat_chanReg hp i k.isLt, h, toNat_chanReg hp j l.isLt]
  constructor <;> omega

/-- Settles O19: the sums stay inside a byte, and quotient and remainder by 4 recover channel and offset. -/
theorem channelRegistersExactAndDistinct : Obligations.ChannelRegistersExactAndDistinct :=
  fun _ hp => ⟨fun i k => toNat_chanReg hp i k.isLt, fun _ _ _ _ h => chanReg_injective hp h⟩

end Machine
end Sys2Proof

/-! The decoder and the opcode table (30_encoding.md R67 to R79). One fact serves both: a word decodes to the command of an
operation exactly if it carries the operation's OP and leaves the reserved bits of its format zero. A row's mask is those bits
together, so matching the row says the same. -/

namespace Sys2Proof

open Laws.LegalWord (opOfCode_code)

/-! ### What decodes -/

theorem opOfCode_eq_some_iff {c : Byte} {op : Op} : opOfCode c = some op ↔ c = op.code := by
  refine ⟨fun h => ?_, fun h => h ▸ opOfCode_code op⟩
  unfold opOfCode at h
  iterate 14
    rcases ite_eq_iff.mp h with ⟨rfl, ⟨⟩⟩ | ⟨-, h⟩
    · rfl
  cases h

theorem Op.code_injective : Function.Injective Op.code := fun op op' h =>
  Option.some.inj ((opOfCode_code op).symm.trans (h ▸ opOfCode_code op'))

theorem fields_op (op : Op) (w : CmdWord) : (fields op w).op = op := by
  cases op <;> rfl

theorem decode_eq_ok_iff {w : CmdWord} {i : Instr} :
    decode w = .ok i ↔ ∃ op, fieldOp w = op.code ∧ w &&& op.format.reserved = 0#64 ∧ fields op w = i := by
  simp only [← opOfCode_eq_some_iff, decode]
  cases opOfCode (fieldOp w) with
  | none => simp
  | some op => by_cases h : w &&& op.format.reserved = 0#64 <;> simp [h]

theorem decode_eq_ok_fields_iff {w : CmdWord} {op : Op} :
    decode w = .ok (fields op w) ↔ fieldOp w = op.code ∧ w &&& op.format.reserved = 0#64 := by
  rw [decode_eq_ok_iff]
  constructor
  · rintro ⟨op', hop, hres, hf⟩
    have : op' = op := by rw [← fields_op op' w, hf, fields_op]
    exact this ▸ ⟨hop, hres⟩
  · exact fun ⟨hop, hres⟩ => ⟨op, hop, hres, rfl⟩

theorem decode_error_of_no_fields {w : CmdWord} (h : ∀ op, decode w ≠ .ok (fields op w)) :
    ∃ e, decode w = .error e := by
  cases hd : decode w with
  | error e => exact ⟨e, rfl⟩
  | ok i =>
    obtain ⟨op, -, -, rfl⟩ := decode_eq_ok_iff.mp hd
    exact absurd hd (h op)

/-! ### The rows of the table -/

theorem bitVec_append_inj {m n : Nat} {x x' : BitVec m} {y y' : BitVec n} : x ++ y = x' ++ y' ↔ x = x' ∧ y = y' := by
  refine ⟨fun h => ⟨?_, ?_⟩, fun ⟨hx, hy⟩ => hx ▸ hy ▸ rfl⟩
  · simpa only [BitVec.extractLsb'_append_eq_left] using congrArg (BitVec.extractLsb' n m) h
  · simpa only [BitVec.extractLsb'_append_eq_right] using congrArg (BitVec.extractLsb' 0 n) h

theorem exists_eq_fieldOp_append (w : CmdWord) : ∃ rest : BitVec 56, w = fieldOp w ++ rest :=
  ⟨w.extractLsb' 0 56,
    ((BitVec.extractLsb'_append_extractLsb'_eq_extractLsb' (show 56 = 0 + 56 from rfl)).trans
      BitVec.extractLsb'_eq_self).symm⟩

/-- No bit of OP is reserved (R67). -/
theorem reserved_eq_append (f : Format) : f.reserved = 0#8 ++ f.reserved.extractLsb' 0 56 := by
  cases f <;> decide

/-- The mask splits into OP's eight bits and the 56 below, and so does the match. -/
theorem and_mask_eq_iff (w : CmdWord) (f : Format) (c : Byte) :
    w &&& (0xFF00000000000000#64 ||| f.reserved) = c ++ 0#56 ↔ fieldOp w = c ∧ w &&& f.reserved = 0#64 := by
  obtain ⟨rest, hw⟩ := exists_eq_fieldOp_append w
  have hOp : 0xFF00000000000000#64 = BitVec.allOnes 8 ++ 0#56 := by decide
  have hZero : 0#64 = 0#8 ++ 0#56 := by decide
  generalize fieldOp w = op at hw ⊢
  rw [reserved_eq_append f, hOp, hw, BitVec.or_append, BitVec.and_append, BitVec.and_append, bitVec_append_inj, hZero,
    bitVec_append_inj, BitVec.or_zero, BitVec.zero_or, BitVec.and_allOnes, BitVec.and_zero]
  simp only [true_and]

/-- The row of an operation, its mask and match as R68 describes them. -/
def Op.row (op : Op) : TableRow := ⟨op, 0xFF00000000000000#64 ||| op.format.reserved, op.code ++ 0#56⟩

theorem mem_opcodeTable_iff (r : TableRow) : r ∈ opcodeTable ↔ ∃ op : Op, r = op.row := by
  constructor
  · have hrow : ∀ r ∈ opcodeTable, r = r.op.row := by decide
    exact fun h => ⟨r.op, hrow r h⟩
  · rintro ⟨op, rfl⟩
    cases op <;> decide

theorem matchesWord_row_iff {op : Op} {w : CmdWord} :
    op.row.matchesWord w = true ↔ decode w = .ok (fields op w) := by
  rw [decode_eq_ok_fields_iff, TableRow.matchesWord, beq_iff_eq]
  exact and_mask_eq_iff w op.format op.code

/-- Settles O3: the rows are those of the operations, and to match one is to decode to its command; so a word matching two
rows would decode to commands of two operations. -/
theorem wordIsRowsCommandIffItMatches : Obligations.WordIsRowsCommandIffItMatches := by
  simp only [Obligations.WordIsRowsCommandIffItMatches, mem_opcodeTable_iff, forall_exists_index,
    forall_eq_apply_imp_iff]
  refine ⟨fun op => ⟨rfl, rfl⟩, fun op w => ?_, fun op op' w h h' => ?_, fun w h => ?_⟩
  · exact beq_iff_eq.symm.trans matchesWord_row_iff
  · have hok := (matchesWord_row_iff.mp h).symm.trans (matchesWord_row_iff.mp h')
    rw [← fields_op op w, Except.ok.inj hok, fields_op]
  · exact decode_error_of_no_fields fun op hok => Bool.false_ne_true ((h op).symm.trans (matchesWord_row_iff.mpr hok))

/-- Settles O5, by running the decoder on the nine words. -/
theorem specimenWordsDecode : Obligations.SpecimenWordsDecode := by
  unfold Obligations.SpecimenWordsDecode
  decide

/-! ### Words of commands -/

/-- The word of a command is legal, so it decodes to the command as soon as its fields are the command's operands. -/
theorem decode_encode_of_fields {i : Instr} (h : Laws.LegalWord.Statement i) (hf : fields i.op (encode i) = i) :
    decode (encode i) = .ok i := by
  obtain ⟨hop, hres⟩ := h
  exact decode_eq_ok_iff.mpr ⟨i.op, opOfCode_eq_some_iff.mp hop, hres, hf⟩

/-- The channel of a word of format C (R72). -/
theorem fieldCh_formatC (op ch : Byte) : fieldCh (op ++ ch ++ 0#48) = ch := by
  rw [fieldCh, BitVec.extractLsb'_append_eq_of_le (by decide)]
  exact BitVec.extractLsb'_append_eq_right

theorem decode_encode_setFullOff (ch : Byte) : decode (encode (.setFullOff ch)) = .ok (.setFullOff ch) :=
  decode_encode_of_fields (Laws.LegalWord.setFullOff ch) (congrArg Instr.setFullOff (fieldCh_formatC _ ch))

theorem decode_encode_dropCh (ch : Byte) : decode (encode (.dropCh ch)) = .ok (.dropCh ch) :=
  decode_encode_of_fields (Laws.LegalWord.dropCh ch) (congrArg Instr.dropCh (fieldCh_formatC _ ch))

end Sys2Proof

/-! The assembler (30_encoding.md R83, R93 to R95). Each mnemonic reads its operands in order, each by the reader of its range,
so a line is taken exactly if it has as many operands as ranges and every reader answers; the cases below go by the number of
operands. -/

namespace Sys2Proof
namespace Machine

/-! ### Operands and their ranges -/

theorem asmS32_of_inS32 {v : Int} (h : inS32 v = true) : asmS32 v = some v := if_pos h

theorem inS32_of_asmS32 {v x : Int} (h : asmS32 v = some x) : inS32 x = true := by
  rw [asmS32, Option.ite_none_right_eq_some] at h
  obtain ⟨hv, hx⟩ := h
  exact Option.some.inj hx ▸ hv

theorem operandsOk_nil_iff {xs : List Int} : operandsOk [] xs = true ↔ xs = [] := by
  cases xs <;> simp [operandsOk]

theorem operandsOk_cons_iff {r : Int × Int} {rs : List (Int × Int)} {xs : List Int} :
    operandsOk (r :: rs) xs = true ↔ ∃ y ys, xs = y :: ys ∧ (r.1 ≤ y ∧ y ≤ r.2) ∧ operandsOk rs ys = true := by
  cases xs <;> simp [operandsOk]

/-! ### Which lines are taken -/

theorem assembleOp_isSome (op : Op) (xs : List Int) :
    (∃ i, assembleOp op xs = some i) ↔ operandsOk (operandRanges (.cmd op)) xs = true := by
  cases op <;> simp only [operandRanges, operandsOk_cons_iff, operandsOk_nil_iff, ← asmCh_isSome, ← asmUnsigned_isSome,
    ← asmS32_isSome]
  case oeGet => cases xs <;> simp [assembleOp]
  case oeSet | setFreq | regCh | lookupCh | dropCh | readReg | setFullOn | setFullOff =>
    rcases xs with _ | ⟨_, _ | ⟨_, _⟩⟩ <;> simp [assembleOp]
  case writeReg | setAngle | setPw =>
    rcases xs with _ | ⟨_, _ | ⟨_, _ | ⟨_, _⟩⟩⟩ <;> simp [assembleOp, Option.bind_eq_some_iff]
  case setPwm =>
    rcases xs with _ | ⟨_, _ | ⟨_, _ | ⟨_, _ | ⟨_, _⟩⟩⟩⟩ <;> simp [assembleOp, Option.bind_eq_some_iff]
  case regServo =>
    rcases xs with _ | ⟨_, _ | ⟨_, _ | ⟨_, _ | ⟨_, _ | ⟨_, _ | ⟨_, _⟩⟩⟩⟩⟩⟩ <;>
      simp [assembleOp, Option.bind_eq_some_iff]

theorem assemble_isSome (m : Mnemonic) (xs : List Int) :
    (∃ is, assemble ⟨m, xs⟩ = some is) ↔ operandsOk (operandRanges m) xs = true := by
  cases m with
  | cmd op => simp [assemble, ← assembleOp_isSome]
  | oeEnable | oeDisable => cases xs <;> simp [assemble, operandRanges, operandsOk]
  | quiesceDrop | regServoDefault =>
    simp only [operandRanges, operandsOk_cons_iff, operandsOk_nil_iff, ← asmCh_isSome]
    rcases xs with _ | ⟨_, _ | ⟨_, _⟩⟩ <;> simp [assemble]
  | setFull =>
    simp only [operandRanges, operandsOk_cons_iff, operandsOk_nil_iff, ← asmCh_isSome, ← asmUnsigned_isSome]
    rcases xs with _ | ⟨_, _ | ⟨_, _ | ⟨_, _⟩⟩⟩ <;> simp [assemble, Option.bind_eq_some_iff]

/-! ### What a line gives -/

/-- `VAL` is the one operand a command could get wrong (R77), and the assembler has read it. -/
theorem assembleOp_wellFormed {op : Op} {xs : List Int} {i : Instr} (h : assembleOp op xs = some i) :
    i.wellFormed = true := by
  cases i with
  | setAngle ch v | setPw ch v =>
    have hread : ∃ x, asmS32 x = some v := by
      unfold assembleOp at h
      split at h <;> split at h <;>
        simp only [Option.bind_eq_bind, Option.bind_eq_some_iff, Option.map_eq_some_iff, Option.pure_def,
          Option.some.injEq, Instr.setAngle.injEq, Instr.setPw.injEq, reduceCtorEq, and_false, exists_false] at h
      obtain ⟨_, -, x, hx, -, rfl⟩ := h
      exact ⟨_, hx⟩
    obtain ⟨_, hx⟩ := hread
    exact inS32_of_asmS32 hx
  | _ => rfl

theorem assemble_wellFormed {m : Mnemonic} {xs : List Int} {is : List Instr} (h : assemble ⟨m, xs⟩ = some is) :
    is ≠ [] ∧ ∀ i ∈ is, i.wellFormed = true := by
  cases m with
  | cmd op =>
    obtain ⟨i, hi, rfl⟩ := Option.map_eq_some_iff.mp h
    simpa using assembleOp_wellFormed hi
  | quiesceDrop | regServoDefault =>
    rcases xs with _ | ⟨_, _ | ⟨_, _⟩⟩ <;> simp only [assemble, Option.map_eq_some_iff, reduceCtorEq] at h
    obtain ⟨c, -, rfl⟩ := h
    simp [Instr.wellFormed]
  | setFull =>
    rcases xs with _ | ⟨_, _ | ⟨_, _ | ⟨_, _⟩⟩⟩ <;>
      simp only [assemble, Option.bind_eq_bind, Option.bind_eq_some_iff, Option.pure_def, Option.some.injEq,
        reduceCtorEq] at h
    obtain ⟨c, -, b, -, rfl⟩ := h
    by_cases hb : b = 1#1 <;> simp [hb, Instr.wellFormed]
  | oeEnable | oeDisable =>
    cases xs <;> simp only [assemble, Option.some.injEq, reduceCtorEq] at h
    subst h
    simp [Instr.wellFormed]

theorem assemble_lineOf {i : Instr} (h : i.wellFormed = true) : assemble (lineOf i) = some [i] := by
  cases i with
  | setAngle ch v | setPw ch v => simp [assemble, assembleOp, lineOf, asmS32_of_inS32 h]
  | _ => simp [assemble, assembleOp, lineOf]

/-! ### The channel operand -/

theorem assembleOp_congr_ch {op : Op} {ch ch' : Int} (h : asmCh ch = asmCh ch') (xs : List Int)
    (hop : (operandRanges (.cmd op)).head? = some chRange) :
    assembleOp op (ch :: xs) = assembleOp op (ch' :: xs) := by
  cases op
  case oeGet | oeSet | setFreq | readReg | writeReg => exact absurd hop (by decide)
  case regCh | lookupCh | dropCh | setFullOn | setFullOff => cases xs <;> simp only [assembleOp, h]
  case setAngle | setPw => rcases xs with _ | ⟨_, _ | ⟨_, _⟩⟩ <;> simp only [assembleOp, h]
  case setPwm => rcases xs with _ | ⟨_, _ | ⟨_, _ | ⟨_, _⟩⟩⟩ <;> simp only [assembleOp, h]
  case regServo => rcases xs with _ | ⟨_, _ | ⟨_, _ | ⟨_, _ | ⟨_, _ | ⟨_, _⟩⟩⟩⟩⟩ <;> simp only [assembleOp, h]

/-- A line whose first operand is a channel depends on it only by what is read of it. -/
theorem assemble_congr_ch {m : Mnemonic} {ch ch' : Int} (h : asmCh ch = asmCh ch') (xs : List Int)
    (hm : (operandRanges m).head? = some chRange) : assemble ⟨m, ch :: xs⟩ = assemble ⟨m, ch' :: xs⟩ := by
  cases m with
  | cmd op => simp only [assemble, assembleOp_congr_ch h xs hm]
  | quiesceDrop | regServoDefault => cases xs <;> simp only [assemble, h]
  | setFull => rcases xs with _ | ⟨_, _ | ⟨_, _⟩⟩ <;> simp only [assemble, h]
  | oeEnable | oeDisable => exact absurd hm (by decide)

/-- Settles O57: a line is taken if every reader answers, and a negative channel reads as the one 256 above it. -/
theorem assemblerRefusesOutOfRange : Obligations.AssemblerRefusesOutOfRange :=
  ⟨fun ⟨m, xs⟩ => assemble_isSome m xs, fun _ _ h => assemble_wellFormed h, fun _ h => assemble_lineOf h,
    fun _ _ xs hm hlow hneg => assemble_congr_ch (asmCh_negative hlow hneg) xs hm⟩

/-! ### The pseudo-instructions -/

theorem assemble_setFull (ch b : Int) : assemble ⟨.setFull, [ch, b]⟩ =
    if b = 1 then assemble ⟨.cmd .setFullOn, [ch]⟩
    else if b = 0 then assemble ⟨.cmd .setFullOff, [ch]⟩ else none := by
  by_cases hone : b = 1
  · subst hone
    cases h : asmCh ch <;> simp [assemble, assembleOp, asmUnsigned, h]
  by_cases hzero : b = 0
  · subst hzero
    cases h : asmCh ch <;> simp [assemble, assembleOp, asmUnsigned, h]
  · have hb : asmUnsigned 1 b = none := if_neg (by omega)
    simp [assemble, hone, hzero, hb]

/-- Settles O60: a pseudo-instruction is refused exactly where its channel or its `b` is. -/
theorem pseudoInstructionsExpand : Obligations.PseudoInstructionsExpand := by
  refine ⟨fun ch => ?_, fun ch => ?_, assemble_setFull, rfl, rfl⟩
  · cases h : asmCh ch <;> simp [assemble, assembleOp, h]
  · cases h : asmCh ch <;> simp [assemble, assembleOp, asmUnsigned, h]

theorem assemble_quiesceDrop (ch : Byte) :
    assemble ⟨.quiesceDrop, [ch.toNat]⟩ = some [.setFullOff ch, .dropCh ch] := by
  simp [assemble]

end Machine
end Sys2Proof

/-! Words on the port: an illegal one (30_encoding.md R79, 60_exceptions.md R164), and the two of QUIESCE_DROP, which the host
presents one after the other (30_encoding.md R92, R93). -/

namespace Sys2Proof
namespace Machine

/-! ### One word -/

theorem step_of_decode_ok {s : State} {w : CmdWord} {ws : List CmdWord} {i : Instr} (hphase : s.phase = .ready)
    (hport : s.port = w :: ws) (hdecode : decode w = .ok i) : step s = exec i (s.withPort ws) := by
  simp only [step, hphase, accept, hport, hdecode]

theorem step_of_decode_error {s : State} {w : CmdWord} {ws : List CmdWord} {e : DecodeError}
    (hphase : s.phase = .ready) (hport : s.port = w :: ws) (hdecode : decode w = .error e) :
    step s = .next ((s.withPort ws).withResp (errCode .illegal) 0x00#8) := by
  simp only [step, hphase, accept, hport, hdecode, execIllegal, finish_raised]

/-- Settles O4: a word that decodes carries a listed OP and no reserved bit, so neither kind of illegal word does. -/
theorem illegalWordAnswersIllegal : Obligations.IllegalWordAnswersIllegal := by
  intro s w ws hphase hport hillegal
  suffices hno : ∀ op, decode w ≠ .ok (fields op w) by
    obtain ⟨e, he⟩ := decode_error_of_no_fields hno
    exact step_of_decode_error hphase hport he
  intro op hok
  obtain ⟨hop, hres⟩ := decode_eq_ok_fields_iff.mp hok
  rcases hillegal with hunlisted | ⟨r, -, hr, hbit⟩
  · exact hunlisted op.row ((mem_opcodeTable_iff _).mpr ⟨op, rfl⟩) hop
  · obtain rfl : op = r.op := Op.code_injective (hop.symm.trans hr)
    exact hbit hres

/-! ### The commands of an expansion -/

theorem step_encode {s : State} {i : Instr} (hphase : s.phase = .ready) (hport : s.port = [])
    (hdecode : decode (encode i) = .ok i) : step (s.withPort [encode i]) = exec i s := by
  have hfree : (s.withPort [encode i]).withPort [] = s := by rw [State.withPort, State.withPort, ← hport]
  rw [step_of_decode_ok (s := s.withPort [encode i]) hphase rfl hdecode, hfree]

section
variable {s t : State} {i : Instr} (rest : List Instr) (hphase : s.phase = .ready) (hport : s.port = [])
  (hdecode : decode (encode i) = .ok i) (h : exec i s = .next t)
include hphase hport hdecode h

theorem issue_cons_of_ok (hok : responseOk t = true) : issue (i :: rest) s = issue rest t := by
  simp only [issue, step_encode hphase hport hdecode, h, hok, if_true]

theorem issue_cons_of_error (herr : responseOk t = false) : issue (i :: rest) s = .next t := by
  simp only [issue, step_encode hphase hport hdecode, h, herr, Bool.false_eq_true, if_false]

end

theorem exec_setFullOff_ok {s : State} {ch : Byte} (hch : ch.toNat < 16) (hs : s.getSlot ⟨ch.toNat, hch⟩ ≠ .absent)
    (h : acks 2 s.oracle) :
    exec (.setFullOff ch) s = .next (s.afterWrites (chanWrites s.params ⟨ch.toNat, hch⟩ encFullOff)) := by
  rw [exec, execSetFullOff, lookup_ok hch hs, andThen_ok,
    busWrites_ok (chanWrites s.params ⟨ch.toNat, hch⟩ encFullOff) s h]
  rfl

theorem exec_setFullOff_fail {s : State} {ch : Byte} (hch : ch.toNat < 16) (hs : s.getSlot ⟨ch.toNat, hch⟩ ≠ .absent)
    {k : Nat} (hk : k < (chanWrites s.params ⟨ch.toNat, hch⟩ encFullOff).length) (h : failsAt k s.oracle) :
    exec (.setFullOff ch) s = .next (s.afterFailure (chanWrites s.params ⟨ch.toNat, hch⟩ encFullOff) k hk) := by
  rw [exec, execSetFullOff, lookup_ok hch hs, andThen_ok,
    busWrites_fail (chanWrites s.params ⟨ch.toNat, hch⟩ encFullOff) s k hk h]
  rfl

theorem exec_dropCh_ok {ch : Byte} (hch : ch.toNat < 16) (s : State) :
    exec (.dropCh ch) s = .next ((s.setSlot ⟨ch.toNat, hch⟩ .absent).withResp statusOk 0x00#8) := by
  rw [exec, execDropCh, checkIndex_ok s hch, andThen_ok, finish_ok]

/-- Settles O58: SET_FULL_OFF answers OK and DROP_CH follows, or it answers TRANSPORT and the expansion ends there. -/
theorem quiesceDropWritesFullOffFirst : Obligations.QuiesceDropWritesFullOffFirst := by
  intro s ch hch is ws hphase hport hs his hws
  obtain rfl := Option.some.inj ((assemble_quiesceDrop ch).symm.trans his)
  obtain rfl : ws = chanWrites s.params ⟨ch.toNat, hch⟩ encFullOff := hws
  constructor
  · intro h
    have hoff := exec_setFullOff_ok hch hs h
    have hdrop := exec_dropCh_ok hch (s.afterWrites (chanWrites s.params ⟨ch.toNat, hch⟩ encFullOff))
    exact (issue_cons_of_ok _ hphase hport (decode_encode_setFullOff ch) hoff rfl).trans
      (issue_cons_of_ok [] hphase hport (decode_encode_dropCh ch) hdrop rfl)
  · intro k hk h
    have hoff := exec_setFullOff_fail hch hs hk h
    exact issue_cons_of_error _ hphase hport (decode_encode_setFullOff ch) hoff rfl

end Machine
end Sys2Proof

/-! The controller commands of one interaction or none (40_controller.md): output enable, the raw registers, the channel
registry. Each is one shared operation and its response, so each path of a command is an equation of that operation. -/

namespace Sys2Proof
namespace Machine

/-! ### Output enable and the raw registers -/

/-- Settles O20: OE_GET is one pin read, and its outcomes are the two of `pinRead`. -/
theorem oeGetReadsPin : Obligations.OeGetReadsPin := by
  refine fun s => ⟨fun h => ⟨_, rfl, ?_⟩, fun h => ?_⟩
  · rw [exec, execOeGet, pinRead_ok h]; rfl
  · rw [exec, execOeGet, pinRead_fail h]; rfl

/-- The level OE_SET drives: the output enable is active low (R100). -/
def oeLevel (v : Bit) : Bit := if v = 1#1 then 0#1 else 1#1

theorem exec_oeSet (v : Bit) (s : State) :
    exec (.oeSet v) s = .next (finish ((pinWrite (oeLevel v) s).andThen fun _ s => .ok 0x00#8 s)) := rfl

/-- Settles O21: OE_SET is one pin write of the opposite level; a failed one leaves the level unknown (log entry 7). -/
theorem oeSetDrivesPin : Obligations.OeSetDrivesPin := by
  intro s v level hlevel
  obtain rfl : level = oeLevel v := by rcases hlevel with ⟨rfl, rfl⟩ | ⟨rfl, rfl⟩ <;> rfl
  refine ⟨fun h => ?_, fun h => ⟨none, ?_⟩⟩
  · rw [exec_oeSet, pinWrite_ok h]; rfl
  · rw [exec_oeSet, pinWrite_fail h]; rfl

/-- Settles O28: READ_REG is one bus read, of whatever address. -/
theorem readRegPassesThrough : Obligations.ReadRegPassesThrough := by
  refine fun s addr => ⟨fun h => ⟨_, rfl, ?_⟩, fun h => ?_⟩
  · rw [exec, execReadReg, busRead_ok h]; rfl
  · rw [exec, execReadReg, busRead_fail h]; rfl

/-- Settles O29: WRITE_REG is one bus write, to whatever address. -/
theorem writeRegPassesThrough : Obligations.WriteRegPassesThrough := by
  refine fun s addr data => ⟨fun h => ?_, fun h => ?_⟩
  · rw [exec, execWriteReg, busWrite_ok h]; rfl
  · rw [exec, execWriteReg, busWrite_fail h, State.afterFailure, List.take_zero, wrEvents, List.map_nil, List.append_nil]
    rfl

/-! ### The channel registry -/

section
variable {s : State} {ch : Byte} (hch : ch.toNat < 16)

theorem exec_regCh_ok (hs : s.getSlot ⟨ch.toNat, hch⟩ = .absent) :
    exec (.regCh ch) s = .next ((s.setSlot ⟨ch.toNat, hch⟩ (.chan freshChan)).withResp statusOk 0x00#8) := by
  rw [exec, execRegCh, requireFree_ok hch hs, andThen_ok, finish_ok]

theorem exec_regCh_conflict (hs : s.getSlot ⟨ch.toNat, hch⟩ ≠ .absent) :
    exec (.regCh ch) s = .next (s.answer 0x02#8) := by
  rw [exec, execRegCh, requireFree_conflict hch hs]; rfl

/-- A command that begins with a lookup answers LOOKUP on an Absent slot, whatever it would go on with (R99). -/
theorem finish_lookup_absent (hs : s.getSlot ⟨ch.toNat, hch⟩ = .absent) (k : Fin 16 × Slot → State → Res Byte) :
    finish ((lookup ch s).andThen k) = s.answer 0x03#8 := by
  rw [lookup_absent hch hs]; rfl

/-- As `finish_lookup_absent`, for the servo commands (R137). -/
theorem finish_servoLookup_absent (hs : s.getSlot ⟨ch.toNat, hch⟩ = .absent)
    (k : Fin 16 × ServoRec → State → Res Byte) : finish ((servoLookup ch s).andThen k) = s.answer 0x03#8 := by
  rw [servoLookup_absent hch hs]; rfl

end

/-- Settles O24: the three outcomes of `requireFree`. -/
theorem regChRegistersFreshChannel : Obligations.RegChRegistersFreshChannel := by
  refine fun s ch => ⟨fun hch => ?_, fun hch => ⟨exec_regCh_conflict hch, exec_regCh_ok hch⟩⟩
  rw [exec, execRegCh, requireFree_range s hch]; rfl

/-- Settles O25: the three outcomes of `lookup`, the last one on either kind of slot. -/
theorem lookupChTellsKind : Obligations.LookupChTellsKind := by
  refine fun s ch => ⟨fun hch => ?_, fun hch => ⟨fun hs => ?_, fun c hs => ?_, fun c sv hs => ?_⟩⟩
  · rw [exec, execLookupCh, lookup_range s hch]; rfl
  · exact congrArg _ (finish_lookup_absent hch hs _)
  · rw [exec, execLookupCh, lookup_ok hch (by simp [hs]), hs]; rfl
  · rw [exec, execLookupCh, lookup_ok hch (by simp [hs]), hs]; rfl

/-- Settles O26: DROP_CH checks the index alone, not what the slot holds. -/
theorem dropChClearsSlot : Obligations.DropChClearsSlot := by
  refine fun s ch => ⟨fun hch => ?_, fun hch => exec_dropCh_ok hch s⟩
  rw [exec, execDropCh, checkIndex_range s hch]; rfl

/-- Settles O27: a dropped slot is Absent, so every lookup raises and a registration succeeds, after which it is not. -/
theorem registerTwiceDropRegister : Obligations.RegisterTwiceDropRegister := by
  intro s t ch hch hdrop
  have hs : t.getSlot ⟨ch.toNat, hch⟩ = .absent := by
    obtain rfl := Host.Outcome.next.inj ((exec_dropCh_ok hch s).symm.trans hdrop)
    exact setSlot_getSlot_self s _ _
  constructor
  · rintro i (rfl | ⟨on, off, rfl⟩ | rfl | rfl | ⟨v, rfl⟩ | ⟨v, rfl⟩)
    · exact congrArg _ (finish_lookup_absent hch hs _)
    · exact congrArg _ (finish_lookup_absent hch hs _)
    · exact congrArg _ (finish_lookup_absent hch hs _)
    · exact congrArg _ (finish_lookup_absent hch hs _)
    · exact congrArg _ (finish_servoLookup_absent hch hs _)
    · exact congrArg _ (finish_servoLookup_absent hch hs _)
  · have hslot := setSlot_getSlot_self t ⟨ch.toNat, hch⟩ (.chan freshChan)
    refine ⟨_, exec_regCh_ok hch hs, rfl, hslot, exec_regCh_conflict hch fun habsent => ?_⟩
    exact Slot.noConfusion (hslot.symm.trans habsent)

end Machine
end Sys2Proof

/-! SET_FREQ (40_controller.md section 3): which frequencies it refuses, and its five steps. The sequence is said once for
each place at which it can end: the read of MODE1, one of the two writes after it, the delay, the last write. -/

namespace Sys2Proof
namespace Machine

/-! ### The prescale (R105, R106) -/

theorem presc_eq_specPresc {f : Nat} (hf : 1 ≤ f) : presc f = specPresc f := by
  have hround := roundDiv_eq_roundRat 25000000 (4096 * f) (by omega)
  rw [← presc_add_one] at hround
  push_cast at hround
  exact eq_sub_of_add_eq hround

/-- The integer form of R105: the numerator is positive, so rounding adds one half and takes the floor. -/
theorem presc_eq_floor (f : Nat) : presc f = (50000000 + 4096 * (f : Int)) / (8192 * f) - 1 := by
  rw [eq_sub_iff_add_eq, presc_add_one, roundDiv, if_pos (by decide)]
  congr 1
  push_cast; ring

/-- Settles O11: the machine's rounding of the quotient, in its rational and in its integer form. -/
theorem prescaleIsRoundedRational : Obligations.PrescaleIsRoundedRational :=
  fun f hf => ⟨presc_eq_specPresc hf, presc_eq_floor f⟩

/-! ### The MODE1 bytes (R107, R109) -/

theorem mode1KeepMask_bit (k : Fin 8) : Config.mode1KeepMask.getLsbD k = decide (k ≠ 7) := by revert k; decide

theorem mode1Sleep_bit (k : Fin 8) : Config.mode1Sleep.getLsbD k = decide (k = 4) := by revert k; decide

theorem mode1Restart_bit (k : Fin 8) : Config.mode1Restart.getLsbD k = decide (k = 7) := by revert k; decide

/-- Settles O17: each bit is that of the byte read, masked and then set as the constants of R15 say. -/
theorem mode1BytesKeepOtherBits : Obligations.Mode1BytesKeepOtherBits := by
  intro old k
  constructor
  · rw [sleepByte, BitVec.getLsbD_or, BitVec.getLsbD_and, mode1KeepMask_bit, mode1Sleep_bit]
    by_cases h7 : k = 7
    · subst h7; simp
    · simp [h7, Bool.or_comm]
  · rw [restartByte, BitVec.getLsbD_or, mode1Restart_bit]
    by_cases h7 : k = 7 <;> simp [h7]

/-! ### The interactions to come, in two parts, and sequencing -/

theorem andThen_assoc {α β γ : Type} (r : Res α) (k : α → State → Res β) (l : β → State → Res γ) :
    (r.andThen k).andThen l = r.andThen fun a s => (k a s).andThen l := by
  cases r <;> rfl

theorem acks_add (m n : Nat) (o : Oracle) : acks (m + n) o ↔ acks m o ∧ acks n (afterDraws m o) := by
  induction m generalizing o with
  | zero => simp [afterDraws]
  | succ m ih => rw [Nat.succ_add, acks_succ, ih, acks_succ, and_assoc]; rfl

theorem failsAt_add (m k : Nat) (o : Oracle) : failsAt (m + k) o ↔ acks m o ∧ failsAt k (afterDraws m o) := by
  induction m generalizing o with
  | zero => simp [afterDraws]
  | succ m ih => rw [Nat.succ_add, failsAt_succ, ih, acks_succ, and_assoc]; rfl

theorem afterDraws_add (m n : Nat) (o : Oracle) : afterDraws (m + n) o = afterDraws n (afterDraws m o) := by
  induction m generalizing o with
  | zero => simp [afterDraws]
  | succ m ih => rw [Nat.succ_add, afterDraws_succ, ih]; rfl

/-! ### The frequencies accepted (R104, R106) -/

theorem exec_setFreq_refused (s : State) {f : BitVec 32} (hf : f.toNat < 24 ∨ 12207 < f.toNat) :
    exec (.setFreq f) s = .next (s.answer 0x01#8) := by
  rw [exec, execSetFreq]
  by_cases hzero : f = 0#32
  · rw [if_pos hzero]; rfl
  have hpos : 1 ≤ f.toNat := Nat.pos_of_ne_zero fun e => hzero (BitVec.eq_of_toNat_eq e)
  have hbyte := presc_in_byte_iff hpos
  have hrange : presc f.toNat < Config.prescaleMin ∨ Config.prescaleMax < presc f.toNat := by
    simp only [Config.prescaleMin, Config.prescaleMax]; omega
  rw [if_neg hzero, if_pos hrange]; rfl

/-- On an accepted frequency SET_FREQ is its sequence, and the frequency becomes active after it (R107, R108). -/
theorem exec_setFreq_accepted (s : State) {f : BitVec 32} (hlow : 24 ≤ f.toNat) (hhigh : f.toNat ≤ 12207) :
    exec (.setFreq f) s = .next (finish ((setFreqSequence (BitVec.ofInt 8 (specPresc f.toNat)) s).andThen fun _ s =>
      .ok 0x00#8 (s.withFreq f))) := by
  have hpos : 1 ≤ f.toNat := by omega
  have hzero : f ≠ 0#32 := by rintro rfl; exact absurd hpos (by decide)
  have hbyte := (presc_in_byte_iff hpos).mpr ⟨hlow, hhigh⟩
  rw [exec, execSetFreq, if_neg hzero, if_neg (by simp only [Config.prescaleMin, Config.prescaleMax]; omega),
    presc_eq_specPresc hpos]

/-- The checks of R104 and R106, in the spec's terms, together accept exactly 24..12207. -/
theorem accepted_iff_specPresc (f : BitVec 32) :
    (f ≠ 0#32 ∧ 0 ≤ specPresc f.toNat ∧ specPresc f.toNat ≤ 255) ↔ 24 ≤ f.toNat ∧ f.toNat ≤ 12207 := by
  by_cases hzero : f = 0#32
  · subst hzero; simp
  have hpos : 1 ≤ f.toNat := Nat.pos_of_ne_zero fun e => hzero (BitVec.eq_of_toNat_eq e)
  rw [← presc_eq_specPresc hpos, presc_in_byte_iff hpos]
  exact and_iff_right hzero

theorem exec_setFreq_answers (s : State) {f : BitVec 32} (hlow : 24 ≤ f.toNat) (hhigh : f.toNat ≤ 12207) :
    ∃ t, exec (.setFreq f) s = .next t ∧ (t.resp = some (0x00#8, 0x00#8) ∨ t.resp = some (0x04#8, 0x00#8)) := by
  rw [exec_setFreq_accepted s hlow hhigh]
  rcases setFreqSequence_did (BitVec.ofInt 8 (specPresc f.toNat)) s with ⟨u, e, -⟩ | ⟨u, e, -⟩ <;> rw [e]
  · exact ⟨_, rfl, .inl rfl⟩
  · exact ⟨_, rfl, .inr rfl⟩

/-- Settles O12: within 24..12207 the response is never RANGE, outside it always. -/
theorem acceptedFrequencies : Obligations.AcceptedFrequencies := by
  refine ⟨fun s f => ⟨exec_setFreq_refused s, fun hrange => ?_⟩, fun s f => exec_setFreq_answers s,
    fun f => presc_in_byte_iff⟩
  by_contra haccepted
  obtain ⟨t, ht, hresp⟩ := exec_setFreq_answers s (f := f) (by omega) (by omega)
  obtain rfl := Host.Outcome.next.inj (hrange.symm.trans ht)
  simp [State.answer] at hresp

/-! ### The sequence (R107) -/

/-- After step 1: MODE1 has answered `old`. -/
def State.afterMode1Read (s : State) (old : Byte) : State :=
  (s.withOracle (nextDraw s.oracle).2).log (.rd s.busAddr s.params.addrMode1 (some old))

/-- The writes of steps 2 and 3. -/
def sleepWrites (p : Config.Params) (old b : Byte) : List (Byte × Byte) :=
  [(p.addrMode1, sleepByte old), (p.addrPrescale, b)]

/-- After step 3: MODE1 is written with sleep set and PRESCALE with `b`. -/
def State.afterPrescale (s : State) (old b : Byte) : State :=
  { s with
    oracle := afterDraws 3 s.oracle
    env := { s.env with dev := writeAll s.env.dev (sleepWrites s.params old b) }
    trace := s.trace ++ [.rd s.busAddr s.params.addrMode1 (some old)] ++
      wrEvents s.busAddr (sleepWrites s.params old b) }

/-- After step 4, the delay. -/
def State.afterSettle (s : State) (old b : Byte) : State :=
  { s with
    oracle := afterDraws (3 + delayDraws s.params) s.oracle
    env := { s.env with dev := writeAll s.env.dev (sleepWrites s.params old b) }
    trace := s.trace ++ [.rd s.busAddr s.params.addrMode1 (some old)] ++
      wrEvents s.busAddr (sleepWrites s.params old b) ++ [.dly s.params.settleMs] }

section
variable {s : State} {old b : Byte}

/-- Step 1 fails. -/
theorem setFreqSequence_read_fail (h : failsAt 0 s.oracle) :
    setFreqSequence b s = .raised .transport
      ((s.withOracle (nextDraw s.oracle).2).log (.fail (.rd s.busAddr s.params.addrMode1 none))) := by
  rw [setFreqSequence, busRead_fail ((failsAt_zero _).mp h), andThen_raised]

variable (hold : old = busAnswer s.oracle s.env s.params.addrMode1 (drawAt 0 s.oracle))
include hold

/-- Once MODE1 has answered: the writes of steps 2 and 3, then steps 4 and 5. -/
theorem setFreqSequence_of_read (h : (nextDraw s.oracle).1.ok = true) :
    setFreqSequence b s = (busWrites (sleepWrites s.params old b) (s.afterMode1Read old)).andThen fun _ t =>
      (delay t).andThen fun _ t => busWrite t.params.addrMode1 (restartByte old) t := by
  have hread : busRead s.params.addrMode1 s = .ok old (s.afterMode1Read old) := hold ▸ busRead_ok h
  have hparams : (s.afterMode1Read old).params = s.params := rfl
  rw [setFreqSequence, hread, andThen_ok, hparams, sleepWrites, busWrites]
  rcases busWrite_did [s.params.addrMode1] s.params.addrMode1 (sleepByte old) (s.afterMode1Read old)
    List.mem_cons_self with ⟨t, e, d⟩ | ⟨t, e, -⟩
  · simp only [e, andThen_ok, busWrites, d.params, hparams, andThen_assoc]
  · simp only [e, andThen_raised]

/-- Step 2 or step 3 fails. -/
theorem setFreqSequence_write_fail {j : Nat} (hj : j < 2) (h : failsAt (j + 1) s.oracle) :
    setFreqSequence b s = .raised .transport
      { s with
        oracle := afterDraws (j + 2) s.oracle
        env := { s.env with
          dev := Memory.forget (writeAll s.env.dev ((sleepWrites s.params old b).take j))
            (sleepWrites s.params old b)[j].1.toNat }
        trace := s.trace ++ [.rd s.busAddr s.params.addrMode1 (some old)] ++
          wrEvents s.busAddr ((sleepWrites s.params old b).take j) ++
          [.fail (.wr s.busAddr (sleepWrites s.params old b)[j].1 (sleepWrites s.params old b)[j].2)] } := by
  obtain ⟨hread, hwrite⟩ := (failsAt_succ _ _).mp h
  rw [setFreqSequence_of_read hold hread,
    busWrites_fail (sleepWrites s.params old b) (s.afterMode1Read old) j hj hwrite, andThen_raised]
  rfl

/-- Steps 1 to 3 go well: what is left is the delay and the last write. -/
theorem setFreqSequence_of_acks (h : acks 3 s.oracle) :
    setFreqSequence b s = (delay (s.afterPrescale old b)).andThen fun _ t =>
      busWrite t.params.addrMode1 (restartByte old) t := by
  obtain ⟨hread, hwrites⟩ := (acks_succ _ _).mp h
  rw [setFreqSequence_of_read hold hread,
    busWrites_ok (sleepWrites s.params old b) (s.afterMode1Read old) hwrites, andThen_ok]
  rfl

/-- Step 4, the delay, fails, in the reading in which it may (log entry 18). -/
theorem setFreqSequence_delay_fail (hm : s.params.delayMayFail = true) (h : failsAt 3 s.oracle) :
    setFreqSequence b s = .raised .transport (((s.afterPrescale old b).withOracle (afterDraws 4 s.oracle)).log
      (.fail (.dly s.params.settleMs))) := by
  obtain ⟨hwrites, hdelay⟩ := h
  rw [setFreqSequence_of_acks hold hwrites, delay_fail (s := s.afterPrescale old b) hm hdelay, andThen_raised]
  rfl

/-- Steps 1 to 4 go well: what is left is the last write. -/
theorem setFreqSequence_of_acks_delay (h : acks (3 + delayDraws s.params) s.oracle) :
    setFreqSequence b s = busWrite s.params.addrMode1 (restartByte old) (s.afterSettle old b) := by
  obtain ⟨h3, hdelay⟩ := (acks_add _ _ _).mp h
  rw [setFreqSequence_of_acks hold h3, delay_ok (s := s.afterPrescale old b) hdelay, andThen_ok, State.afterSettle,
    afterDraws_add]
  rfl

/-- Step 5 fails. -/
theorem setFreqSequence_restart_fail (h : failsAt (3 + delayDraws s.params) s.oracle) :
    setFreqSequence b s = .raised .transport { s with
      oracle := afterDraws (3 + delayDraws s.params + 1) s.oracle
      env := { s.env with
        dev := Memory.forget (writeAll s.env.dev (sleepWrites s.params old b)) s.params.addrMode1.toNat }
      trace := s.trace ++ [.rd s.busAddr s.params.addrMode1 (some old)] ++
        wrEvents s.busAddr (sleepWrites s.params old b) ++ [.dly s.params.settleMs] ++
        [.fail (.wr s.busAddr s.params.addrMode1 (restartByte old))] } := by
  obtain ⟨hdelay, hlast⟩ := h
  rw [setFreqSequence_of_acks_delay hold hdelay, busWrite_fail (s := s.afterSettle old b) hlast, afterDraws_add _ 1]
  rfl

/-- Every step goes well. -/
theorem setFreqSequence_ok (h : acks (3 + delayDraws s.params + 1) s.oracle) :
    setFreqSequence b s = .ok () { s with
      oracle := afterDraws (3 + delayDraws s.params + 1) s.oracle
      env := { s.env with
        dev := writeAll s.env.dev (sleepWrites s.params old b ++ [(s.params.addrMode1, restartByte old)]) }
      trace := s.trace ++ (.rd s.busAddr s.params.addrMode1 (some old) ::
        wrEvents s.busAddr (sleepWrites s.params old b) ++
        [.dly s.params.settleMs, .wr s.busAddr s.params.addrMode1 (restartByte old)]) } := by
  obtain ⟨hdelay, hlast⟩ := (acks_add _ 1 _).mp h
  rw [setFreqSequence_of_acks_delay hold hdelay, busWrite_ok (s := s.afterSettle old b) (hlast 0 Nat.one_pos),
    afterDraws_add _ 1]
  simp only [State.afterSettle, State.log, State.withOracle, State.withDev, List.append_assoc]
  rfl

end

/-- Settles O23: the failing step is the read, one of the three writes, or the delay where it may fail. -/
theorem setFreqFailureKeepsFrequency : Obligations.SetFreqFailureKeepsFrequency := by
  intro s f old ws hzero hlow hhigh hold hws
  obtain ⟨h24, h12207⟩ := (accepted_iff_specPresc f).mp ⟨hzero, hlow, hhigh⟩
  rw [exec_setFreq_accepted s h24 h12207]
  generalize BitVec.ofInt 8 (specPresc f.toNat) = b at hws ⊢
  obtain rfl : ws = sleepWrites s.params old b ++ [(s.params.addrMode1, restartByte old)] := hws
  refine ⟨fun h => ?_, fun j k hj hk h => ?_, fun hm h => ?_⟩
  · rw [setFreqSequence_read_fail h]; rfl
  · rcases Nat.lt_or_eq_of_le (Nat.le_of_lt_succ hj : j ≤ 2) with hj2 | rfl
    · obtain rfl : k = j + 1 := hk.trans (by rw [if_neg hj2.ne])
      have hlen : j < (sleepWrites s.params old b).length := hj2
      rw [setFreqSequence_write_fail hold hj2 h, if_neg hj2.ne, List.append_nil, List.take_append_of_le_length hlen.le]
      simp only [List.getElem_append_left hlen]
      rfl
    · obtain rfl : k = 3 + delayDraws s.params := hk
      rw [setFreqSequence_restart_fail hold h, if_pos rfl]
      rfl
  · rw [setFreqSequence_delay_fail hold hm h]
    rfl

theorem delayDraws_le_one (p : Config.Params) : delayDraws p ≤ 1 := by
  unfold delayDraws; split <;> decide

/-- Whichever interaction of an accepted frequency fails, it is one of the five steps of `setFreqFailureKeepsFrequency`. -/
theorem setFreq_failsAt_transport {s : State} {f : BitVec 32} (hzero : f ≠ 0#32) (hlow : 0 ≤ specPresc f.toNat)
    (hhigh : specPresc f.toNat ≤ 255) {k : Nat} (hk : k < 4 + delayDraws s.params) (h : failsAt k s.oracle) :
    ∃ t, exec (.setFreq f) s = .next t ∧ t.resp = some (0x04#8, 0x00#8) := by
  obtain ⟨hread, hwrite, hdelay⟩ := setFreqFailureKeepsFrequency s f _ _ hzero hlow hhigh rfl rfl
  by_cases hlast : k = 3 + delayDraws s.params
  · exact ⟨_, hwrite 2 k (by simp) hlast h, rfl⟩
  have hone := delayDraws_le_one s.params
  match k with
  | 0 => exact ⟨_, hread h, rfl⟩
  | 1 => exact ⟨_, hwrite 0 1 (by simp) rfl h, rfl⟩
  | 2 => exact ⟨_, hwrite 1 2 (by simp) rfl h, rfl⟩
  | 3 =>
    have hm : s.params.delayMayFail = true := by
      by_contra hm
      exact hlast (by rw [delayDraws, if_neg hm])
    exact ⟨_, hdelay hm h, rfl⟩
  | k + 4 => omega

/-- Settles O22: the range check of R106 is that of 24..12207, and within it the sequence runs to its end or fails at a step. -/
theorem setFreqRunsSequence : Obligations.SetFreqRunsSequence := by
  intro s f
  have haccepted := accepted_iff_specPresc f
  refine ⟨fun hf => exec_setFreq_refused s ?_, fun hzero hlow hhigh => ⟨?_, fun k hk h => ?_⟩⟩
  · by_contra hin
    obtain ⟨hzero, hbyte⟩ := haccepted.mpr (by omega)
    rcases hf with rfl | hf
    · exact hzero rfl
    · omega
  · intro old ws h hold hws
    obtain ⟨h24, h12207⟩ := haccepted.mp ⟨hzero, hlow, hhigh⟩
    rw [exec_setFreq_accepted s h24 h12207]
    generalize BitVec.ofInt 8 (specPresc f.toNat) = b at hws ⊢
    subst hws
    rw [Nat.add_right_comm 3 1] at h ⊢
    rw [setFreqSequence_ok hold h]
    rfl
  · exact setFreq_failsAt_transport hzero hlow hhigh hk h

end Machine
end Sys2Proof

/-! The corner case of R101 under the reference oracle (20_memory.md R58, log entry 8). That oracle never fails, so every
primitive has one outcome; only OE_SET writes the pin, so every other word keeps the level an OE_SET has driven. -/

namespace Sys2Proof
namespace Machine

/-! ### What is kept between OE_SET and OE_GET -/

/-- In Ready, under the reference oracle, the pin is known to be at level `l`. -/
def PinHeld (l : Bit) (s : State) : Prop := s.phase = .ready ∧ s.oracle.mode = .reference ∧ s.env.pin = some l

theorem acks_of_reference (n : Nat) {o : Oracle} (h : o.mode = .reference) : acks n o := fun k _ =>
  nextDraw_reference _ ((afterDraws_mode k o).trans h)

section
variable {l : Bit} {s : State} (h : PinHeld l s)
include h

theorem PinHeld.ready : s.phase = .ready := h.1

theorem PinHeld.reference : s.oracle.mode = .reference := h.2.1

theorem PinHeld.pin : s.env.pin = some l := h.2.2

/-- No interaction fails. -/
theorem PinHeld.draw_ok : (nextDraw s.oracle).1.ok = true := nextDraw_reference _ h.reference

theorem PinHeld.afterDraws (n : Nat) : PinHeld l (s.withOracle (afterDraws n s.oracle)) :=
  ⟨h.ready, (afterDraws_mode n _).trans h.reference, h.pin⟩

/-! ### The operations that commands other than OE_SET are built from -/

theorem pinRead_pinHeld : (pinRead s).Ends (PinHeld l) := by
  rw [pinRead_ok h.draw_ok]
  exact h.afterDraws 1

theorem busRead_pinHeld (reg : Byte) : (busRead reg s).Ends (PinHeld l) := by
  rw [busRead_ok h.draw_ok]
  exact h.afterDraws 1

theorem busWrite_pinHeld (reg b : Byte) : (busWrite reg b s).Ends (PinHeld l) := by
  rw [busWrite_ok h.draw_ok]
  exact h.afterDraws 1

theorem delay_pinHeld : (delay s).Ends (PinHeld l) := by
  rw [delay_ok (acks_of_reference _ h.reference)]
  exact h.afterDraws _

theorem busWrites_pinHeld (ws : List (Byte × Byte)) : (busWrites ws s).Ends (PinHeld l) := by
  rw [busWrites_ok ws s (acks_of_reference _ h.reference)]
  exact h.afterDraws _

theorem setPwmCore_pinHeld (i : Fin 16) (on off : Int) : (setPwmCore i on off s).Ends (PinHeld l) := by
  unfold setPwmCore
  split
  · exact h
  · exact (busWrites_pinHeld h _).andThen fun _ _ _ ht => ht

theorem setFreqSequence_pinHeld (b : Byte) : (setFreqSequence b s).Ends (PinHeld l) :=
  (busRead_pinHeld h _).andThen fun _ _ _ h₁ => (busWrite_pinHeld h₁ _ _).andThen fun _ _ _ h₂ =>
    (busWrite_pinHeld h₂ _ _).andThen fun _ _ _ h₃ => (delay_pinHeld h₃).andThen fun _ _ _ h₄ =>
      busWrite_pinHeld h₄ _ _

end

theorem PinHeld.finish {l : Bit} {r : Res Byte} (h : r.Ends (PinHeld l)) : PinHeld l (finish r) := by
  cases r <;> exact h

/-! ### Words other than an OE_SET -/

/-- One word that decodes, on a free port. -/
theorem step_word_of_decode_ok {s : State} {w : CmdWord} {i : Instr} (hphase : s.phase = .ready)
    (hdecode : decode w = .ok i) : step (s.withPort [w]) = exec i (s.withPort []) :=
  step_of_decode_ok (s := s.withPort [w]) hphase rfl hdecode

/-- A command other than OE_SET ends in a next state, and keeps the level. -/
theorem exec_pinHeld {l : Bit} {s : State} {i : Instr} (h : PinHeld l s) (hi : ∀ b, i ≠ .oeSet b) :
    ∃ t, exec i s = .next t ∧ PinHeld l t := by
  suffices ∃ r, exec i s = .next (finish r) ∧ r.Ends (PinHeld l) by
    obtain ⟨r, hr, hends⟩ := this
    exact ⟨_, hr, PinHeld.finish hends⟩
  cases i with
  | oeGet => exact ⟨_, rfl, (pinRead_pinHeld h).andThen fun _ _ _ ht => ht⟩
  | oeSet v => exact absurd rfl (hi v)
  | setFreq f =>
    refine ⟨_, rfl, ?_⟩
    split
    · exact h
    · split
      · exact h
      · exact (setFreqSequence_pinHeld h _).andThen fun _ _ _ ht => ht
  | regCh ch => exact ⟨_, rfl, (requireFree_ends ch h).andThen fun _ _ _ ht => ht⟩
  | lookupCh ch =>
    refine ⟨_, rfl, (lookup_ends ch h).andThen fun p _ _ ht => ?_⟩
    obtain ⟨_, _ | _ | _⟩ := p <;> exact ht
  | dropCh ch => exact ⟨_, rfl, (checkIndex_ends ch h).andThen fun _ _ _ ht => ht⟩
  | readReg addr => exact ⟨_, rfl, (busRead_pinHeld h addr).andThen fun _ _ _ ht => ht⟩
  | writeReg addr data => exact ⟨_, rfl, (busWrite_pinHeld h addr data).andThen fun _ _ _ ht => ht⟩
  | setPwm ch on off =>
    exact ⟨_, rfl, (lookup_ends ch h).andThen fun p _ _ ht =>
      (setPwmCore_pinHeld ht p.1 _ _).andThen fun _ _ _ hu => hu⟩
  | setFullOn ch | setFullOff ch =>
    exact ⟨_, rfl, (lookup_ends ch h).andThen fun _ _ _ ht => (busWrites_pinHeld ht _).andThen fun _ _ _ hu => hu⟩
  | regServo ch minPw maxPw maxAngle ign =>
    refine ⟨_, rfl, (requireFree_ends ch h).andThen fun _ _ _ ht => ?_⟩
    split <;> exact ht
  | setAngle ch v =>
    exact ⟨_, rfl, (servoLookup_ends ch h).andThen fun p _ _ ht => (requireFreq_ends ht).andThen fun _ u _ hu =>
      (setPwmCore_pinHeld (s := (u.storeAngle p.1 _).storePw p.1 _) hu p.1 _ _).andThen fun _ _ _ hx => hx⟩
  | setPw ch v =>
    exact ⟨_, rfl, (servoLookup_ends ch h).andThen fun p _ _ ht => (requireFreq_ends ht).andThen fun _ u _ hu =>
      (setPwmCore_pinHeld (s := u.storePw p.1 _) hu p.1 _ _).andThen fun _ _ _ hx => hx⟩

/-- A word that is no OE_SET, legal or not, keeps the level. -/
theorem step_pinHeld {l : Bit} {s : State} {w : CmdWord} (h : PinHeld l s) (hw : ∀ b, decode w ≠ .ok (.oeSet b)) :
    ∃ t, step (s.withPort [w]) = .next t ∧ PinHeld l t := by
  cases hdecode : decode w with
  | error e => exact ⟨_, step_of_decode_error (s := s.withPort [w]) h.ready rfl hdecode, h⟩
  | ok i =>
    rw [step_word_of_decode_ok h.ready hdecode]
    exact exec_pinHeld (s := s.withPort []) h fun b e => hw b (e ▸ hdecode)

theorem serve_pinHeld {l : Bit} {s : State} {ws : List CmdWord} (h : PinHeld l s)
    (hws : ∀ w ∈ ws, ∀ b, decode w ≠ .ok (.oeSet b)) : ∃ t, serve ws s = .next t ∧ PinHeld l t := by
  induction ws generalizing s with
  | nil => exact ⟨s, rfl, h⟩
  | cons w ws ih =>
    obtain ⟨hw, hrest⟩ := List.forall_mem_cons.mp hws
    obtain ⟨t, ht, hheld⟩ := step_pinHeld h hw
    rw [serve, ht]
    exact ih hheld hrest

/-! ### The two ends -/

theorem decode_encode_oeGet : decode (encode .oeGet) = .ok .oeGet := decode_encode_of_fields Laws.LegalWord.oeGet rfl

theorem decode_encode_oeSet (v : Bit) : decode (encode (.oeSet v)) = .ok (.oeSet v) :=
  decode_encode_of_fields (Laws.LegalWord.oeSet v) (by revert v; decide)

theorem step_oeSet_pinHeld {s : State} (v : Bit) (hphase : s.phase = .ready) (hmode : s.oracle.mode = .reference) :
    ∃ t, step (s.withPort [encode (.oeSet v)]) = .next t ∧ PinHeld (oeLevel v) t := by
  rw [step_word_of_decode_ok hphase (decode_encode_oeSet v), exec_oeSet,
    pinWrite_ok (s := s.withPort []) (nextDraw_reference _ hmode)]
  exact ⟨_, rfl, hphase, (nextDraw_mode _).trans hmode, rfl⟩

theorem oeGet_of_oeLevel (v : Bit) : (if oeLevel v = 0#1 then 0x01#8 else 0x00#8) = v.setWidth 8 := by
  revert v; decide

theorem serve_oeGet_of_pinHeld {v : Bit} {s : State} (h : PinHeld (oeLevel v) s) :
    ∃ t, serve [encode .oeGet] s = .next t ∧ t.resp = some (0x00#8, v.setWidth 8) := by
  have hanswer (d : Draw) : pinAnswer s.oracle s.env d = oeLevel v := by
    rw [pinAnswer, h.reference, h.pin]; rfl
  rw [serve, step_word_of_decode_ok h.ready decode_encode_oeGet, exec, execOeGet,
    pinRead_ok (s := s.withPort []) h.draw_ok]
  exact ⟨_, rfl, by simp [hanswer, oeGet_of_oeLevel, statusOk]⟩

/-- Settles O59: OE_SET drives the level, the words between hold it, and OE_GET reads it back. -/
theorem referenceOracleReadsBackPin : Obligations.ReferenceOracleReadsBackPin := by
  intro s v ws hphase hmode hws
  obtain ⟨t, hset, hheld⟩ := step_oeSet_pinHeld v hphase hmode
  obtain ⟨u, hbetween, hheld'⟩ := serve_pinHeld hheld hws
  have hserve : serve (encode (.oeSet v) :: ws) s = .next u := by rw [serve, hset]; exact hbetween
  rw [serve_append hserve]
  exact serve_oeGet_of_pinHeld hheld'

end Machine
end Sys2Proof

/-! The channel commands (41_channel.md). SET_FULL_ON and SET_FULL_OFF are one body run with two encodings (30_encoding.md R90);
SET_PWM is the subroutine of R127 after a lookup. Each path of either is one equation; what SET_PWM leaves in the environment
record is then read back by the byte formats (R86 to R89). -/

namespace Sys2Proof
namespace Machine

/-! ### The on/off register pair (R86 to R89, R129) -/

theorem overrideFlag_eq (h l : Byte) : overrideFlag h l = h.getLsbD 4 := by
  rw [overrideFlag, field13, BitVec.getLsbD_append, if_neg (by decide), BitVec.getLsbD_extractLsb']
  rfl

/-- The two bytes of a step, read as one 13-bit field, are the step itself: `H[4:0]` above `L` (R86 to R89). -/
theorem field13_bytes (v : Nat) : field13 (highByte v) (lowByte v) = BitVec.ofNat 13 v := by
  apply BitVec.eq_of_toNat_eq
  have hlow : v % 256 % 2 ^ 8 < 2 ^ 8 := by omega
  rw [field13, highByte_eq, lowByte_eq, BitVec.toNat_append, BitVec.extractLsb'_toNat]
  simp only [BitVec.toNat_ofNat]
  rw [← Nat.shiftLeft_add_eq_or_of_lt hlow, Nat.shiftLeft_eq, Nat.shiftRight_zero]
  omega

theorem counter12_bytes (v : Nat) : counter12 (highByte v) (lowByte v) = BitVec.ofNat 12 v := by
  rw [counter12, field13_bytes]
  apply BitVec.eq_of_toNat_eq
  simp only [BitVec.extractLsb'_toNat, BitVec.toNat_ofNat]
  omega

theorem overrideFlag_bytes {v : Nat} (hv : v ≤ 4095) : overrideFlag (highByte v) (lowByte v) = false := by
  rw [overrideFlag, field13_bytes, BitVec.getLsbD_ofNat, Nat.testBit_lt_two_pow (by omega : v < 2 ^ 12), Bool.and_false]

theorem toNat_highByte_le {v : Nat} (hv : v ≤ 4095) : (highByte v).toNat ≤ 0x0F := by
  rw [highByte_eq, BitVec.toNat_ofNat]
  omega

/-- Settles O18: the field of a step is the step, below bit 12; and the flag is bit 4 of the high byte alone. -/
theorem overrideFlagOutsideCounter : Obligations.OverrideFlagOutsideCounter := by
  refine ⟨fun v hv => ⟨?_, overrideFlag_bytes hv, toNat_highByte_le hv⟩, fun l => ?_⟩
  · rw [counter12_bytes]
    apply BitVec.eq_of_toNat_eq
    rw [BitVec.toNat_ofNat, Nat.mod_eq_of_lt (by omega : v < 2 ^ 12)]
    rfl
  · rw [overrideFlag_eq, overrideFlag_eq]
    decide

/-! ### Commands that end after a lookup and some writes -/

section
variable {s : State} {ch : Byte} {ws : List (Byte × Byte)}

/-- A command that begins with a lookup answers RANGE for an index above 15, whatever it would go on with (R98). -/
theorem finish_lookup_range (hch : 16 ≤ ch.toNat) (k : Fin 16 × Slot → State → Res Byte) :
    finish ((lookup ch s).andThen k) = s.answer 0x01#8 := by
  rw [lookup_range s hch]; rfl

/-- On a registered slot it goes on with that slot (R99). -/
theorem finish_lookup_ok (hch : ch.toNat < 16) (hs : s.getSlot ⟨ch.toNat, hch⟩ ≠ .absent)
    (k : Fin 16 × Slot → State → Res Byte) :
    finish ((lookup ch s).andThen k) = finish (k (⟨ch.toNat, hch⟩, s.getSlot ⟨ch.toNat, hch⟩) s) := by
  rw [lookup_ok hch hs, andThen_ok]

theorem finish_busWrites_ok (h : acks ws.length s.oracle) :
    finish ((busWrites ws s).andThen fun _ s => .ok 0x00#8 s) = s.afterWrites ws := by
  rw [busWrites_ok ws s h]; rfl

/-- The write that fails ends the command, whatever it would go on with (R57). -/
theorem finish_busWrites_fail {k : Nat} (hk : k < ws.length) (h : failsAt k s.oracle) (l : Unit → State → Res Byte) :
    finish ((busWrites ws s).andThen l) = s.afterFailure ws k hk := by
  rw [busWrites_fail ws s k hk h]; rfl

end

/-! ### SET_FULL_ON and SET_FULL_OFF (R132, R133) -/

/-- The common body of SET_FULL_ON and SET_FULL_OFF: a lookup, then the writes of an encoding (R90). -/
def writeEncoding (ch : Byte) (enc : List (Nat × Byte)) (s : State) : Res Byte :=
  (lookup ch s).andThen fun p s => (busWrites (chanWrites s.params p.1 enc) s).andThen fun _ s => .ok 0x00#8 s

theorem exec_setFullOn (ch : Byte) (s : State) :
    exec (.setFullOn ch) s = .next (finish (writeEncoding ch encFullOn s)) := rfl

theorem exec_setFullOff (ch : Byte) (s : State) :
    exec (.setFullOff ch) s = .next (finish (writeEncoding ch encFullOff s)) := rfl

/-- Every path of a command with that body. -/
theorem exec_of_writeEncoding {i : Instr} {s : State} {ch : Byte} {enc : List (Nat × Byte)}
    (hi : exec i s = .next (finish (writeEncoding ch enc s))) :
    (16 ≤ ch.toNat → exec i s = .next (s.answer 0x01#8)) ∧
    ∀ hch : ch.toNat < 16,
      (s.getSlot ⟨ch.toNat, hch⟩ = .absent → exec i s = .next (s.answer 0x03#8)) ∧
      (s.getSlot ⟨ch.toNat, hch⟩ ≠ .absent → ∀ ws, ws = chanWrites s.params ⟨ch.toNat, hch⟩ enc →
        (acks enc.length s.oracle → exec i s = .next (s.afterWrites ws)) ∧
        ∀ k (hk : k < ws.length), failsAt k s.oracle → exec i s = .next (s.afterFailure ws k hk)) := by
  rw [hi, writeEncoding]
  refine ⟨fun hch => ?_, fun hch => ⟨fun hs => ?_, ?_⟩⟩
  · rw [finish_lookup_range hch]
  · rw [finish_lookup_absent hch hs]
  · rintro hs _ rfl
    rw [finish_lookup_ok hch hs]
    refine ⟨fun h => ?_, fun k hk h => ?_⟩
    · rw [finish_busWrites_ok (by rwa [chanWrites, List.length_map])]
    · rw [finish_busWrites_fail hk h]

/-- Settles O33: the encoding is that of full-on. -/
theorem setFullOnSetsOnOverride : Obligations.SetFullOnSetsOnOverride :=
  fun s ch => exec_of_writeEncoding (exec_setFullOn ch s)

/-- Settles O34: the encoding is that of full-off. -/
theorem setFullOffSetsOffOverride : Obligations.SetFullOffSetsOffOverride :=
  fun s ch => exec_of_writeEncoding (exec_setFullOff ch s)

/-! ### SET_PWM (R127, R130, R131) -/

theorem exec_setPwm (ch : Byte) (on off : BitVec 16) (s : State) :
    exec (.setPwm ch on off) s = .next (finish ((lookup ch s).andThen fun p s =>
      (setPwmCore p.1 on.toNat off.toNat s).andThen fun _ s => .ok 0x00#8 s)) := rfl

/-- Settles O32: the lookup refuses the index and the slot before `set_pwm_core` looks at the steps. -/
theorem setPwmChecksInOrder : Obligations.SetPwmChecksInOrder := by
  refine fun s ch on off => ⟨fun hch => ?_, fun hch => ⟨fun hs => ?_, fun hs hsteps => ?_⟩⟩
  · rw [exec_setPwm, finish_lookup_range hch]
  · rw [exec_setPwm, finish_lookup_absent hch hs]
  · rw [exec_setPwm, finish_lookup_ok hch hs, setPwmCore_range (by omega)]
    rfl

section
variable {s : State} {ch : Byte} {on off : BitVec 16} (hch : ch.toNat < 16)
  (hs : s.getSlot ⟨ch.toNat, hch⟩ ≠ .absent) (hon : on.toNat ≤ 4095) (hoff : off.toNat ≤ 4095)
include hs hon hoff

theorem exec_setPwm_ok (h : acks 4 s.oracle) :
    exec (.setPwm ch on off) s = .next
      ((s.afterWrites (fourWrites s.params ⟨ch.toNat, hch⟩ on.toNat off.toNat)).setSlot ⟨ch.toNat, hch⟩
        (slotWithSteps (s.getSlot ⟨ch.toNat, hch⟩) (on.setWidth 12) (off.setWidth 12))) := by
  rw [exec_setPwm, finish_lookup_ok hch hs, setPwmCore_ok _ _ _ s hon hoff h, BitVec.ofInt_natCast,
    BitVec.ofInt_natCast, BitVec.ofNat_toNat, BitVec.ofNat_toNat]
  rfl

theorem exec_setPwm_fail {k : Nat} (hk : k < 4) (h : failsAt k s.oracle) :
    exec (.setPwm ch on off) s = .next
      (s.afterFailure (fourWrites s.params ⟨ch.toNat, hch⟩ on.toNat off.toNat) k hk) := by
  rw [exec_setPwm, finish_lookup_ok hch hs, setPwmCore_fail _ _ _ s hon hoff k hk h, finish_busWrites_fail hk h]

end

/-- Settles O30: on either kind of slot the steps are stored and the rest of the slot stays. -/
theorem setPwmProgramsFourRegisters : Obligations.SetPwmProgramsFourRegisters := by
  intro s ch on off hch after hon hoff h hafter
  obtain ⟨hs, rfl⟩ : s.getSlot ⟨ch.toNat, hch⟩ ≠ .absent ∧
      after = slotWithSteps (s.getSlot ⟨ch.toNat, hch⟩) (on.setWidth 12) (off.setWidth 12) := by
    rcases hafter with ⟨c, hs, rfl⟩ | ⟨c, sv, hs, rfl⟩ <;> rw [hs] <;> exact ⟨Slot.noConfusion, rfl⟩
  exact exec_setPwm_ok hch hs hon hoff h

/-- Settles O31: the failing write ends the command before the steps are stored. -/
theorem setPwmFailureKeepsSteps : Obligations.SetPwmFailureKeepsSteps :=
  fun _ _ _ _ hch _ hk hs hon hoff h => exec_setPwm_fail hch hs hon hoff hk h

/-- SET_PWM answers OK only if it has passed every check and every write is acknowledged. -/
theorem setPwm_answers_ok {s t : State} {ch : Byte} {on off : BitVec 16} (hch : ch.toNat < 16)
    (h : exec (.setPwm ch on off) s = .next t) (hresp : t.resp = some (0x00#8, 0x00#8)) :
    on.toNat ≤ 4095 ∧ off.toNat ≤ 4095 ∧ t.params = s.params ∧
      t.env.dev = writeAll s.env.dev (chanWrites s.params ⟨ch.toNat, hch⟩ (encPwm on.toNat off.toNat)) := by
  have hanswer {u : State} (hu : exec (.setPwm ch on off) s = .next u) : u.resp = some (0x00#8, 0x00#8) :=
    Host.Outcome.next.inj (h.symm.trans hu) ▸ hresp
  obtain ⟨-, hchecks⟩ := setPwmChecksInOrder s ch on off
  obtain ⟨habsent, hrange⟩ := hchecks hch
  have hs : s.getSlot ⟨ch.toNat, hch⟩ ≠ .absent := fun hs => by simpa [State.answer] using hanswer (habsent hs)
  have hsteps : on.toNat ≤ 4095 ∧ off.toNat ≤ 4095 := by
    by_contra hsteps
    simpa [State.answer] using hanswer (hrange hs (by omega))
  obtain ⟨hon, hoff⟩ := hsteps
  rcases acks_or_failsAt 4 s.oracle with hacks | ⟨k, hk, hfails⟩
  · obtain rfl := Host.Outcome.next.inj (h.symm.trans (exec_setPwm_ok hch hs hon hoff hacks))
    rw [chanWrites_encPwm]
    exact ⟨hon, hoff, rfl, rfl⟩
  · simpa [State.afterFailure] using hanswer (exec_setPwm_fail hch hs hon hoff hk hfails)

/-! ### Reading the environment record back (R129, R134; log entry 7) -/

theorem read_writeAll_of_not_mem {ws : List (Byte × Byte)} {r : Byte} (h : r ∉ ws.map Prod.fst) (m : Memory) :
    Memory.read (writeAll m ws) r.toNat = Memory.read m r.toNat := by
  induction ws generalizing m with
  | nil => rfl
  | cons w ws ih =>
    rw [List.map_cons, List.mem_cons, not_or] at h
    obtain ⟨hne, hrest⟩ := h
    rw [writeAll, ih hrest, read_write_ne _ _ fun e => hne (BitVec.eq_of_toNat_eq e)]

/-- Writes to distinct registers can all be read back. -/
theorem read_writeAll_of_mem {ws : List (Byte × Byte)} (hnodup : (ws.map Prod.fst).Nodup) {w : Byte × Byte}
    (hw : w ∈ ws) (m : Memory) : Memory.read (writeAll m ws) w.1.toNat = some w.2 := by
  induction ws generalizing m with
  | nil => exact absurd hw List.not_mem_nil
  | cons v ws ih =>
    obtain ⟨hv, hrest⟩ := List.nodup_cons.mp hnodup
    rcases List.mem_cons.mp hw with rfl | hw
    · rw [writeAll, read_writeAll_of_not_mem hv, read_write_self]
    · exact ih hrest hw _

theorem chanRegs_nodup {p : Config.Params} (hp : p.wf = true) (i : Fin 16) : (chanRegs p i).Nodup :=
  (List.nodup_finRange 4).map fun _ _ h => (chanReg_injective hp h).2

/-- After the four writes of SET_PWM each of the channel's registers is known to hold its byte. -/
theorem read_writeAll_encPwm {p : Config.Params} (hp : p.wf = true) (i : Fin 16) {on off k : Nat} {b : Byte}
    (hk : (k, b) ∈ encPwm on off) (m : Memory) :
    Memory.read (writeAll m (chanWrites p i (encPwm on off))) (chanReg p i k).toNat = some b :=
  read_writeAll_of_mem (ws := chanWrites p i (encPwm on off)) (chanRegs_nodup hp i)
    (List.mem_map_of_mem (f := fun kb : Nat × Byte => (chanReg p i kb.1, kb.2)) hk) m

/-- Settles O35: a SET_PWM that answers OK has written all four registers, whatever the full-on or full-off before it left
there. -/
theorem setPwmUndoesOverrides : Obligations.SetPwmUndoesOverrides := by
  intro s t u ch on off hch i hp hi hfull hpwm hresp
  obtain ⟨hon, hoff, hparams, hdev⟩ := setPwm_answers_ok hch hpwm hresp
  have hfreq : ∀ f, i ≠ .setFreq f := by rcases hi with rfl | rfl <;> exact fun _ => Instr.noConfusion
  have hp' : t.params.wf = true := (exec_untouched hfreq hfull).params ▸ hp
  have hread {k : Nat} {b : Byte} (hk : (k, b) ∈ encPwm on.toNat off.toNat) :
      Memory.read u.env.dev (chanReg u.params ⟨ch.toNat, hch⟩ k).toNat = some b := by
    rw [hdev, hparams]
    exact read_writeAll_encPwm hp' _ hk _
  refine ⟨lowByte on.toNat, highByte on.toNat, lowByte off.toNat, highByte off.toNat,
    hread (by simp [encPwm]), hread (by simp [encPwm]), hread (by simp [encPwm]), hread (by simp [encPwm]),
    overrideFlag_bytes hon, overrideFlag_bytes hoff, ?_, ?_⟩
  · rw [counter12_bytes, BitVec.ofNat_toNat]
  · rw [counter12_bytes, BitVec.ofNat_toNat]

end Machine
end Sys2Proof

/-! The servo formulas (42_servo.md R143, R145, R147, R148). The machine's integer forms are the spec's rational ones,
and what R152 derives of them follows from the monotonicity of the floor and of the rounding. -/

namespace Sys2Proof
namespace Machine

/-! ### The machine's formulas are the spec's -/

theorem boundsOk_iff (sv : ServoRec) :
    boundsOk sv = true ↔ sv.minPw.toNat ≤ sv.maxPw.toNat ∧ 1 ≤ sv.maxAngle.toNat := by
  simp only [boundsOk, Bool.and_eq_true, decide_eq_true_eq]

theorem clamp_eq_max_min (v : Int) {lo hi : Int} (h : lo ≤ hi) : clamp v lo hi = max lo (min v hi) := by
  unfold clamp; split
  · omega
  · split <;> omega

theorem effAngle_eq_specAngle (sv : ServoRec) (v : Int) : effAngle sv v = specAngle sv v := by
  rw [effAngle, specAngle, clamp_eq_max_min v (Int.natCast_nonneg _)]

theorem effPw_eq_specPw {sv : ServoRec} (h : boundsOk sv = true) (v : Int) : effPw sv v = specPw sv v := by
  obtain ⟨hpw, -⟩ := (boundsOk_iff sv).mp h
  rw [effPw, specPw, clamp_eq_max_min v (Int.ofNat_le.mpr hpw)]

/-- R145: integer division by `max_angle` is the floor of the rational quotient. -/
theorem pwReq_eq_specPwReq (sv : ServoRec) (a : Int) : pwReq sv a = specPwReq sv a := by
  rw [pwReq, specPwReq, ← floor_div]
  push_cast; rfl

/-- R147: multiplying by the step rate is dividing by the step length. -/
theorem stepsOf_eq_specSteps (pw : Int) {f : Nat} (hf : 1 ≤ f) : stepsOf pw f = specSteps pw f := by
  have hf0 : (f : Rat) ≠ 0 := by exact_mod_cast (by omega : f ≠ 0)
  rw [stepsOf_eq_roundDiv, roundDiv_eq_roundRat _ _ (by decide), specSteps]
  congr 1
  push_cast; field_simp

/-- Settles O15: for any bounds, since the machine's quotient is the floor of the rational one. -/
theorem pulseWidthIsFlooredRational : Obligations.PulseWidthIsFlooredRational :=
  fun sv a _ => pwReq_eq_specPwReq sv a

/-! ### Monotonicity and bounds (R152) -/

theorem clamp_eq_self {v lo hi : Int} (hlo : lo ≤ v) (hhi : v ≤ hi) : clamp v lo hi = v := by
  rw [clamp, if_neg hlo.not_gt, if_neg hhi.not_gt]

theorem pwReq_zero (sv : ServoRec) : pwReq sv 0 = sv.minPw.toNat := by
  simp [pwReq]

section
variable {sv : ServoRec} (h : boundsOk sv = true)
include h

theorem pwReq_maxAngle : pwReq sv sv.maxAngle.toNat = sv.maxPw.toNat := by
  obtain ⟨-, hangle⟩ := (boundsOk_iff sv).mp h
  rw [pwReq, Int.mul_ediv_cancel_left _ (by omega)]
  omega

theorem pwReq_mono {a b : Int} (hab : a ≤ b) : pwReq sv a ≤ pwReq sv b := by
  obtain ⟨hpw, hangle⟩ := (boundsOk_iff sv).mp h
  have hrange : 0 ≤ (sv.maxPw.toNat : Int) - sv.minPw.toNat := by omega
  have hmul := Int.mul_le_mul_of_nonneg_right hab hrange
  exact Int.add_le_add_left (Int.ediv_le_ediv (by omega) hmul) _

/-- With the limits in force the effective angle lies in `0..max_angle`, so its pulse width lies within the bounds. -/
theorem effPw_pwReq_effAngle (hlimits : sv.ignore = false) (v : Int) :
    effPw sv (pwReq sv (effAngle sv v)) = pwReq sv (effAngle sv v) := by
  have hangle : 0 ≤ effAngle sv v ∧ effAngle sv v ≤ sv.maxAngle.toNat := by
    simp only [effAngle, hlimits, Bool.false_eq_true, if_false, clamp_eq_max_min v (Int.natCast_nonneg _)]
    omega
  have hlo := pwReq_zero sv ▸ pwReq_mono h hangle.1
  have hhi := pwReq_maxAngle h ▸ pwReq_mono h hangle.2
  rw [effPw, hlimits, if_neg Bool.false_ne_true, clamp_eq_self hlo hhi]

end

theorem stepsOf_mono (f : Nat) {pw pw' : Int} (h : pw ≤ pw') : stepsOf pw f ≤ stepsOf pw' f := by
  rw [stepsOf_eq_roundDiv, stepsOf_eq_roundDiv]
  exact roundDiv_mono _ (by decide) _ _ (by gcongr)

/-- Settles O16: the floor, the clamps and the rounding are all monotone, and the ends are exact. -/
theorem angleToPulseWidthIsMonotone : Obligations.AngleToPulseWidthIsMonotone :=
  fun sv h => ⟨pwReq_zero sv, pwReq_maxAngle h, fun _ _ => pwReq_mono h,
    fun v hlimits => effPw_pwReq_effAngle h hlimits v, fun f _ _ => stepsOf_mono f⟩

end Machine
end Sys2Proof

/-! The servo commands (42_servo.md). REG_SERVO is `requireFree` and the bounds check; SET_ANGLE and SET_PW are one body,
whose checks precede every effect, around the pulse width setter of R147. -/

namespace Sys2Proof
namespace Machine

/-! ### REG_SERVO (R138, R139) -/

/-- The record REG_SERVO puts in the slot: no angle and no pulse width yet (R139). -/
def freshServo (minPw maxPw : BitVec 16) (maxAngle : BitVec 15) (ign : Bit) : ServoRec :=
  { minPw := minPw, maxPw := maxPw, maxAngle := maxAngle, ignore := ign == 1#1, angle := none, pw := none }

/-- On a free slot REG_SERVO is its bounds check (R138). -/
theorem exec_regServo_free {s : State} {ch : Byte} {minPw maxPw : BitVec 16} {maxAngle : BitVec 15} (ign : Bit)
    (hch : ch.toNat < 16) (hs : s.getSlot ⟨ch.toNat, hch⟩ = .absent) :
    exec (.regServo ch minPw maxPw maxAngle ign) s = .next (finish
      (if maxAngle = 0#15 ∨ maxPw.toNat < minPw.toNat then .raised .range s
      else .ok 0x00#8 (s.setSlot ⟨ch.toNat, hch⟩ (.servo freshChan (freshServo minPw maxPw maxAngle ign))))) := by
  rw [exec, execRegServo, requireFree_ok hch hs]; rfl

/-- Settles O36: the three outcomes of `requireFree`, and after the last one the two of the bounds check. -/
theorem regServoRegistersServo : Obligations.RegServoRegistersServo := by
  intro s ch minPw maxPw maxAngle ign
  have hzero : maxAngle = 0#15 ↔ maxAngle.toNat = 0 := BitVec.toNat_inj.symm
  refine ⟨fun hch => ?_, fun hch => ⟨fun hs => ?_, fun hs hbad => ?_, fun hs hangle hpw => ?_⟩⟩
  · rw [exec, execRegServo, requireFree_range s hch]; rfl
  · rw [exec, execRegServo, requireFree_conflict hch hs]; rfl
  · rw [exec_regServo_free ign hch hs, if_pos (by rwa [hzero])]; rfl
  · rw [exec_regServo_free ign hch hs, if_neg (by rw [hzero]; omega)]; rfl

/-! ### The checks of SET_ANGLE and SET_PW (R137, R141) -/

/-- The common body of SET_ANGLE and SET_PW: the lookup of a servo, the active frequency, then `setter`. -/
def programServo (ch : Byte) (setter : Fin 16 → ServoRec → BitVec 32 → State → Res Unit) (s : State) : Res Byte :=
  (servoLookup ch s).andThen fun p s => (requireFreq s).andThen fun f s =>
    (setter p.1 p.2 f s).andThen fun _ s => .ok 0x00#8 s

/-- R144 to R147: the effective angle stored, then the pulse width it asks for. -/
def angleSetter (v : Int) (i : Fin 16) (sv : ServoRec) (f : BitVec 32) (s : State) : Res Unit :=
  setPwCore i sv f (pwReq sv (effAngle sv v)) (s.storeAngle i (effAngle sv v))

/-- R147. -/
def pwSetter (v : Int) (i : Fin 16) (sv : ServoRec) (f : BitVec 32) (s : State) : Res Unit := setPwCore i sv f v s

theorem exec_setAngle (ch : Byte) (v : Int) (s : State) :
    exec (.setAngle ch v) s = .next (finish (programServo ch (angleSetter v) s)) := rfl

theorem exec_setPw (ch : Byte) (v : Int) (s : State) :
    exec (.setPw ch v) s = .next (finish (programServo ch (pwSetter v) s)) := rfl

theorem requireFreq_ok {s : State} {f : BitVec 32} (h : s.freq = some f) : requireFreq s = .ok f s := by
  rw [requireFreq, h]

theorem requireFreq_unconfigured {s : State} (h : s.freq = none) : requireFreq s = .raised .unconfigured s := by
  rw [requireFreq, h]

section
variable {s : State} {ch : Byte} {setter : Fin 16 → ServoRec → BitVec 32 → State → Res Unit}

theorem programServo_range (hch : 16 ≤ ch.toNat) : programServo ch setter s = .raised .range s := by
  rw [programServo, servoLookup_range s hch, andThen_raised]

variable (hch : ch.toNat < 16)

theorem servoLookup_of_not_servo (hs : ∀ c sv, s.getSlot ⟨ch.toNat, hch⟩ ≠ .servo c sv) :
    servoLookup ch s = .raised .lookup s := by
  cases hslot : s.getSlot ⟨ch.toNat, hch⟩ with
  | absent => exact servoLookup_absent hch hslot
  | chan c => exact servoLookup_chan hch hslot
  | servo c sv => exact absurd hslot (hs c sv)

theorem programServo_of_not_servo (hs : ∀ c sv, s.getSlot ⟨ch.toNat, hch⟩ ≠ .servo c sv) :
    programServo ch setter s = .raised .lookup s := by
  rw [programServo, servoLookup_of_not_servo hch hs, andThen_raised]

variable {c : ChanRec} {sv : ServoRec} (hs : s.getSlot ⟨ch.toNat, hch⟩ = .servo c sv)
include hs

theorem programServo_unconfigured (hf : s.freq = none) : programServo ch setter s = .raised .unconfigured s := by
  rw [programServo, servoLookup_ok hch hs, andThen_ok, requireFreq_unconfigured hf, andThen_raised]

theorem programServo_ok {f : BitVec 32} (hf : s.freq = some f) :
    programServo ch setter s = (setter ⟨ch.toNat, hch⟩ sv f s).andThen fun _ s => .ok 0x00#8 s := by
  rw [programServo, servoLookup_ok hch hs, andThen_ok, requireFreq_ok hf, andThen_ok]

end

theorem programServo_ends {P : State → Prop} {s : State} (hs : P s) (ch : Byte)
    {setter : Fin 16 → ServoRec → BitVec 32 → State → Res Unit}
    (hsetter : ∀ k sv f t, P t → (setter k sv f t).Ends P) : (programServo ch setter s).Ends P :=
  (servoLookup_ends ch hs).andThen fun p _ _ ht => (requireFreq_ends ht).andThen fun f u _ hu =>
    (hsetter p.1 p.2 f u hu).andThen fun _ _ _ hx => hx

/-- Settles O37: the outcomes of the two checks of the common body, whatever its setter does. -/
theorem servoCommandsCheckInOrder : Obligations.ServoCommandsCheckInOrder := by
  intro s ch v i hi
  obtain ⟨setter, hbody⟩ : ∃ setter, exec i s = .next (finish (programServo ch setter s)) := by
    rcases hi with rfl | rfl
    · exact ⟨_, exec_setAngle ch v s⟩
    · exact ⟨_, exec_setPw ch v s⟩
  rw [hbody]
  refine ⟨fun hch => ?_, fun hch => ⟨fun hs => ?_, fun ⟨c, sv, hs⟩ hf => ?_⟩⟩
  · rw [programServo_range hch]; rfl
  · rw [programServo_of_not_servo hch hs]; rfl
  · rw [programServo_unconfigured hch hs hf]; rfl

/-! ### What SET_ANGLE and SET_PW store before they program the steps (R144, R147, R148) -/

@[simp] theorem setSlot_setSlot (s : State) (i : Fin 16) (u v : Slot) :
    (s.setSlot i u).setSlot i v = s.setSlot i v := by
  simp [State.setSlot]

theorem storeAngle_of_servo {s : State} {i : Fin 16} {c : ChanRec} {sv : ServoRec} (hs : s.getSlot i = .servo c sv)
    (a : Int) : s.storeAngle i a = s.setSlot i (.servo c { sv with angle := some a }) := by
  rw [State.storeAngle, hs, slotWithAngle]

theorem storePw_of_servo {s : State} {i : Fin 16} {c : ChanRec} {sv : ServoRec} (hs : s.getSlot i = .servo c sv)
    (pw : Int) : s.storePw i pw = s.setSlot i (.servo c { sv with pw := some pw }) := by
  rw [State.storePw, hs, slotWithPw]

section
variable {s : State} {ch : Byte} (hch : ch.toNat < 16) {c : ChanRec} {sv : ServoRec} {f : BitVec 32}
  (hs : s.getSlot ⟨ch.toNat, hch⟩ = .servo c sv) (hb : boundsOk sv = true) (hf : s.freq = some f) (hpos : 1 ≤ f.toNat)
include hs hb hf hpos

/-- On a servo with an active frequency SET_PW stores its pulse width, then programs the steps. -/
theorem exec_setPw_servo (v : Int) :
    exec (.setPw ch v) s = .next (finish ((setPwmCore ⟨ch.toNat, hch⟩ 0 (specSteps (specPw sv v) f.toNat)
      (s.setSlot ⟨ch.toNat, hch⟩ (.servo c { sv with pw := some (specPw sv v) }))).andThen fun _ s =>
        .ok 0x00#8 s)) := by
  rw [exec_setPw, programServo_ok hch hs hf, pwSetter, setPwCore, effPw_eq_specPw hb, stepsOf_eq_specSteps _ hpos,
    storePw_of_servo hs]

/-- As `exec_setPw_servo`, with the angle stored too and the pulse width that the angle asks for. -/
theorem exec_setAngle_servo (v : Int) :
    exec (.setAngle ch v) s = .next (finish ((setPwmCore ⟨ch.toNat, hch⟩ 0
      (specSteps (specPw sv (specPwReq sv (specAngle sv v))) f.toNat)
      (s.setSlot ⟨ch.toNat, hch⟩ (.servo c { sv with
        angle := some (specAngle sv v), pw := some (specPw sv (specPwReq sv (specAngle sv v))) }))).andThen fun _ s =>
          .ok 0x00#8 s)) := by
  rw [exec_setAngle, programServo_ok hch hs hf, angleSetter, setPwCore, effAngle_eq_specAngle, pwReq_eq_specPwReq,
    effPw_eq_specPw hb, stepsOf_eq_specSteps _ hpos, storeAngle_of_servo hs,
    storePw_of_servo (setSlot_getSlot_self s _ _), setSlot_setSlot]

end

/-- Settles O40: the values are stored before `set_pwm_core` refuses the steps, and it refuses them before any write. -/
theorem servoRangeKeepsStoredValues : Obligations.ServoRangeKeepsStoredValues := by
  rintro s ch v pw hch c sv sv' f i hs hb hf hpos (⟨rfl, rfl, rfl⟩ | ⟨rfl, rfl, rfl⟩) hsteps
  · rw [exec_setAngle_servo hch hs hb hf hpos, setPwmCore_range (by omega)]; rfl
  · rw [exec_setPw_servo hch hs hb hf hpos, setPwmCore_range (by omega)]; rfl

end Machine
end Sys2Proof

/-! What a command can do to the registry (10_state.md R33 to R35, 42_servo.md R140). A command updates a slot in
three ways only: it registers in an Absent slot, it drops, or it stores steps, an angle or a pulse width, all of which
`hideSlot` hides. What these updates keep, every command keeps. -/

namespace Sys2Proof
namespace Machine

/-! ### The updates a command makes -/

/-- `P` is kept by every update the command `i` can make. -/
structure KeptByUpdates (i : Instr) (P : State → Prop) : Prop where
  did : ∀ ⦃regs : List Byte⦄ ⦃s : State⦄ ⦃failed : Bool⦄ ⦃t : State⦄, Did regs s failed t → P s → P t
  withFreq : ∀ ⦃s : State⦄ (f : BitVec 32), P s → P (s.withFreq f)
  withResp : ∀ ⦃s : State⦄ (c d : Byte), P s → P (s.withResp c d)
  register : ∀ ⦃s : State⦄ ⦃k : Fin 16⦄ (v : Slot), s.getSlot k = .absent → P s → P (s.setSlot k v)
  drop : ∀ ⦃s : State⦄ ⦃ch : Byte⦄ ⦃k : Fin 16⦄, i = .dropCh ch → k.val = ch.toNat → P s → P (s.setSlot k .absent)
  store : ∀ ⦃s : State⦄ ⦃k : Fin 16⦄ ⦃v : Slot⦄, hideSlot v = hideSlot (s.getSlot k) → P s → P (s.setSlot k v)

theorem hideSlot_slotWithSteps (v : Slot) (on off : BitVec 12) : hideSlot (slotWithSteps v on off) = hideSlot v := by
  cases v <;> rfl

theorem hideSlot_slotWithAngle (v : Slot) (a : Int) : hideSlot (slotWithAngle v a) = hideSlot v := by
  cases v <;> rfl

theorem hideSlot_slotWithPw (v : Slot) (pw : Int) : hideSlot (slotWithPw v pw) = hideSlot v := by
  cases v <;> rfl

theorem checkIndex_index {ch : Byte} {s t : State} {k : Fin 16} (e : checkIndex ch s = .ok k t) :
    k.val = ch.toNat := by
  unfold checkIndex at e
  split at e <;> cases e
  rfl

theorem requireFree_absent {ch : Byte} {s t : State} {k : Fin 16} (e : requireFree ch s = .ok k t) :
    t.getSlot k = .absent := by
  rcases requireFree_cases ch s with ⟨e', -⟩ | ⟨_, e', -⟩ | ⟨_, e', hs⟩ <;> rw [e'] at e <;> cases e
  exact hs

section
variable {i : Instr} {P : State → Prop} (h : KeptByUpdates i P) {s : State} (hs : P s)
include h hs

theorem pinRead_kept : (pinRead s).Ends P := by
  rcases pinRead_did [] s with ⟨_, u, e, d⟩ | ⟨u, e, d⟩ <;> rw [e] <;> exact h.did d hs

theorem pinWrite_kept (l : Bit) : (pinWrite l s).Ends P := by
  rcases pinWrite_did [] l s with ⟨u, e, d⟩ | ⟨u, e, d⟩ <;> rw [e] <;> exact h.did d hs

theorem busRead_kept (reg : Byte) : (busRead reg s).Ends P := by
  rcases busRead_did [] reg s with ⟨_, u, e, d⟩ | ⟨u, e, d⟩ <;> rw [e] <;> exact h.did d hs

theorem busWrite_kept (reg b : Byte) : (busWrite reg b s).Ends P := by
  rcases busWrite_did [reg] reg b s List.mem_cons_self with ⟨u, e, d⟩ | ⟨u, e, d⟩ <;> rw [e] <;> exact h.did d hs

theorem busWrites_kept (ws : List (Byte × Byte)) : (busWrites ws s).Ends P := by
  rcases busWrites_did (ws.map Prod.fst) ws s (fun _ => List.mem_map_of_mem) with ⟨u, e, d⟩ | ⟨u, e, d⟩ <;> rw [e] <;>
    exact h.did d hs

theorem setFreqSequence_kept (b : Byte) : (setFreqSequence b s).Ends P := by
  rcases setFreqSequence_did b s with ⟨u, e, d⟩ | ⟨u, e, d⟩ <;> rw [e] <;> exact h.did d hs

theorem setPwmCore_kept (k : Fin 16) (on off : Int) : (setPwmCore k on off s).Ends P := by
  rcases setPwmCore_did _ k on off s (fun _ hr => hr) with e | ⟨u, e, d⟩ | ⟨u, e, d⟩ <;> rw [e]
  · exact hs
  · exact h.did d hs
  · exact h.store (hideSlot_slotWithSteps _ _ _) (h.did d hs)

theorem setPwCore_kept (k : Fin 16) (sv : ServoRec) (f : BitVec 32) (req : Int) :
    (setPwCore k sv f req s).Ends P :=
  setPwmCore_kept h (h.store (hideSlot_slotWithPw _ _) hs) k _ _

theorem writeEncoding_kept (ch : Byte) (enc : List (Nat × Byte)) : (writeEncoding ch enc s).Ends P :=
  (lookup_ends ch hs).andThen fun _ _ _ ht => (busWrites_kept h ht _).andThen fun _ _ _ hu => hu

omit hs in
theorem finish_kept {r : Res Byte} (hr : r.Ends P) : P (finish r) := by
  cases r <;> exact h.withResp _ _ hr

/-- What the updates of a command keep, the command keeps, whether it answers OK or an error. -/
theorem exec_kept {t : State} (ht : exec i s = .next t) : P t := by
  suffices ∃ r, exec i s = .next (finish r) ∧ r.Ends P by
    obtain ⟨r, hr, hends⟩ := this
    obtain rfl := Host.Outcome.next.inj (hr.symm.trans ht)
    exact finish_kept h hends
  clear ht
  cases i with
  | oeGet => exact ⟨_, rfl, (pinRead_kept h hs).andThen fun _ _ _ hu => hu⟩
  | oeSet v => exact ⟨_, rfl, (pinWrite_kept h hs _).andThen fun _ _ _ hu => hu⟩
  | setFreq f =>
    refine ⟨_, rfl, ?_⟩
    split
    · exact hs
    · split
      · exact hs
      · exact (setFreqSequence_kept h hs _).andThen fun _ _ _ hu => h.withFreq f hu
  | regCh ch =>
    exact ⟨_, rfl, (requireFree_ends ch hs).andThen fun _ _ e hu => h.register _ (requireFree_absent e) hu⟩
  | lookupCh ch =>
    refine ⟨_, rfl, (lookup_ends ch hs).andThen fun p _ _ hu => ?_⟩
    obtain ⟨_, _ | _ | _⟩ := p <;> exact hu
  | dropCh ch => exact ⟨_, rfl, (checkIndex_ends ch hs).andThen fun _ _ e hu => h.drop rfl (checkIndex_index e) hu⟩
  | readReg addr => exact ⟨_, rfl, (busRead_kept h hs addr).andThen fun _ _ _ hu => hu⟩
  | writeReg addr data => exact ⟨_, rfl, (busWrite_kept h hs addr data).andThen fun _ _ _ hu => hu⟩
  | setPwm ch on off =>
    exact ⟨_, exec_setPwm ch on off s, (lookup_ends ch hs).andThen fun p _ _ hu =>
      (setPwmCore_kept h hu p.1 _ _).andThen fun _ _ _ hx => hx⟩
  | setFullOn ch => exact ⟨_, exec_setFullOn ch s, writeEncoding_kept h hs ch _⟩
  | setFullOff ch => exact ⟨_, exec_setFullOff ch s, writeEncoding_kept h hs ch _⟩
  | regServo ch minPw maxPw maxAngle ign =>
    refine ⟨_, rfl, (requireFree_ends ch hs).andThen fun _ _ e hu => ?_⟩
    split
    · exact hu
    · exact h.register _ (requireFree_absent e) hu
  | setAngle ch v =>
    exact ⟨_, exec_setAngle ch v s, programServo_ends hs ch fun k sv f _ hu =>
      setPwCore_kept h (h.store (hideSlot_slotWithAngle _ _) hu) k sv f _⟩
  | setPw ch v =>
    exact ⟨_, exec_setPw ch v s, programServo_ends hs ch fun k sv f _ hu => setPwCore_kept h hu k sv f v⟩

end

/-! ### A registered slot keeps its kind and its bounds (R35, R140) -/

/-- Slot `j` was Absent in `s`, or is in `t` as it was but for what no command reads. -/
def KindKept (j : Fin 16) (s t : State) : Prop :=
  s.getSlot j = .absent ∨ hideSlot (s.getSlot j) = hideSlot (t.getSlot j)

theorem Did.getSlot {regs : List Byte} {s t : State} {failed : Bool} (d : Did regs s failed t) (j : Fin 16) :
    t.getSlot j = s.getSlot j := by
  rw [State.getSlot, d.slot, State.getSlot]

theorem hideSlot_eq_absent {v : Slot} (h : hideSlot v = .absent) : v = .absent := by
  match v, h with
  | .absent, _ => rfl

/-- Only DROP_CH on slot `j` could end it: a registration finds the slot Absent. -/
theorem kindKept_keptByUpdates {i : Instr} {j : Fin 16} (hdrop : ∀ ch, i = .dropCh ch → ch.toNat ≠ j.val) (s : State) :
    KeptByUpdates i (KindKept j s) where
  did := fun _ _ _ _ d h => by rwa [KindKept, d.getSlot]
  withFreq := fun _ _ h => h
  withResp := fun _ _ _ h => h
  register := fun t k v habsent h => by
    rcases eq_or_ne j k with rfl | hjk
    · left
      rcases h with h | h
      · exact h
      · exact hideSlot_eq_absent (by rw [h, habsent]; rfl)
    · rwa [KindKept, setSlot_getSlot_ne t v hjk]
  drop := fun t ch k hi hk h => by
    have hjk : j ≠ k := fun e => hdrop ch hi (e ▸ hk.symm)
    rwa [KindKept, setSlot_getSlot_ne t _ hjk]
  store := fun t k v hv h => by
    rcases eq_or_ne j k with rfl | hjk
    · rwa [KindKept, setSlot_getSlot_self, hv]
    · rwa [KindKept, setSlot_getSlot_ne t v hjk]

theorem SlotAlike.servo_left {c : ChanRec} {sv : ServoRec} {v : Slot} (h : SlotAlike (.servo c sv) v) :
    ∃ c' a p, v = .servo c' { sv with angle := a, pw := p } := by
  cases h with
  | servo _ c' _ a p => exact ⟨c', a, p, rfl⟩

theorem SlotAlike.chan_left {c : ChanRec} {v : Slot} (h : SlotAlike (.chan c) v) : ∃ c', v = .chan c' := by
  cases h with
  | chan _ c' => exact ⟨c', rfl⟩

/-- Settles O47: no update but a drop changes the kind or the bounds of a registered slot. -/
theorem servoBoundsFixedUntilDrop : Obligations.ServoBoundsFixedUntilDrop := by
  intro i s t j h hdrop
  rcases exec_kept (kindKept_keptByUpdates hdrop s) (.inr rfl) h with habsent | hkept
  · rw [habsent]
    exact ⟨fun _ _ => Slot.noConfusion, fun _ => Slot.noConfusion⟩
  · have halike := slotAlike_of_hideSlot hkept
    exact ⟨fun c sv hs => (hs ▸ halike).servo_left, fun c hs => (hs ▸ halike).chan_left⟩

end Machine
end Sys2Proof

/-! Construction that fails, and the phase it ends in (60_exceptions.md R166, 70_reset_and_hazards.md R180). -/

namespace Sys2Proof
namespace Machine

section
variable (p : Config.Params) (dev : BitVec 7) (pin : Nat) (e : Env) {o : Oracle}

/-- InitBus fails: InitPin is not tried. -/
theorem construct_initBus_fail (h : failsAt 0 o) :
    construct p dev pin e o =
      ((blank p dev pin e o).withOracle (nextDraw o).2).log (.fail (.initBus dev)) := by
  have hbus : (nextDraw (blank p dev pin e o).oracle).1.ok = false := (failsAt_zero o).mp h
  simp only [construct, hbus, Bool.false_eq_true, if_false]
  rfl

/-- InitBus succeeds and InitPin fails; the pin's level is unknown after it (log entry 7). -/
theorem construct_initPin_fail (h : failsAt 1 o) :
    construct p dev pin e o =
      ((((blank p dev pin e o).log (.initBus dev)).withOracle (afterDraws 2 o)).withPin none).log
        (.fail (.initPin pin)) := by
  obtain ⟨hfirst, hsecond⟩ := (failsAt_succ 0 o).mp h
  have hbus : (nextDraw (blank p dev pin e o).oracle).1.ok = true := hfirst
  have hpin : (nextDraw (nextDraw (blank p dev pin e o).oracle).2).1.ok = false := (failsAt_zero _).mp hsecond
  simp only [construct, hbus, if_true, log_oracle, withOracle_oracle, hpin, Bool.false_eq_true, if_false]
  rfl

end

theorem step_initFault {s : State} (h : s.phase = .initFault) : step s = .fault .initFault := by
  rw [step, h]

/-- Settles O7: each of the two failures leaves the phase that construction began in, and there `step` faults first. -/
theorem failedConstructionHasNoStep : Obligations.FailedConstructionHasNoStep := by
  refine ⟨fun p dev pin e o k hk h => ?_, fun _ => step_initFault⟩
  match k, hk with
  | 0, _ => rw [construct_initBus_fail p dev pin e h]; rfl
  | 1, _ => rw [construct_initPin_fail p dev pin e h]; rfl

end Machine
end Sys2Proof

/-! What remains after an error (60_exceptions.md section 2, R169). A command raises before it has written the frequency or
a slot, but for what SET_ANGLE and SET_PW store first; the slot it may write is the one its CH field names (10_state.md
R41). -/

namespace Sys2Proof
namespace Machine

/-! ### A failed write of SET_ANGLE or SET_PW -/

/-- `set_pwm_core` with the on edge at 0, begun after `v` is stored in slot `i`: write `k` is the first to fail and ends the
command, and no steps are stored in `v` (R127). -/
theorem finish_setPwmCore_setSlot_fail (s : State) (i : Fin 16) (v : Slot) {steps : Int} (hlow : 0 ≤ steps)
    (hhigh : steps ≤ 4095) {k : Nat} (hk : k < 4) (h : failsAt k s.oracle) (l : Unit → State → Res Byte) :
    finish ((setPwmCore i 0 steps (s.setSlot i v)).andThen l) =
      (s.afterFailure (fourWrites s.params i 0 steps.toNat) k hk).setSlot i v := by
  obtain ⟨n, rfl⟩ := Int.eq_ofNat_of_zero_le hlow
  have hcore := setPwmCore_fail i 0 n (s.setSlot i v) (by omega) (by omega) k hk h
  rw [Nat.cast_zero] at hcore
  rw [hcore, finish_busWrites_fail (s := s.setSlot i v) hk h]
  rfl

/-- Settles O41: the values are stored before the first write, and the steps would be after the last. -/
theorem servoFailureKeepsStoredValues : Obligations.ServoFailureKeepsStoredValues := by
  rintro s ch v pw steps hch c sv sv' f i k hk hs hb hf hpos (⟨rfl, rfl, rfl⟩ | ⟨rfl, rfl, rfl⟩) rfl hlow hhigh h
  · rw [exec_setAngle_servo hch hs hb hf hpos, finish_setPwmCore_setSlot_fail s _ _ hlow hhigh hk h]; rfl
  · rw [exec_setPw_servo hch hs hb hf hpos, finish_setPwmCore_setSlot_fail s _ _ hlow hhigh hk h]; rfl

/-! ### Ending well and raising -/

/-- A part of a command that goes on does so in a state that meets `P`, and one that raises, in a state that meets `Q`. -/
def Res.Meets {α : Type} (P Q : State → Prop) : Res α → Prop
  | .ok _ t => P t
  | .raised _ t => Q t

section
variable {α β : Type} {P P' Q : State → Prop} {r : Res α}

theorem Res.Ends.meets (h : r.Ends Q) : r.Meets Q Q := by
  cases r <;> exact h

theorem Res.Meets.andThen {k : α → State → Res β} (h : r.Meets P Q)
    (hk : ∀ a t, r = .ok a t → P t → (k a t).Meets P' Q) : (r.andThen k).Meets P' Q := by
  cases r with
  | ok a t => exact hk a t rfl h
  | raised e t => exact h

end

/-! ### The two frames -/

/-- From `s` to `t` the port stays, and every slot but the one `i` names and may write (R41). -/
structure SlotsFramed (i : Instr) (s t : State) : Prop where
  port : t.port = s.port
  slot : ∀ j : Fin 16, (∀ ch, writtenSlot i = some ch → ch.toNat ≠ j.val) → t.getSlot j = s.getSlot j

/-- What holds besides where `i` raises in `t` (R169): the frequency stays, and every slot but for a servo's angle and pulse
width where `i` is SET_ANGLE or SET_PW. -/
structure ErrorFramed (i : Instr) (s t : State) : Prop extends SlotsFramed i s t where
  freq : t.freq = s.freq
  servo : ∀ j : Fin 16, t.getSlot j = s.getSlot j ∨ ((∃ ch v, i = .setAngle ch v ∨ i = .setPw ch v) ∧
    ∃ c sv a p, s.getSlot j = .servo c sv ∧ t.getSlot j = .servo c { sv with angle := a, pw := p })

section
variable {i : Instr} {s t : State}

theorem SlotsFramed.setSlot (h : SlotsFramed i s t) {ch : Byte} {k : Fin 16} (hi : writtenSlot i = some ch)
    (hk : k.val = ch.toNat) (v : Slot) : SlotsFramed i s (t.setSlot k v) where
  port := h.port
  slot := fun j hj => by
    have hjk : j ≠ k := fun e => hj ch hi (e ▸ hk.symm)
    rw [setSlot_getSlot_ne t v hjk, h.slot j hj]

theorem ErrorFramed.refl (i : Instr) (s : State) : ErrorFramed i s s :=
  ⟨⟨rfl, fun _ _ => rfl⟩, rfl, fun _ => .inl rfl⟩

theorem ErrorFramed.did (h : ErrorFramed i s t) {regs : List Byte} {failed : Bool} {u : State}
    (d : Did regs t failed u) : ErrorFramed i s u where
  port := d.port.trans h.port
  slot := fun j hj => (d.getSlot j).trans (h.slot j hj)
  freq := d.freq.trans h.freq
  servo := fun j => d.getSlot j ▸ h.servo j

/-- What the frame keeps, a run of external primitives keeps, however it ends. -/
theorem ErrorFramed.ran {α : Type} (h : ErrorFramed i s t) {regs : List Byte} {r : Res α}
    (hdid : (∃ a u, r = .ok a u ∧ Did regs t false u) ∨ ∃ u, r = .raised .transport u ∧ Did regs t true u) :
    r.Meets (ErrorFramed i s) (ErrorFramed i s) := by
  rcases hdid with ⟨a, u, rfl, d⟩ | ⟨u, rfl, d⟩ <;> exact h.did d

/-- As `ErrorFramed.ran`, for a run that answers nothing. -/
theorem ErrorFramed.ranUnit (h : ErrorFramed i s t) {regs : List Byte} {r : Res Unit}
    (hdid : (∃ u, r = .ok () u ∧ Did regs t false u) ∨ ∃ u, r = .raised .transport u ∧ Did regs t true u) :
    r.Meets (ErrorFramed i s) (ErrorFramed i s) :=
  h.ran (hdid.imp_left (Exists.intro ()))

/-- The state in which SET_ANGLE and SET_PW begin their writes. -/
theorem errorFramed_setSlot_servo {ch : Byte} {v : Int} (hi : i = .setAngle ch v ∨ i = .setPw ch v) {k : Fin 16}
    (hk : k.val = ch.toNat) {c : ChanRec} {sv : ServoRec} (hs : s.getSlot k = .servo c sv) (a p : Option Int) :
    ErrorFramed i s (s.setSlot k (.servo c { sv with angle := a, pw := p })) where
  toSlotsFramed := (ErrorFramed.refl i s).setSlot (by rcases hi with rfl | rfl <;> rfl) hk _
  freq := rfl
  servo := fun j => by
    rcases eq_or_ne j k with rfl | hjk
    · exact .inr ⟨⟨ch, v, hi⟩, c, sv, a, p, hs, setSlot_getSlot_self s j _⟩
    · exact .inl (setSlot_getSlot_ne s _ hjk)

/-! ### The operations that commands are built from -/

theorem requireFree_index {ch : Byte} {k : Fin 16} (e : requireFree ch s = .ok k t) : k.val = ch.toNat := by
  rcases requireFree_cases ch s with ⟨e', -⟩ | ⟨_, e', -⟩ | ⟨_, e', -⟩ <;> rw [e'] at e <;> cases e
  rfl

theorem setPwmCore_framed (h : ErrorFramed i s t) {ch : Byte} {k : Fin 16} (hi : writtenSlot i = some ch)
    (hk : k.val = ch.toNat) (on off : Int) :
    (setPwmCore k on off t).Meets (SlotsFramed i s) (ErrorFramed i s) := by
  rcases setPwmCore_did _ k on off t (fun _ hr => hr) with e | ⟨u, e, d⟩ | ⟨u, e, d⟩ <;> rw [e]
  · exact h
  · exact h.did d
  · exact (h.did d).setSlot hi hk _

theorem writeEncoding_framed (ch : Byte) (enc : List (Nat × Byte)) (h : ErrorFramed i s t) :
    (writeEncoding ch enc t).Meets (SlotsFramed i s) (ErrorFramed i s) :=
  (lookup_ends ch h).meets.andThen fun _ u _ hu =>
    (hu.ranUnit (busWrites_did _ _ u fun _ => List.mem_map_of_mem)).andThen fun _ _ _ hx => hx.toSlotsFramed

/-- Everything the common body of SET_ANGLE and SET_PW can do: a check refuses, or the setter runs on a servo's slot. -/
theorem programServo_cases (ch : Byte) (setter : Fin 16 → ServoRec → BitVec 32 → State → Res Unit) (s : State) :
    (∃ e, programServo ch setter s = .raised e s) ∨
    ∃ (hch : ch.toNat < 16) (c : ChanRec) (sv : ServoRec) (f : BitVec 32), s.getSlot ⟨ch.toNat, hch⟩ = .servo c sv ∧
      programServo ch setter s = (setter ⟨ch.toNat, hch⟩ sv f s).andThen fun _ s => .ok 0x00#8 s := by
  rcases servoLookup_cases ch s with ⟨-, hch⟩ | ⟨hch, -, hs⟩ | ⟨hch, c, sv, -, hs⟩
  · exact .inl ⟨_, programServo_range hch⟩
  · exact .inl ⟨_, programServo_of_not_servo hch hs⟩
  · cases hf : s.freq with
    | none => exact .inl ⟨_, programServo_unconfigured hch hs hf⟩
    | some f => exact .inr ⟨hch, c, sv, f, hs, programServo_ok hch hs hf⟩

/-- A setter that stores an angle and a pulse width in the servo's slot and then programs steps. -/
theorem programServo_framed {ch : Byte} {v : Int} (hi : i = .setAngle ch v ∨ i = .setPw ch v)
    {setter : Fin 16 → ServoRec → BitVec 32 → State → Res Unit}
    (hsetter : ∀ k c sv f, s.getSlot k = .servo c sv → ∃ a p steps, setter k sv f s =
      setPwmCore k 0 steps (s.setSlot k (.servo c { sv with angle := a, pw := p }))) :
    (programServo ch setter s).Meets (SlotsFramed i s) (ErrorFramed i s) := by
  rcases programServo_cases ch setter s with ⟨e, hraised⟩ | ⟨hch, c, sv, f, hs, hset⟩
  · rw [hraised]
    exact ErrorFramed.refl i s
  · obtain ⟨a, p, steps, hcore⟩ := hsetter ⟨ch.toNat, hch⟩ c sv f hs
    rw [hset, hcore]
    exact (setPwmCore_framed (errorFramed_setSlot_servo hi rfl hs a p) (by rcases hi with rfl | rfl <;> rfl) rfl _
      _).andThen fun _ _ _ hu => hu

end

theorem pwSetter_of_servo {s : State} {k : Fin 16} {c : ChanRec} {sv : ServoRec} (hs : s.getSlot k = .servo c sv)
    (v : Int) (f : BitVec 32) : pwSetter v k sv f s = setPwmCore k 0 (stepsOf (effPw sv v) f.toNat)
      (s.setSlot k (.servo c { sv with pw := some (effPw sv v) })) := by
  rw [pwSetter, setPwCore, storePw_of_servo hs]

theorem angleSetter_of_servo {s : State} {k : Fin 16} {c : ChanRec} {sv : ServoRec} (hs : s.getSlot k = .servo c sv)
    (v : Int) (f : BitVec 32) : angleSetter v k sv f s =
      setPwmCore k 0 (stepsOf (effPw sv (pwReq sv (effAngle sv v))) f.toNat) (s.setSlot k (.servo c { sv with
        angle := some (effAngle sv v), pw := some (effPw sv (pwReq sv (effAngle sv v))) })) := by
  rw [angleSetter, setPwCore, storeAngle_of_servo hs, storePw_of_servo (setSlot_getSlot_self s _ _), setSlot_setSlot]

/-! ### Every command -/

/-- Every command keeps the first frame where it answers OK, and the second where it raises. -/
theorem exec_framed (i : Instr) (s : State) :
    ∃ r, exec i s = .next (finish r) ∧ r.Meets (SlotsFramed i s) (ErrorFramed i s) := by
  have hs := ErrorFramed.refl i s
  cases i with
  | oeGet => exact ⟨_, rfl, (hs.ran (pinRead_did [] s)).andThen fun _ _ _ ht => ht.toSlotsFramed⟩
  | oeSet v => exact ⟨_, rfl, (hs.ranUnit (pinWrite_did [] _ s)).andThen fun _ _ _ ht => ht.toSlotsFramed⟩
  | setFreq f =>
    refine ⟨_, rfl, ?_⟩
    split
    · exact hs
    · split
      · exact hs
      · exact (hs.ranUnit (setFreqSequence_did _ s)).andThen fun _ _ _ ht => ⟨ht.port, ht.slot⟩
  | regCh ch =>
    exact ⟨_, rfl, (requireFree_ends ch hs).meets.andThen fun _ _ e ht => ht.setSlot rfl (requireFree_index e) _⟩
  | lookupCh ch =>
    refine ⟨_, rfl, (lookup_ends ch hs).meets.andThen fun p _ _ ht => ?_⟩
    obtain ⟨_, _ | _ | _⟩ := p <;> exact ht.toSlotsFramed
  | dropCh ch =>
    exact ⟨_, rfl, (checkIndex_ends ch hs).meets.andThen fun _ _ e ht => ht.setSlot rfl (checkIndex_index e) _⟩
  | readReg addr => exact ⟨_, rfl, (hs.ran (busRead_did [] addr s)).andThen fun _ _ _ ht => ht.toSlotsFramed⟩
  | writeReg addr data =>
    exact ⟨_, rfl, (hs.ranUnit (busWrite_did [addr] addr data s List.mem_cons_self)).andThen
      fun _ _ _ ht => ht.toSlotsFramed⟩
  | setPwm ch on off =>
    exact ⟨_, exec_setPwm ch on off s, (lookup_ends ch hs).meets.andThen fun _ _ e ht =>
      (setPwmCore_framed ht rfl (lookup_index e) _ _).andThen fun _ _ _ hu => hu⟩
  | setFullOn ch => exact ⟨_, exec_setFullOn ch s, writeEncoding_framed ch _ hs⟩
  | setFullOff ch => exact ⟨_, exec_setFullOff ch s, writeEncoding_framed ch _ hs⟩
  | regServo ch minPw maxPw maxAngle ign =>
    refine ⟨_, rfl, (requireFree_ends ch hs).meets.andThen fun _ _ e ht => ?_⟩
    split
    · exact ht
    · exact ht.setSlot rfl (requireFree_index e) _
  | setAngle ch v =>
    exact ⟨_, exec_setAngle ch v s, programServo_framed (.inl rfl) fun _ _ _ f hslot =>
      ⟨_, _, _, angleSetter_of_servo hslot v f⟩⟩
  | setPw ch v =>
    exact ⟨_, exec_setPw ch v s, programServo_framed (.inr rfl) fun _ _ sv f hslot =>
      ⟨sv.angle, _, _, pwSetter_of_servo hslot v f⟩⟩

/-- Settles O46: a command that answers an error has raised, so the second frame holds of it too. -/
theorem otherSlotsUnchanged : Obligations.OtherSlotsUnchanged := by
  intro i s t h
  obtain ⟨r, hr, hframed⟩ := exec_framed i s
  obtain rfl := Host.Outcome.next.inj (hr.symm.trans h)
  cases r with
  | ok data u => exact ⟨hframed.port, hframed.slot, fun herr => absurd rfl (herr data)⟩
  | raised e u => exact ⟨hframed.port, hframed.slot, fun _ => ⟨hframed.freq, hframed.servo⟩⟩

end Machine
end Sys2Proof

/-! Construction that succeeds, and the fields it leaves (70_reset_and_hazards.md R180, R181). -/

namespace Sys2Proof
namespace Machine

section
variable (p : Config.Params) (dev : BitVec 7) (pin : Nat) (e : Env)

/-- Both interactions succeed; the pin's level is unknown after them (log entry 7). -/
theorem construct_of_acks {o : Oracle} (h : acks 2 o) :
    construct p dev pin e o =
      { ((((blank p dev pin e o).log (.initBus dev)).withOracle (afterDraws 2 o)).withPin none).log (.initPin pin) with
        phase := .ready } := by
  obtain ⟨hfirst, hrest⟩ := (acks_succ 1 o).mp h
  have hbus : (nextDraw (blank p dev pin e o).oracle).1.ok = true := hfirst
  have hpin : (nextDraw (nextDraw (blank p dev pin e o).oracle).2).1.ok = true := ((acks_succ 0 _).mp hrest).1
  simp only [construct, hbus, if_true, log_oracle, withOracle_oracle, hpin]
  rfl

/-- The registry begins empty. -/
@[simp] theorem blank_getSlot (o : Oracle) (i : Fin 16) : (blank p dev pin e o).getSlot i = .absent :=
  Vector.getElem_replicate i.isLt

end

/-- Settles O9: of the fields R181 lists, a successful construction changes only the phase and the trace of the blank
block. -/
theorem resetValuesAfterConstruction : Obligations.ResetValuesAfterConstruction := fun p dev pin e o h =>
  ⟨_, construct_of_acks p dev pin e h, rfl, rfl, rfl, rfl, blank_getSlot p dev pin e o, rfl, rfl⟩

end Machine
end Sys2Proof

/-! The two round trips of the encoding (30_encoding.md R67 to R79). A word is its OP, its fields and its reserved bits, side by
side, so a word with no reserved bit set is the word of its own fields; and a command's word holds all of the command. -/

namespace Sys2Proof

/-! ### A word in pieces -/

/-- Two neighbouring pieces of a word are one piece. -/
theorem extractLsb'_append_next (w : CmdWord) {m n a b : Nat} (h : b = a + n) :
    w.extractLsb' b m ++ w.extractLsb' a n = w.extractLsb' a (m + n) :=
  BitVec.extractLsb'_append_extractLsb'_eq_extractLsb' h

/-- A piece of reserved bits is zero in a word with no reserved bit set. -/
theorem extractLsb'_of_reserved {w r : CmdWord} (h : w &&& r = 0#64) {a n : Nat}
    (hr : r.extractLsb' a n = BitVec.allOnes n) : w.extractLsb' a n = 0#n := by
  rw [← BitVec.and_allOnes (x := w.extractLsb' a n), ← hr, ← BitVec.extractLsb'_and, h, BitVec.extractLsb'_zero]

/-! ### Each format, as R69 to R76 draw it -/

section
variable {w : CmdWord} {c : Byte} (hop : fieldOp w = c)
include hop

theorem word_of_formatN (h : w &&& Format.reserved .N = 0#64) : c ++ 0#56 = w := by
  rw [← hop, ← extractLsb'_of_reserved h (a := 0) (by decide)]
  simp only [fieldOp, extractLsb'_append_next w, BitVec.extractLsb'_eq_self]

theorem word_of_formatO (h : w &&& Format.reserved .O = 0#64) : c ++ 0#55 ++ fieldV w = w := by
  rw [← hop, ← extractLsb'_of_reserved h (a := 1) (by decide)]
  simp only [fieldOp, fieldV, extractLsb'_append_next w, BitVec.extractLsb'_eq_self]

theorem word_of_formatF (h : w &&& Format.reserved .F = 0#64) : c ++ 0#24 ++ fieldFreq w = w := by
  rw [← hop, ← extractLsb'_of_reserved h (a := 32) (by decide)]
  simp only [fieldOp, fieldFreq, extractLsb'_append_next w, BitVec.extractLsb'_eq_self]

theorem word_of_formatC (h : w &&& Format.reserved .C = 0#64) : c ++ fieldCh w ++ 0#48 = w := by
  rw [← hop, ← extractLsb'_of_reserved h (a := 0) (by decide)]
  simp only [fieldOp, fieldCh, extractLsb'_append_next w, BitVec.extractLsb'_eq_self]

theorem word_of_formatRA (h : w &&& Format.reserved .RA = 0#64) : c ++ 0#40 ++ fieldAddr w ++ 0#8 = w := by
  rw [← hop, ← extractLsb'_of_reserved h (a := 16) (n := 40) (by decide),
    ← extractLsb'_of_reserved h (a := 0) (n := 8) (by decide)]
  simp only [fieldOp, fieldAddr, extractLsb'_append_next w, BitVec.extractLsb'_eq_self]

theorem word_of_formatRW (h : w &&& Format.reserved .RW = 0#64) : c ++ 0#40 ++ fieldAddr w ++ fieldData w = w := by
  rw [← hop, ← extractLsb'_of_reserved h (a := 16) (by decide)]
  simp only [fieldOp, fieldAddr, fieldData, extractLsb'_append_next w, BitVec.extractLsb'_eq_self]

theorem word_of_formatP (h : w &&& Format.reserved .P = 0#64) :
    c ++ fieldCh w ++ 0#16 ++ fieldHi16 w ++ fieldLo16 w = w := by
  rw [← hop, ← extractLsb'_of_reserved h (a := 32) (by decide)]
  simp only [fieldOp, fieldCh, fieldHi16, fieldLo16, extractLsb'_append_next w, BitVec.extractLsb'_eq_self]

theorem word_of_formatV (h : w &&& Format.reserved .V = 0#64) :
    c ++ fieldCh w ++ 0#16 ++ BitVec.ofInt 32 (fieldVal w) = w := by
  rw [← hop, ← extractLsb'_of_reserved h (a := 32) (by decide), fieldVal, BitVec.ofInt_toInt]
  simp only [fieldOp, fieldCh, extractLsb'_append_next w, BitVec.extractLsb'_eq_self]

/-- Format S has no reserved bits. -/
theorem word_of_formatS : c ++ fieldCh w ++ fieldIgn w ++ fieldMaxAng w ++ fieldHi16 w ++ fieldLo16 w = w := by
  rw [← hop]
  simp only [fieldOp, fieldCh, fieldIgn, fieldMaxAng, fieldHi16, fieldLo16, extractLsb'_append_next w,
    BitVec.extractLsb'_eq_self]

end

/-! ### From word to command and back -/

theorem encode_fields {op : Op} {w : CmdWord} (hop : fieldOp w = op.code) (h : w &&& op.format.reserved = 0#64) :
    encode (fields op w) = w := by
  cases op with
  | oeGet => exact word_of_formatN hop h
  | oeSet => exact word_of_formatO hop h
  | setFreq => exact word_of_formatF hop h
  | regCh | lookupCh | dropCh | setFullOn | setFullOff => exact word_of_formatC hop h
  | readReg => exact word_of_formatRA hop h
  | writeReg => exact word_of_formatRW hop h
  | setPwm => exact word_of_formatP hop h
  | regServo => exact word_of_formatS hop
  | setAngle | setPw => exact word_of_formatV hop h

theorem inS32_iff (v : Int) : inS32 v = true ↔ -2 ^ 31 ≤ v ∧ v < 2 ^ 31 := by
  rw [inS32, Bool.and_eq_true, decide_eq_true_eq, decide_eq_true_eq]
  omega

theorem inS32_fieldVal (w : CmdWord) : inS32 (fieldVal w) = true :=
  (inS32_iff _).mpr ⟨BitVec.le_toInt _, BitVec.toInt_lt⟩

/-- `VAL` is the one operand to check, and a 32-bit field holds an `s32`. -/
theorem fields_wellFormed (op : Op) (w : CmdWord) : (fields op w).wellFormed = true := by
  cases op with
  | setAngle | setPw => exact inS32_fieldVal w
  | _ => rfl

/-- Settles O2: the word is the one of its fields. -/
theorem encodeInvertsDecode : Obligations.EncodeInvertsDecode := by
  intro w i hdecode
  obtain ⟨op, hop, hres, rfl⟩ := decode_eq_ok_iff.mp hdecode
  exact ⟨encode_fields hop hres, fields_wellFormed op w⟩

/-- Every command's word is legal, by the laws of the single commands. -/
theorem legalWord (i : Instr) : Laws.LegalWord.Statement i := by
  cases i with
  | oeGet => exact Laws.LegalWord.oeGet
  | oeSet v => exact Laws.LegalWord.oeSet v
  | setFreq f => exact Laws.LegalWord.setFreq f
  | regCh ch => exact Laws.LegalWord.regCh ch
  | lookupCh ch => exact Laws.LegalWord.lookupCh ch
  | dropCh ch => exact Laws.LegalWord.dropCh ch
  | readReg addr => exact Laws.LegalWord.readReg addr
  | writeReg addr data => exact Laws.LegalWord.writeReg addr data
  | setPwm ch on off => exact Laws.LegalWord.setPwm ch on off
  | setFullOn ch => exact Laws.LegalWord.setFullOn ch
  | setFullOff ch => exact Laws.LegalWord.setFullOff ch
  | regServo ch minPw maxPw maxAngle ign => exact Laws.LegalWord.regServo ch minPw maxPw maxAngle ign
  | setAngle ch v => exact Laws.LegalWord.setAngle ch v
  | setPw ch v => exact Laws.LegalWord.setPw ch v

/-- On the values of an `s32`, nothing is lost in 32 bits (R16). -/
theorem ofInt_injOn_inS32 {v v' : Int} (hv : inS32 v = true) (hv' : inS32 v' = true)
    (h : BitVec.ofInt 32 v = BitVec.ofInt 32 v') : v = v' := by
  obtain ⟨hlow, hhigh⟩ := (inS32_iff v).mp hv
  obtain ⟨hlow', hhigh'⟩ := (inS32_iff v').mp hv'
  rw [← BitVec.toInt_ofInt_eq_self (w := 32) (by decide) hlow hhigh, h,
    BitVec.toInt_ofInt_eq_self (by decide) hlow' hhigh']

/-- The word holds every operand, so fields that make the same word are the operands. -/
theorem fields_eq_of_encode_eq {i : Instr} {w : CmdWord} (hi : i.wellFormed = true)
    (h : encode (fields i.op w) = encode i) : fields i.op w = i := by
  cases i with
  | oeGet => rfl
  | setAngle ch v | setPw ch v =>
    obtain ⟨hhigh, hval⟩ := bitVec_append_inj.mp h
    simp only [bitVec_append_inj, true_and, and_true] at hhigh
    simp only [Instr.op, fields, hhigh, ofInt_injOn_inS32 (inS32_fieldVal w) hi hval]
  | _ =>
    obtain ⟨hhigh, hlow⟩ := bitVec_append_inj.mp h
    simp only [bitVec_append_inj, true_and, and_true] at hhigh
    simp only [Instr.op, fields, hhigh, hlow]

/-- Settles O1: the word is legal, so it decodes to its fields, and its fields make the same word. -/
theorem decodeInvertsEncode : Obligations.DecodeInvertsEncode := by
  intro i hi
  obtain ⟨hop, hres⟩ := legalWord i
  exact decode_encode_of_fields ⟨hop, hres⟩
    (fields_eq_of_encode_eq hi (encode_fields (opOfCode_eq_some_iff.mp hop) hres))
end Sys2Proof

/-! SET_ANGLE and SET_PW where the steps are legal and every write is acknowledged (42_servo.md sections 3 and 4), with the step
count in both rational forms of R147. -/

namespace Sys2Proof
namespace Machine

/-- Settles O13: the machine's quotient is the second of the spec's, and the first is equal to it. -/
theorem stepsAreRoundedRational : Obligations.StepsAreRoundedRational := by
  refine fun pw f hf => ⟨stepsOf_eq_specSteps pw hf, ?_⟩
  rw [stepsOf_eq_roundDiv, roundDiv_eq_roundRat _ _ (by decide)]
  push_cast; rfl

theorem storeSteps_setSlot (s : State) (i : Fin 16) (v : Slot) (on off : BitVec 12) :
    (s.setSlot i v).storeSteps i on off = s.setSlot i (slotWithSteps v on off) := by
  rw [State.storeSteps, setSlot_getSlot_self, setSlot_setSlot]

/-- `set_pwm_core` with the on edge at 0, begun after `v` is stored in slot `i`: the four writes, and the steps stored in `v`
(R127). -/
theorem finish_setPwmCore_setSlot_ok (s : State) (i : Fin 16) (v : Slot) {steps : Int} (hlow : 0 ≤ steps)
    (hhigh : steps ≤ 4095) (h : acks 4 s.oracle) :
    finish ((setPwmCore i 0 steps (s.setSlot i v)).andThen fun _ s => .ok 0x00#8 s) =
      (s.afterWrites (fourWrites s.params i 0 steps.toNat)).setSlot i
        (slotWithSteps v 0#12 (BitVec.ofInt 12 steps)) := by
  obtain ⟨n, rfl⟩ := Int.eq_ofNat_of_zero_le hlow
  have hcore := setPwmCore_ok i 0 n (s.setSlot i v) (by omega) (by omega) h
  rw [Nat.cast_zero] at hcore
  rw [hcore]
  exact storeSteps_setSlot (s.afterWrites (fourWrites s.params i 0 n)) i v _ _

/-- Settles O38: the values are stored, then the four writes, then the steps. -/
theorem setAngleProgramsSteps : Obligations.SetAngleProgramsSteps := by
  rintro s ch v a pw steps hch c sv f hs hb hf hpos rfl rfl rfl hlow hhigh h
  rw [exec_setAngle_servo hch hs hb hf hpos, finish_setPwmCore_setSlot_ok s _ _ hlow hhigh h]
  rfl

/-- Settles O39: as for SET_ANGLE, with the angle as it was. -/
theorem setPwProgramsSteps : Obligations.SetPwProgramsSteps := by
  rintro s ch v pw steps hch c sv f hs hb hf hpos rfl rfl hlow hhigh h
  rw [exec_setPw_servo hch hs hb hf hpos, finish_setPwmCore_setSlot_ok s _ _ hlow hhigh h]
  rfl

end Machine
end Sys2Proof

/-! Construction in its three outcomes, and the reset state (70_reset_and_hazards.md R180 to R183). -/

namespace Sys2Proof
namespace Machine

/-- Settles O8: the three outcomes of construction. -/
theorem constructionTrace : Obligations.ConstructionTrace := by
  intro p dev pin e o
  have hbus (h : failsAt 0 o) := construct_initBus_fail p dev pin e h
  have hpin (h : failsAt 1 o) := construct_initPin_fail p dev pin e h
  have hok (h : acks 2 o) := construct_of_acks p dev pin e h
  refine ⟨fun h => ?_, fun h => ?_, fun h => ?_, ?_, ?_⟩
  · rw [hbus h]; exact ⟨rfl, rfl⟩
  · rw [hpin h]; rfl
  · rw [hok h]; rfl
  · rintro (h | h)
    · rw [hpin h]; rfl
    · rw [hok h]; rfl
  · rcases acks_or_failsAt 2 o with h | ⟨k, hk, h⟩
    · rw [hok h]; rfl
    · match k, hk with
      | 0, _ => rw [hbus h]; rfl
      | 1, _ => rw [hpin h]; rfl

/-- Two draws that succeed, and no more. -/
def twoAcks : Oracle :=
  { mode := .draws, draws := List.replicate 2 { ok := true, byte := 0x00#8, level := 0#1 }, drawn := 0 }

theorem acks_twoAcks : acks 2 twoAcks := by
  rw [acks_succ, acks_succ]
  exact ⟨rfl, rfl, acks_zero _⟩

/-- Settles O10: the construction has drawn both answers, and none is left. -/
theorem resetIsConstruction : Obligations.ResetIsConstruction := by
  refine ⟨twoAcks, acks_twoAcks, ?_⟩
  rw [construct_of_acks _ _ _ _ acks_twoAcks]
  rfl

/-- Settles O6: the command gate of R97, in Ready, on a legal word. -/
theorem stepRunsDecodedInstruction : Obligations.StepRunsDecodedInstruction :=
  fun _ _ _ _ hphase hport hdecode => step_of_decode_ok hphase hport hdecode

end Machine
end Sys2Proof

/-! What every command answers and appends (10_state.md R42, R43, 60_exceptions.md R158, R162). A command is some checks, which
change nothing, and at most one run of external primitives. `Did` says what the run's events are; counted here are how many,
and that OE_SET alone drives the pin. -/

namespace Sys2Proof
namespace Machine

/-! ### The number of events, and the pin -/

/-- From `s` to `t` the command `i` appends at most `n` events, and leaves the known pin level unless it is an OE_SET. -/
structure Short (i : Instr) (n : Nat) (s t : State) : Prop where
  length : t.trace.length ≤ s.trace.length + n
  pin : (∀ v, i ≠ .oeSet v) → t.env.pin = s.env.pin

section
variable {i : Instr} {n : Nat} {s t : State}

theorem Short.refl (i : Instr) (n : Nat) (s : State) : Short i n s s := ⟨Nat.le_add_right _ _, fun _ => rfl⟩

theorem Short.mono (h : Short i n s t) {m : Nat} (hm : n ≤ m) : Short i m s t :=
  ⟨h.length.trans (Nat.add_le_add_left hm _), h.pin⟩

/-- One event more. -/
theorem Short.one (h : Short i n s t) {u : State} {e : Event} (htrace : u.trace = t.trace ++ [e])
    (hpin : (∀ v, i ≠ .oeSet v) → u.env.pin = t.env.pin) : Short i (n + 1) s u where
  length := by rw [htrace, List.length_append]; exact Nat.succ_le_succ h.length
  pin := fun hi => (hpin hi).trans (h.pin hi)

theorem Short.andThen {α β : Type} {r : Res α} {k : α → State → Res β} (h : r.Ends (Short i n s)) {m : Nat}
    (hk : ∀ a t, Short i n s t → (k a t).Ends (Short i m s)) (hm : n ≤ m := by omega) :
    (r.andThen k).Ends (Short i m s) := by
  cases r with
  | ok a t => exact hk a t h
  | raised e t => exact Short.mono h hm

theorem pinRead_short (h : Short i n s t) : (pinRead t).Ends (Short i (n + 1) s) := by
  simp only [pinRead]
  split <;> exact h.one rfl fun _ => rfl

theorem pinWrite_short (l : Bit) (h : Short i n s t) (hi : ∃ v, i = .oeSet v) :
    (pinWrite l t).Ends (Short i (n + 1) s) := by
  obtain ⟨v, hv⟩ := hi
  simp only [pinWrite]
  split <;> exact h.one rfl fun hne => absurd hv (hne v)

theorem busRead_short (reg : Byte) (h : Short i n s t) : (busRead reg t).Ends (Short i (n + 1) s) := by
  simp only [busRead]
  split <;> exact h.one rfl fun _ => rfl

theorem busWrite_short (reg b : Byte) (h : Short i n s t) : (busWrite reg b t).Ends (Short i (n + 1) s) := by
  simp only [busWrite]
  split <;> exact h.one rfl fun _ => rfl

theorem delay_short (h : Short i n s t) : (delay t).Ends (Short i (n + 1) s) := by
  simp only [delay]
  split
  · split <;> exact h.one rfl fun _ => rfl
  · exact h.one rfl fun _ => rfl

theorem busWrites_short (ws : List (Byte × Byte)) (h : Short i n s t) :
    (busWrites ws t).Ends (Short i (n + ws.length) s) := by
  induction ws generalizing n t with
  | nil => exact h
  | cons w ws ih =>
    rw [List.length_cons, Nat.add_comm ws.length, ← Nat.add_assoc]
    exact Short.andThen (busWrite_short w.1 w.2 h) fun _ _ hu => ih hu

theorem setFreqSequence_short (b : Byte) (h : Short i n s t) : (setFreqSequence b t).Ends (Short i (n + 5) s) :=
  Short.andThen (busRead_short _ h) fun _ _ h₁ => Short.andThen (busWrite_short _ _ h₁) fun _ _ h₂ =>
    Short.andThen (busWrite_short _ _ h₂) fun _ _ h₃ => Short.andThen (delay_short h₃) fun _ _ h₄ =>
      busWrite_short _ _ h₄

end

/-! ### What a run leaves behind -/

/-- From `s` to `t` the command `i` appends at most five events, none of them a failure, or, if `failed`, the last alone. -/
structure Ran (i : Instr) (s : State) (failed : Bool) (t : State) : Prop extends Short i 5 s t where
  trace : s.params.wf = true → ∃ ds, (∀ e ∈ ds, doneEvent s.busAddr s.oePin e = true) ∧
    (failed = false → t.trace = s.trace ++ ds) ∧
    (failed = true → ∃ a, attempted s.params.delayMayFail s.busAddr s.oePin a = true ∧
      t.trace = s.trace ++ ds ++ [.fail a])

/-- A part of the command `i` begun in `s`: it raises TRANSPORT exactly if an interaction has failed, and never ILLEGAL. -/
def Res.Ran {α : Type} (i : Instr) (s : State) : Res α → Prop
  | .ok _ t => Machine.Ran i s false t
  | .raised e t => Machine.Ran i s (decide (e = .transport)) t ∧ e ≠ .illegal

/-- A check that changes nothing and raises neither TRANSPORT nor ILLEGAL. -/
def Res.Checks {α : Type} (s : State) : Res α → Prop
  | .ok _ t => t = s
  | .raised e t => t = s ∧ e ≠ .transport ∧ e ≠ .illegal

/-- The commands whose response can carry data (R81, R158). -/
def answersData (i : Instr) : Prop := i = .oeGet ∨ (∃ ch, i = .lookupCh ch) ∨ ∃ addr, i = .readReg addr

/-- The whole command `i` on `s`. -/
def Res.Answers (i : Instr) (s : State) : Res Byte → Prop
  | .ok data t => Machine.Ran i s false t ∧ (data ≠ 0x00#8 → answersData i)
  | .raised e t => Machine.Ran i s (decide (e = .transport)) t ∧ e ≠ .illegal

section
variable {i : Instr} {s t : State}

theorem Ran.refl (i : Instr) (s : State) : Ran i s false s where
  toShort := Short.refl i 5 s
  trace := fun _ => ⟨[], by simp, fun _ => (List.append_nil _).symm, by simp⟩

/-- The registry is no part of what a run leaves behind. -/
theorem Ran.of_setSlot {k : Fin 16} {v : Slot} {failed : Bool} (h : Ran i (s.setSlot k v) failed t) : Ran i s failed t :=
  ⟨⟨h.length, h.pin⟩, h.trace⟩

theorem Ran.setSlot {failed : Bool} (h : Ran i s failed t) (k : Fin 16) (v : Slot) : Ran i s failed (t.setSlot k v) :=
  ⟨⟨h.length, h.pin⟩, h.trace⟩

theorem Ran.withFreq {failed : Bool} (h : Ran i s failed t) (f : BitVec 32) : Ran i s failed (t.withFreq f) :=
  ⟨⟨h.length, h.pin⟩, h.trace⟩

theorem Res.Ran.of_setSlot {α : Type} {k : Fin 16} {v : Slot} {r : Res α} (h : r.Ran i (s.setSlot k v)) : r.Ran i s := by
  cases r with
  | ok a t => exact Machine.Ran.of_setSlot h
  | raised e t => exact ⟨h.1.of_setSlot, h.2⟩

theorem Res.Ran.andThen {α : Type} {r : Res α} {k : α → State → Res Byte} (h : r.Ran i s)
    (hk : ∀ a t, Machine.Ran i s false t → (k a t).Answers i s) : (r.andThen k).Answers i s := by
  cases r with
  | ok a t => exact hk a t h
  | raised e t => exact h

theorem Res.Checks.andThen {α : Type} {r : Res α} {k : α → State → Res Byte} (h : r.Checks s)
    (hk : ∀ a, (k a s).Answers i s) : (r.andThen k).Answers i s := by
  cases r with
  | ok a t => exact h ▸ hk a
  | raised e t =>
    obtain ⟨rfl, htransport, hillegal⟩ := h
    exact ⟨by rw [decide_eq_false htransport]; exact Machine.Ran.refl i _, hillegal⟩

/-- The end of a command that answers OK with no data. -/
theorem Ran.answers (h : Ran i s false t) : (Res.ok 0x00#8 t).Answers i s := ⟨h, fun hne => absurd rfl hne⟩

theorem answers_range (i : Instr) (s : State) : (Res.raised (α := Byte) .range s).Answers i s :=
  ⟨Ran.refl i s, Err.noConfusion⟩

/-! ### The checks -/

theorem checkIndex_checks (ch : Byte) (s : State) : (checkIndex ch s).Checks s := by
  unfold checkIndex
  split
  · rfl
  · exact ⟨rfl, Err.noConfusion, Err.noConfusion⟩

theorem lookup_checks (ch : Byte) (s : State) : (lookup ch s).Checks s := by
  rcases lookup_cases ch s with ⟨e, -⟩ | ⟨_, e, -⟩ | ⟨_, e, -⟩ <;> rw [e]
  · exact ⟨rfl, Err.noConfusion, Err.noConfusion⟩
  · exact ⟨rfl, Err.noConfusion, Err.noConfusion⟩
  · rfl

theorem servoLookup_checks (ch : Byte) (s : State) : (servoLookup ch s).Checks s := by
  rcases servoLookup_cases ch s with ⟨e, -⟩ | ⟨_, e, -⟩ | ⟨_, _, _, e, -⟩ <;> rw [e]
  · exact ⟨rfl, Err.noConfusion, Err.noConfusion⟩
  · exact ⟨rfl, Err.noConfusion, Err.noConfusion⟩
  · rfl

theorem requireFree_checks (ch : Byte) (s : State) : (requireFree ch s).Checks s := by
  rcases requireFree_cases ch s with ⟨e, -⟩ | ⟨_, e, -⟩ | ⟨_, e, -⟩ <;> rw [e]
  · exact ⟨rfl, Err.noConfusion, Err.noConfusion⟩
  · exact ⟨rfl, Err.noConfusion, Err.noConfusion⟩
  · rfl

theorem requireFreq_checks (s : State) : (requireFreq s).Checks s := by
  unfold requireFreq
  split
  · exact ⟨rfl, Err.noConfusion, Err.noConfusion⟩
  · rfl

/-! ### The runs -/

/-- A run of external primitives, its events said by `Did` and counted by `Short`. -/
theorem Res.ran_of_did {α : Type} {r : Res α} {regs : List Byte}
    (hdid : (∃ a u, r = .ok a u ∧ Did regs s false u) ∨ ∃ u, r = .raised .transport u ∧ Did regs s true u)
    (hshort : r.Ends (Short i 5 s)) : r.Ran i s := by
  rcases hdid with ⟨a, u, rfl, d⟩ | ⟨u, rfl, d⟩
  · exact ⟨hshort, d.trace⟩
  · exact ⟨⟨hshort, d.trace⟩, Err.noConfusion⟩

/-- As `Res.ran_of_did`, for a run that answers nothing. -/
theorem Res.ran_of_did_unit {r : Res Unit} {regs : List Byte}
    (hdid : (∃ u, r = .ok () u ∧ Did regs s false u) ∨ ∃ u, r = .raised .transport u ∧ Did regs s true u)
    (hshort : r.Ends (Short i 5 s)) : r.Ran i s :=
  Res.ran_of_did (hdid.imp_left (Exists.intro ())) hshort

theorem pinRead_ran : (pinRead s).Ran i s :=
  Res.ran_of_did (pinRead_did [] s) (pinRead_short (Short.refl i 4 s))

theorem pinWrite_ran (l : Bit) (hi : ∃ v, i = .oeSet v) : (pinWrite l s).Ran i s :=
  Res.ran_of_did_unit (pinWrite_did [] l s) (pinWrite_short l (Short.refl i 4 s) hi)

theorem busRead_ran (reg : Byte) : (busRead reg s).Ran i s :=
  Res.ran_of_did (busRead_did [] reg s) (busRead_short reg (Short.refl i 4 s))

theorem busWrite_ran (reg b : Byte) : (busWrite reg b s).Ran i s :=
  Res.ran_of_did_unit (busWrite_did [reg] reg b s List.mem_cons_self) (busWrite_short reg b (Short.refl i 4 s))

theorem busWrites_ran (ws : List (Byte × Byte)) (hlen : ws.length ≤ 5) : (busWrites ws s).Ran i s := by
  have hshort := busWrites_short ws (Short.refl i (5 - ws.length) s)
  rw [Nat.sub_add_cancel hlen] at hshort
  exact Res.ran_of_did_unit (busWrites_did (ws.map Prod.fst) ws s fun _ => List.mem_map_of_mem) hshort

theorem setFreqSequence_ran (b : Byte) : (setFreqSequence b s).Ran i s :=
  Res.ran_of_did_unit (setFreqSequence_did b s) (setFreqSequence_short b (Short.refl i 0 s))

theorem setPwmCore_ran (k : Fin 16) (on off : Int) : (setPwmCore k on off s).Ran i s := by
  unfold setPwmCore
  split
  · exact ⟨Ran.refl i s, Err.noConfusion⟩
  · have hwrites := busWrites_ran (i := i) (s := s) (chanWrites s.params k (encPwm on.toNat off.toNat))
      (by simp [chanWrites, encPwm])
    generalize busWrites (chanWrites s.params k (encPwm on.toNat off.toNat)) s = r at hwrites ⊢
    cases r with
    | ok _ t => exact Ran.setSlot hwrites k _
    | raised e t => exact hwrites

theorem setPwCore_ran (k : Fin 16) (sv : ServoRec) (f : BitVec 32) (req : Int) : (setPwCore k sv f req s).Ran i s :=
  (setPwmCore_ran k _ _).of_setSlot

/-- The common body of SET_FULL_ON and SET_FULL_OFF. -/
theorem writeEncoding_answers (ch : Byte) (enc : List (Nat × Byte)) (henc : enc.length ≤ 5) :
    (writeEncoding ch enc s).Answers i s :=
  (lookup_checks ch s).andThen fun p =>
    (busWrites_ran (chanWrites s.params p.1 enc) (by rwa [chanWrites, List.length_map])).andThen fun _ _ h => h.answers

/-- The common body of SET_ANGLE and SET_PW. -/
theorem programServo_answers (ch : Byte) {setter : Fin 16 → ServoRec → BitVec 32 → State → Res Unit}
    (hsetter : ∀ k sv f, (setter k sv f s).Ran i s) : (programServo ch setter s).Answers i s :=
  (servoLookup_checks ch s).andThen fun p => (requireFreq_checks s).andThen fun f =>
    (hsetter p.1 p.2 f).andThen fun _ _ h => h.answers

end

/-! ### Every command -/

theorem exec_answers (i : Instr) (s : State) : ∃ r, exec i s = .next (finish r) ∧ r.Answers i s := by
  have hs := Ran.refl i s
  cases i with
  | oeGet => exact ⟨_, rfl, pinRead_ran.andThen fun _ _ h => ⟨h, fun _ => .inl rfl⟩⟩
  | oeSet v => exact ⟨_, rfl, (pinWrite_ran _ ⟨v, rfl⟩).andThen fun _ _ h => h.answers⟩
  | setFreq f =>
    refine ⟨_, rfl, ?_⟩
    split
    · exact answers_range _ s
    · split
      · exact answers_range _ s
      · exact (setFreqSequence_ran _).andThen fun _ _ h => (h.withFreq f).answers
  | regCh ch => exact ⟨_, rfl, (requireFree_checks ch s).andThen fun k => (hs.setSlot k _).answers⟩
  | lookupCh ch =>
    refine ⟨_, rfl, (lookup_checks ch s).andThen fun p => ?_⟩
    obtain ⟨_, _ | _ | _⟩ := p <;> exact ⟨hs, fun _ => .inr (.inl ⟨ch, rfl⟩)⟩
  | dropCh ch => exact ⟨_, rfl, (checkIndex_checks ch s).andThen fun k => (hs.setSlot k _).answers⟩
  | readReg addr => exact ⟨_, rfl, (busRead_ran addr).andThen fun _ _ h => ⟨h, fun _ => .inr (.inr ⟨addr, rfl⟩)⟩⟩
  | writeReg addr data => exact ⟨_, rfl, (busWrite_ran addr data).andThen fun _ _ h => h.answers⟩
  | setPwm ch on off =>
    exact ⟨_, exec_setPwm ch on off s, (lookup_checks ch s).andThen fun p =>
      (setPwmCore_ran p.1 _ _).andThen fun _ _ h => h.answers⟩
  | setFullOn ch => exact ⟨_, exec_setFullOn ch s, writeEncoding_answers ch _ (by decide)⟩
  | setFullOff ch => exact ⟨_, exec_setFullOff ch s, writeEncoding_answers ch _ (by decide)⟩
  | regServo ch minPw maxPw maxAngle ign =>
    refine ⟨_, rfl, (requireFree_checks ch s).andThen fun k => ?_⟩
    split
    · exact answers_range _ s
    · exact (hs.setSlot k _).answers
  | setAngle ch v =>
    exact ⟨_, exec_setAngle ch v s, programServo_answers ch fun k sv f => (setPwCore_ran k sv f _).of_setSlot⟩
  | setPw ch v => exact ⟨_, exec_setPw ch v s, programServo_answers ch fun k sv f => setPwCore_ran k sv f v⟩

/-- The codes of the errors a command raises are 1 to 5 (R158). -/
theorem errCode_of_ne_illegal {e : Err} (h : e ≠ .illegal) :
    (errCode e).toNat ≤ 6 ∧ errCode e ≠ 0x06#8 := by
  cases e with
  | illegal => exact absurd rfl h
  | _ => decide

/-- Settles O42: the response of a command that ends well is OK with its data, of one that raises the error's. -/
theorem everyCommandResponds : Obligations.EveryCommandResponds := by
  intro i s
  obtain ⟨r, hr, hanswers⟩ := exec_answers i s
  cases r with
  | ok data u =>
    obtain ⟨-, hdata⟩ := hanswers
    exact ⟨_, _, data, hr, rfl, by decide, by decide, fun hne => absurd rfl hne, hdata⟩
  | raised e u =>
    obtain ⟨-, hillegal⟩ := hanswers
    obtain ⟨hcode, hne⟩ := errCode_of_ne_illegal hillegal
    exact ⟨_, _, _, hr, rfl, hcode, hne, fun _ => rfl, fun hdata => absurd rfl hdata⟩

theorem errCode_eq_transport {e : Err} : errCode e = 0x04#8 ↔ e = .transport :=
  ⟨fun h => errCode_injective h, fun h => h ▸ rfl⟩

/-- A run whose last event alone is a failure, or none. -/
theorem Ran.events {i : Instr} {s t : State} {failed : Bool} (h : Ran i s failed t) (hp : s.params.wf = true) :
    ∃ es, t.trace = s.trace ++ es ∧ es.length ≤ 5 ∧
      (failed = false → ∀ e ∈ es, doneEvent s.busAddr s.oePin e = true) ∧
      (failed = true → ∃ ds a, es = ds ++ [.fail a] ∧
        attempted s.params.delayMayFail s.busAddr s.oePin a = true ∧
        ∀ e ∈ ds, doneEvent s.busAddr s.oePin e = true) := by
  obtain ⟨ds, hds, hdone, hfailed⟩ := h.trace hp
  have hlength := h.length
  cases failed with
  | false =>
    have ht := hdone rfl
    rw [ht, List.length_append] at hlength
    exact ⟨ds, ht, by omega, fun _ => hds, Bool.noConfusion⟩
  | true =>
    obtain ⟨a, ha, ht⟩ := hfailed rfl
    rw [List.append_assoc] at ht
    rw [ht, List.length_append] at hlength
    exact ⟨_, ht, by omega, Bool.noConfusion, fun _ => ⟨ds, a, rfl, ha, hds⟩⟩

/-- Settles O43: TRANSPORT is what a command raises on a failed interaction, and on nothing else. -/
theorem traceGrowsAndFailsLast : Obligations.TraceGrowsAndFailsLast := by
  intro i s t hp h
  obtain ⟨r, hr, hanswers⟩ := exec_answers i s
  obtain rfl := Host.Outcome.next.inj (hr.symm.trans h)
  cases r with
  | ok data u =>
    obtain ⟨hran, -⟩ := hanswers
    obtain ⟨es, ht, hlen, hdone, -⟩ := hran.events hp
    exact ⟨es, ht, hlen, .inl ⟨by simp [statusOk], hdone rfl⟩⟩
  | raised e u =>
    obtain ⟨hran, -⟩ := hanswers
    obtain ⟨es, ht, hlen, hdone, hfailed⟩ := hran.events hp
    refine ⟨es, ht, hlen, ?_⟩
    by_cases he : e = .transport
    · exact .inr ⟨by rw [he]; rfl, hfailed (decide_eq_true he)⟩
    · exact .inl ⟨by simpa [errCode_eq_transport] using he, hdone (decide_eq_false he)⟩

end Machine
end Sys2Proof

/-! Two frames that need to know what a command answers: the environment record outside the registers a command writes
(20_memory.md R50, R57), and the stored steps (10_state.md R34). -/

namespace Sys2Proof
namespace Machine

/-! ### The environment record -/

/-- SET_FREQ touches MODE1 and PRESCALE alone (R107). -/
theorem setFreq_read {f : BitVec 32} {s t : State} (h : exec (.setFreq f) s = .next t) {a : Nat}
    (ha : ∀ r ∈ [s.params.addrMode1, s.params.addrPrescale], a ≠ r.toNat) :
    Memory.read t.env.dev a = Memory.read s.env.dev a := by
  rcases setFreq_cases h with rfl | ⟨u, rfl, d⟩ | ⟨u, rfl, -, -, hseq⟩
  · rfl
  · exact d.dev a ha
  · rcases setFreqSequence_did (BitVec.ofInt 8 (presc f.toNat)) s with ⟨u', e, d⟩ | ⟨u', e, -⟩ <;> rw [e] at hseq <;>
      cases hseq
    exact d.dev a ha

theorem exec_pin {i : Instr} {s t : State} (h : exec i s = .next t) (hi : ∀ v, i ≠ .oeSet v) :
    t.env.pin = s.env.pin := by
  obtain ⟨r, hr, hanswers⟩ := exec_answers i s
  obtain rfl := Host.Outcome.next.inj (hr.symm.trans h)
  cases r with
  | ok data u => exact hanswers.1.pin hi
  | raised e u => exact hanswers.1.pin hi

/-- Settles O49: SET_FREQ by its outcomes, every other command by what it leaves untouched; the pin by the runs. -/
theorem otherRegistersUnchanged : Obligations.OtherRegistersUnchanged := by
  refine fun i s t h => ⟨fun a ha => ?_, exec_pin h⟩
  by_cases hi : ∀ f, i ≠ .setFreq f
  · exact (exec_untouched hi h).dev a ha
  push Not at hi
  obtain ⟨f, rfl⟩ := hi
  exact setFreq_read h ha

/-! ### The stored steps -/

/-- The channel record of a slot, which holds the stored steps. -/
def Slot.chanRec : Slot → Option ChanRec
  | .absent => none
  | .chan c => some c
  | .servo c _ => some c

theorem Slot.chanRec_eq_some_iff {v : Slot} {c : ChanRec} :
    v.chanRec = some c ↔ v = .chan c ∨ ∃ sv, v = .servo c sv := by
  cases v <;> simp [Slot.chanRec]

theorem Slot.chanRec_ne_none_iff {v : Slot} : v.chanRec ≠ none ↔ v ≠ .absent := by
  cases v <;> simp [Slot.chanRec]

/-- The commands that program steps on the channel `ch`. -/
def programsSteps (i : Instr) (ch : Byte) : Prop :=
  (∃ on off, i = .setPwm ch on off) ∨ (∃ v, i = .setAngle ch v) ∨ ∃ v, i = .setPw ch v

/-- A registration leaves a registered slot as it is. -/
theorem register_getSlot {i : Instr} {s t : State} {ch : Byte} (hch : ch.toNat < 16)
    (hi : i = .regCh ch ∨ ∃ minPw maxPw maxAngle ign, i = .regServo ch minPw maxPw maxAngle ign)
    (h : exec i s = .next t) (hs : s.getSlot ⟨ch.toNat, hch⟩ ≠ .absent) (j : Fin 16) : t.getSlot j = s.getSlot j := by
  suffices exec i s = .next (s.answer 0x02#8) by
    obtain rfl := Host.Outcome.next.inj (this.symm.trans h)
    rfl
  rcases hi with rfl | ⟨minPw, maxPw, maxAngle, ign, rfl⟩
  · exact exec_regCh_conflict hch hs
  · exact ((regServoRegistersServo s ch minPw maxPw maxAngle ign).2 hch).1 hs

/-- Of the commands that write a registered slot, those that do not program its steps drop it or leave its steps. -/
theorem programsSteps_of_chanRec_ne {i : Instr} {s t : State} {j : Fin 16} (h : exec i s = .next t)
    (hs : s.getSlot j ≠ .absent) (ht : t.getSlot j ≠ .absent) (hne : (t.getSlot j).chanRec ≠ (s.getSlot j).chanRec) :
    ∃ ch, ch.toNat = j.val ∧ programsSteps i ch := by
  obtain ⟨-, hslot, -⟩ := otherSlotsUnchanged i s t h
  obtain ⟨ch, hwrites, hj⟩ : ∃ ch, writtenSlot i = some ch ∧ ch.toNat = j.val := by
    by_contra hno
    push Not at hno
    exact hne (congrArg Slot.chanRec (hslot j hno))
  refine ⟨ch, hj, ?_⟩
  have hch : ch.toNat < 16 := hj ▸ j.isLt
  obtain rfl : j = ⟨ch.toNat, hch⟩ := Fin.ext hj.symm
  cases i with
  | regCh ch' =>
    obtain rfl := Option.some.inj hwrites
    exact absurd (congrArg Slot.chanRec (register_getSlot hch (.inl rfl) h hs _)) hne
  | regServo ch' minPw maxPw maxAngle ign =>
    obtain rfl := Option.some.inj hwrites
    exact absurd (congrArg Slot.chanRec (register_getSlot hch (.inr ⟨_, _, _, _, rfl⟩) h hs _)) hne
  | dropCh ch' =>
    obtain rfl := Option.some.inj hwrites
    obtain rfl := Host.Outcome.next.inj ((exec_dropCh_ok hch s).symm.trans h)
    exact absurd (setSlot_getSlot_self s _ _) ht
  | setPwm ch' on off => exact .inl ⟨on, off, by rw [Option.some.inj hwrites]⟩
  | setAngle ch' v => exact .inr (.inl ⟨v, by rw [Option.some.inj hwrites]⟩)
  | setPw ch' v => exact .inr (.inr ⟨v, by rw [Option.some.inj hwrites]⟩)
  | _ => cases hwrites

/-- A command that raises leaves the stored steps of every slot (R169). -/
theorem chanRec_of_error {i : Instr} {s t : State} (h : exec i s = .next t)
    (herr : ∀ data, t.resp ≠ some (0x00#8, data)) (j : Fin 16) : (t.getSlot j).chanRec = (s.getSlot j).chanRec := by
  obtain ⟨-, -, hframe⟩ := otherSlotsUnchanged i s t h
  rcases (hframe herr).2 j with hsame | ⟨-, c, sv, a, p, hs, ht⟩
  · rw [hsame]
  · rw [hs, ht]; rfl

/-- A command that programs steps answers no data. -/
theorem resp_of_programsSteps {i : Instr} {s t : State} {ch data : Byte} (h : exec i s = .next t)
    (hi : programsSteps i ch) (hresp : t.resp = some (0x00#8, data)) : t.resp = some (0x00#8, 0x00#8) := by
  obtain ⟨t', st, d, ht', hresp', -, -, -, hdata⟩ := everyCommandResponds i s
  obtain rfl := Host.Outcome.next.inj (ht'.symm.trans h)
  obtain ⟨-, rfl⟩ := Prod.mk.inj (Option.some.inj (hresp'.symm.trans hresp))
  by_contra hne
  have hzero : d ≠ 0x00#8 := fun e => hne (e ▸ hresp)
  rcases hi with ⟨_, _, rfl⟩ | ⟨_, rfl⟩ | ⟨_, rfl⟩ <;> simpa using hdata hzero

/-- Settles O48: a command that changes stored steps has not raised, and it programs the slot. -/
theorem storedStepsWrittenOnlyOnSuccess : Obligations.StoredStepsWrittenOnlyOnSuccess := by
  intro i s t j c c' h hs ht hne
  have hs := Slot.chanRec_eq_some_iff.mpr hs
  have ht := Slot.chanRec_eq_some_iff.mpr ht
  have hchanged : (t.getSlot j).chanRec ≠ (s.getSlot j).chanRec := by
    rw [hs, ht]
    exact fun e => hne (Option.some.inj e)
  obtain ⟨ch, hj, hi⟩ := programsSteps_of_chanRec_ne h (Slot.chanRec_ne_none_iff.mp (by simp [hs]))
    (Slot.chanRec_ne_none_iff.mp (by simp [ht])) hchanged
  refine ⟨?_, ch, hj, hi⟩
  by_contra hresp
  exact hchanged (chanRec_of_error h (fun data hok => hresp (resp_of_programsSteps h hi hok)) j)

end Machine
end Sys2Proof

/-! The invariant of a constructed block (10_state.md sections 2 and 3, 60_exceptions.md section 1). Each conjunct is kept by
every command: the constants, the trace and the known registers because every update keeps them; the frequency and the
response because of what a command writes there; the slots because what is registered and stored is legal. -/

namespace Sys2Proof
namespace Machine

/-! ### What every update keeps -/

/-- What construction fixed (R30) is in `t` as in `s`. -/
def SameConstants (s t : State) : Prop :=
  t.busAddr = s.busAddr ∧ t.oePin = s.oePin ∧ t.phase = s.phase ∧ t.params = s.params

theorem SameConstants.refl (s : State) : SameConstants s s := ⟨rfl, rfl, rfl, rfl⟩

theorem sameConstants_keptByUpdates (i : Instr) (s : State) : KeptByUpdates i (SameConstants s) where
  did := fun _ _ _ _ d ⟨hbus, hpin, hphase, hparams⟩ =>
    ⟨d.busAddr.trans hbus, d.oePin.trans hpin, d.phase.trans hphase, d.params.trans hparams⟩
  withFreq := fun _ _ h => h
  withResp := fun _ _ _ h => h
  register := fun _ _ _ _ h => h
  drop := fun _ _ _ _ _ h => h
  store := fun _ _ _ _ h => h

theorem exec_sameConstants {i : Instr} {s t : State} (h : exec i s = .next t) : SameConstants s t :=
  exec_kept (sameConstants_keptByUpdates i s) (SameConstants.refl s) h

theorem devWf_keptByUpdates (i : Instr) : KeptByUpdates i fun s => Memory.wf s.env.dev = true where
  did := fun _ _ _ _ d h => d.wf h
  withFreq := fun _ _ h => h
  withResp := fun _ _ _ h => h
  register := fun _ _ _ _ h => h
  drop := fun _ _ _ _ _ h => h
  store := fun _ _ _ _ h => h

/-! ### The trace -/

theorem commandEvent_of_doneEvent {dev : BitVec 7} {pin : Nat} {e : Event} (b : Bool) (h : doneEvent dev pin e = true) :
    commandEvent b dev pin e = true := by
  cases e with
  | fail a => cases h
  | _ => exact h

theorem traceOk_iff (s : State) : traceOk s = true ↔ ∃ es, s.trace = .initBus s.busAddr :: .initPin s.oePin :: es ∧
    ∀ e ∈ es, commandEvent s.params.delayMayFail s.busAddr s.oePin e = true := by
  unfold traceOk
  match s.trace with
  | [] | [_] => simp
  | a :: b :: es => simp [and_assoc]

theorem traceOk_append {s t : State} {es : List Event} (hs : traceOk s = true) (hc : SameConstants s t)
    (ht : t.trace = s.trace ++ es)
    (hes : ∀ e ∈ es, commandEvent s.params.delayMayFail s.busAddr s.oePin e = true) : traceOk t = true := by
  obtain ⟨hbus, hpin, -, hparams⟩ := hc
  obtain ⟨ds, hds, hcommand⟩ := (traceOk_iff s).mp hs
  rw [traceOk_iff, hbus, hpin, hparams]
  refine ⟨ds ++ es, by rw [ht, hds]; rfl, fun e he => ?_⟩
  rcases List.mem_append.mp he with he | he
  · exact hcommand e he
  · exact hes e he

/-- The events of a command are such as O43 gives them. -/
theorem exec_traceOk {i : Instr} {s t : State} (h : exec i s = .next t) (hp : s.params.wf = true)
    (hs : traceOk s = true) : traceOk t = true := by
  obtain ⟨es, ht, -, hes⟩ := traceGrowsAndFailsLast i s t hp h
  refine traceOk_append hs (exec_sameConstants h) ht ?_
  rcases hes with ⟨-, hdone⟩ | ⟨-, ds, a, rfl, ha, hdone⟩
  · exact fun e he => commandEvent_of_doneEvent _ (hdone e he)
  · intro e he
    rcases List.mem_append.mp he with he | he
    · exact commandEvent_of_doneEvent _ (hdone e he)
    · obtain rfl := List.mem_singleton.mp he
      exact ha

/-! ### The frequency and the response -/

theorem freqOk_some_iff (f : BitVec 32) : freqOk (some f) = true ↔ 24 ≤ f.toNat ∧ f.toNat ≤ 12207 := by
  simp only [freqOk, Bool.and_eq_true, decide_eq_true_eq]

theorem exec_freqOk {i : Instr} {s t : State} (h : exec i s = .next t) (hs : freqOk s.freq = true) :
    freqOk t.freq = true := by
  by_cases hfreq : t.freq = s.freq
  · rwa [hfreq]
  · obtain ⟨f, -, ht, -, hlow, hhigh⟩ := frequencyWrittenOnlyBySetFreq i s t h hfreq
    rw [ht]
    exact (freqOk_some_iff f).mpr ⟨hlow, hhigh⟩

theorem exec_respOk {i : Instr} {s t : State} (h : exec i s = .next t) : respOk t.resp = true := by
  obtain ⟨t', st, data, ht', hresp, hst, -, herr, -⟩ := everyCommandResponds i s
  obtain rfl := Host.Outcome.next.inj (ht'.symm.trans h)
  rw [hresp, respOk, Bool.and_eq_true, Bool.or_eq_true, decide_eq_true_eq, decide_eq_true_eq, decide_eq_true_eq]
  exact ⟨hst, or_iff_not_imp_left.mpr herr⟩

/-! ### The slots (R35, R36) -/

theorem storedIn_some_iff (v lo hi : Int) : storedIn (some v) lo hi = true ↔ lo ≤ v ∧ v ≤ hi := by
  simp only [storedIn, Bool.and_eq_true, decide_eq_true_eq]

theorem limitsOk_iff (sv : ServoRec) : limitsOk sv = true ↔ (sv.ignore = false →
    storedIn sv.angle 0 sv.maxAngle.toNat = true ∧ storedIn sv.pw sv.minPw.toNat sv.maxPw.toNat = true) := by
  rw [limitsOk, Bool.or_eq_true, Bool.and_eq_true, ← Bool.not_eq_true, or_iff_not_imp_left]

theorem slotOk_servo_iff (c : ChanRec) (sv : ServoRec) :
    slotOk (.servo c sv) = true ↔ boundsOk sv = true ∧ limitsOk sv = true := by
  rw [slotOk, Bool.and_eq_true]

/-- With the limits in force the stored angle lies within them (R143). -/
theorem effAngle_stored {sv : ServoRec} (h : sv.ignore = false) (v : Int) :
    storedIn (some (effAngle sv v)) 0 sv.maxAngle.toNat = true := by
  rw [storedIn_some_iff, effAngle_eq_specAngle, specAngle, h, if_neg Bool.false_ne_true]
  omega

/-- And so does the stored pulse width (R148). -/
theorem effPw_stored {sv : ServoRec} (hb : boundsOk sv = true) (h : sv.ignore = false) (v : Int) :
    storedIn (some (effPw sv v)) sv.minPw.toNat sv.maxPw.toNat = true := by
  obtain ⟨hpw, -⟩ := (boundsOk_iff sv).mp hb
  rw [storedIn_some_iff, effPw_eq_specPw hb, specPw, h, if_neg Bool.false_ne_true]
  omega

theorem slotOk_slotWithSteps (v : Slot) (on off : BitVec 12) : slotOk (slotWithSteps v on off) = slotOk v := by
  cases v <;> rfl

/-- A servo of legal bounds with an angle and a pulse width stored that meet its limits. -/
theorem slotOk_stored (c : ChanRec) {sv : ServoRec} (hbounds : boundsOk sv = true) {a p : Option Int}
    (hstored : sv.ignore = false →
      storedIn a 0 sv.maxAngle.toNat = true ∧ storedIn p sv.minPw.toNat sv.maxPw.toNat = true) :
    slotOk (.servo c { sv with angle := a, pw := p }) = true :=
  (slotOk_servo_iff _ _).mpr ⟨hbounds, (limitsOk_iff _).mpr hstored⟩

/-- REG_SERVO registers legal bounds, with nothing stored (R138, R139). -/
theorem freshServo_slotOk {minPw maxPw : BitVec 16} {maxAngle : BitVec 15}
    (hbounds : ¬(maxAngle = 0#15 ∨ maxPw.toNat < minPw.toNat)) (ign : Bit) :
    slotOk (.servo freshChan (freshServo minPw maxPw maxAngle ign)) = true := by
  rw [not_or, not_lt] at hbounds
  obtain ⟨hangle, hpw⟩ := hbounds
  have hpos : 1 ≤ maxAngle.toNat := Nat.pos_of_ne_zero fun e => hangle (BitVec.eq_of_toNat_eq e)
  exact (slotOk_servo_iff _ _).mpr ⟨(boundsOk_iff _).mpr ⟨hpw, hpos⟩, (limitsOk_iff _).mpr fun _ => ⟨rfl, rfl⟩⟩

/-- Every slot is legal. -/
def SlotsOk (s : State) : Prop := ∀ j, slotOk (s.getSlot j) = true

section
variable {s : State} (h : SlotsOk s)
include h

theorem SlotsOk.setSlot (k : Fin 16) {v : Slot} (hv : slotOk v = true) : SlotsOk (s.setSlot k v) := by
  intro j
  rw [setSlot_getSlot]
  split
  · exact hv
  · exact h j

theorem SlotsOk.did {regs : List Byte} {failed : Bool} {t : State} (d : Did regs s failed t) : SlotsOk t :=
  fun j => (d.getSlot j).symm ▸ h j

theorem setPwmCore_slotsOk (k : Fin 16) (on off : Int) : (setPwmCore k on off s).Ends SlotsOk := by
  rcases setPwmCore_did _ k on off s (fun _ hr => hr) with e | ⟨u, e, d⟩ | ⟨u, e, d⟩ <;> rw [e]
  · exact h
  · exact h.did d
  · exact (h.did d).setSlot k ((slotOk_slotWithSteps _ _ _).trans (h.did d k))

/-- The setter of SET_PW on a servo's slot: the angle stays. -/
theorem pwSetter_slotsOk {k : Fin 16} {c : ChanRec} {sv : ServoRec} (hs : s.getSlot k = .servo c sv) (v : Int)
    (f : BitVec 32) : (pwSetter v k sv f s).Ends SlotsOk := by
  obtain ⟨hbounds, hlimits⟩ := (slotOk_servo_iff c sv).mp (hs ▸ h k)
  rw [pwSetter_of_servo hs]
  exact setPwmCore_slotsOk (h.setSlot k (slotOk_stored c hbounds fun hign =>
    ⟨((limitsOk_iff sv).mp hlimits hign).1, effPw_stored hbounds hign v⟩)) _ _ _

/-- The setter of SET_ANGLE on a servo's slot. -/
theorem angleSetter_slotsOk {k : Fin 16} {c : ChanRec} {sv : ServoRec} (hs : s.getSlot k = .servo c sv) (v : Int)
    (f : BitVec 32) : (angleSetter v k sv f s).Ends SlotsOk := by
  obtain ⟨hbounds, -⟩ := (slotOk_servo_iff c sv).mp (hs ▸ h k)
  rw [angleSetter_of_servo hs]
  exact setPwmCore_slotsOk (h.setSlot k (slotOk_stored c hbounds fun hign =>
    ⟨effAngle_stored hign v, effPw_stored hbounds hign _⟩)) _ _ _

theorem programServo_slotsOk (ch : Byte) {setter : Fin 16 → ServoRec → BitVec 32 → State → Res Unit}
    (hsetter : ∀ k c sv f, s.getSlot k = .servo c sv → (setter k sv f s).Ends SlotsOk) :
    (programServo ch setter s).Ends SlotsOk := by
  rcases programServo_cases ch setter s with ⟨e, hraised⟩ | ⟨hch, c, sv, f, hs, hset⟩
  · rw [hraised]
    exact h
  · rw [hset]
    exact (hsetter _ c sv f hs).andThen fun _ _ _ hu => hu

/-- The commands that write a slot; the others write none. -/
theorem exec_slotsOk {i : Instr} {t : State} (ht : exec i s = .next t) : SlotsOk t := by
  by_cases hi : writtenSlot i = none
  · obtain ⟨-, hslot, -⟩ := otherSlotsUnchanged i s t ht
    exact fun j => (hslot j fun ch hch => nomatch hi.symm.trans hch).symm ▸ h j
  suffices ∃ r, exec i s = .next (finish r) ∧ r.Ends SlotsOk by
    obtain ⟨r, hr, hends⟩ := this
    obtain rfl := Host.Outcome.next.inj (hr.symm.trans ht)
    cases r <;> exact hends
  cases i with
  | regCh ch => exact ⟨_, rfl, (requireFree_ends ch h).andThen fun k _ _ hu => hu.setSlot k rfl⟩
  | dropCh ch => exact ⟨_, rfl, (checkIndex_ends ch h).andThen fun k _ _ hu => hu.setSlot k rfl⟩
  | setPwm ch on off =>
    exact ⟨_, exec_setPwm ch on off s, (lookup_ends ch h).andThen fun p _ _ hu =>
      (setPwmCore_slotsOk hu p.1 _ _).andThen fun _ _ _ hx => hx⟩
  | regServo ch minPw maxPw maxAngle ign =>
    refine ⟨_, rfl, (requireFree_ends ch h).andThen fun k _ _ hu => ?_⟩
    split
    · exact hu
    · exact hu.setSlot k (freshServo_slotOk ‹_› ign)
  | setAngle ch v =>
    exact ⟨_, exec_setAngle ch v s, programServo_slotsOk h ch fun _ _ _ f hs => angleSetter_slotsOk h hs v f⟩
  | setPw ch v =>
    exact ⟨_, exec_setPw ch v s, programServo_slotsOk h ch fun _ _ _ f hs => pwSetter_slotsOk h hs v f⟩
  | _ => exact absurd rfl hi

end

/-! ### Every step -/

theorem exec_inv {i : Instr} {s t : State} (h : exec i s = .next t) (hs : s.Inv) : t.Inv := by
  obtain ⟨-, -, hphase, hparams⟩ := exec_sameConstants h
  exact {
    ready := hphase.trans hs.ready
    params := hparams ▸ hs.params
    freq := exec_freqOk h hs.freq
    slots := exec_slotsOk hs.slots h
    trace := exec_traceOk h hs.params hs.trace
    resp := exec_respOk h
    dev := exec_kept (devWf_keptByUpdates i) hs.dev h }

theorem inv_withPort {s : State} (h : s.Inv) (ws : List CmdWord) : (s.withPort ws).Inv :=
  ⟨h.ready, h.params, h.freq, h.slots, h.trace, h.resp, h.dev⟩

/-- Everything a step in Ready can do: it waits, answers ILLEGAL, or runs a command. -/
theorem step_cases {s : State} (hphase : s.phase = .ready) :
    step s = .next s ∨
    (∃ ws, step s = .next ((s.withPort ws).withResp (errCode .illegal) 0x00#8)) ∨
    ∃ ws i, step s = exec i (s.withPort ws) := by
  cases hport : s.port with
  | nil => exact .inl (by simp only [step, hphase, accept, hport, idle])
  | cons w ws =>
    cases hdecode : decode w with
    | error e => exact .inr (.inl ⟨ws, step_of_decode_error hphase hport hdecode⟩)
    | ok i => exact .inr (.inr ⟨ws, i, step_of_decode_ok hphase hport hdecode⟩)

theorem phase_of_step {s t : State} (h : step s = .next t) : s.phase = .ready := by
  cases hphase : s.phase with
  | ready => rfl
  | initFault => rw [step_initFault hphase] at h; cases h

/-- Settles O44: a word taken off the port and a response are no change of a constant, nor is a command. -/
theorem constructionArgumentsConstant : Obligations.ConstructionArgumentsConstant := by
  intro s t h
  change SameConstants s t
  rcases step_cases (phase_of_step h) with hidle | ⟨ws, hillegal⟩ | ⟨ws, i, hexec⟩
  · obtain rfl := Host.Outcome.next.inj (hidle.symm.trans h)
    exact SameConstants.refl s
  · obtain rfl := Host.Outcome.next.inj (hillegal.symm.trans h)
    exact SameConstants.refl s
  · exact exec_sameConstants (s := s.withPort ws) (hexec.symm.trans h)

/-- Settles O51: the state waits, or only the port and the response change, or a command runs. -/
theorem stepKeepsInvariant : Obligations.StepKeepsInvariant := by
  intro s t hs h
  rcases step_cases hs.ready with hidle | ⟨ws, hillegal⟩ | ⟨ws, i, hexec⟩
  · obtain rfl := Host.Outcome.next.inj (hidle.symm.trans h)
    exact hs
  · obtain rfl := Host.Outcome.next.inj (hillegal.symm.trans h)
    exact ⟨hs.ready, hs.params, hs.freq, hs.slots, hs.trace, rfl, hs.dev⟩
  · exact exec_inv (hexec.symm.trans h) (inv_withPort hs ws)

/-- Settles O52: none of the three things a step in Ready does ends in a fault or a refusal. -/
theorem constructedBlockNeverStops : Obligations.ConstructedBlockNeverStops := by
  intro s hs
  rcases step_cases hs.ready with hidle | ⟨ws, hillegal⟩ | ⟨ws, i, hexec⟩
  · exact ⟨_, hidle⟩
  · exact ⟨_, hillegal⟩
  · obtain ⟨t, -, -, ht, -⟩ := everyCommandResponds i (s.withPort ws)
    exact ⟨t, hexec.trans ht⟩

/-! ### From construction on -/

theorem construct_inv {p : Config.Params} (hp : p.wf = true) (dev : BitVec 7) (pin : Nat) {e : Env}
    (he : Memory.wf e.dev = true) {o : Oracle} (ho : acks 2 o) : (construct p dev pin e o).Inv := by
  rw [construct_of_acks p dev pin e ho]
  exact ⟨rfl, hp, rfl, fun i => congrArg slotOk (blank_getSlot p dev pin e o i),
    (traceOk_iff _).mpr ⟨[], rfl, by simp⟩, rfl, he⟩

/-- Settles O50: the reset state is constructed. -/
theorem resetMeetsInvariant : Obligations.ResetMeetsInvariant := by
  obtain ⟨o, ho, hreset⟩ := resetIsConstruction
  rw [Obligations.ResetMeetsInvariant, ← hreset]
  exact construct_inv (by decide) 0x40#7 17 rfl ho

/-- Settles O53: construction establishes the invariant, a presented word is no part of it, and O51 is the step. -/
theorem reachableStatesMeetInvariant : Obligations.ReachableStatesMeetInvariant := by
  intro s h
  induction h with
  | constructed p dev pin e o hp he ho => exact construct_inv hp dev pin he ho
  | presented s w _ ih => exact inv_withPort ih _
  | stepped s t _ hstep ih => exact stepKeepsInvariant s t ih hstep

end Machine
end Sys2Proof
